-- ==== Sys2Proof/Word.lean ====
section
/-! DEFINITION. The word and byte types of 00_scope.md R10 and the fixed-size files of them. -/

namespace Sys2Proof

/-- A word is 32 bits, unsigned (00_scope.md R10). -/
abbrev Word := BitVec 32

/-- A byte, `u8` (00_scope.md R10). -/
abbrev Byte := BitVec 8

/-- Eight key words (00_scope.md R7: 256 bits). -/
abbrev KeyWords := Vector Word 8

/-- Three nonce words (00_scope.md R7: 96 bits). -/
abbrev NonceWords := Vector Word 3

/-- Sixteen words: a cipher state file, a result block, KS0 to KS15 (00_scope.md R7). -/
abbrev Words16 := Vector Word 16

/-- Sixty-four bytes: a keystream block, an input block (00_scope.md R7). -/
abbrev Bytes64 := Vector Byte 64

end Sys2Proof
end

