-- ==== Sys2Proof/Machine/BlockGenerator.lean ====
section
/-! DEFINITION. The Block Generator, 40_block_generator.md, and the function an APPLY computes
(41_stream_engine.md R150, R156). One definition for each operation the spec names. -/

namespace Sys2Proof.Machine

/-! ### ARX primitives -/

/-- ADD32, the carry out discarded (40_block_generator.md R120). -/
def add32 (a b : Word) : Word := a + b

/-- XOR32 (40_block_generator.md R121). -/
def xor32 (a b : Word) : Word := a ^^^ b

/-- ROTL32 by `0 < n < 32` (40_block_generator.md R122). -/
def rotl32 (v : Word) (n : Nat) : Word := (v <<< n) ||| (v >>> (32 - n))

/-- BXOR (41_stream_engine.md R156). -/
def bxor (p q : Byte) : Byte := p ^^^ q

/-! ### Bytes and words (00_scope.md R12) -/

/-- `le32`: the little-endian interpretation of four bytes. -/
def le32 (b0 b1 b2 b3 : Byte) : Word :=
  b0.setWidth 32 + (b1.setWidth 32 <<< 8) + (b2.setWidth 32 <<< 16) + (b3.setWidth 32 <<< 24)

/-- Byte `n` of a word, counting from the least significant: `w[8n+7 : 8n]`. -/
def byteOfWord (w : Word) (n : Nat) : Byte := w.extractLsb' (8 * n) 8

/-! ### Quarter-round (40_block_generator.md R123) -/

/-- The four words a quarter-round works on. -/
structure Quad where
  a : Word
  b : Word
  c : Word
  d : Word
deriving DecidableEq, Repr

/-- One line of the quarter-round: `a += b; d ^= a; d <<<= n`. -/
def qrHalf (a b d : Word) (n : Nat) : Word × Word :=
  (add32 a b, rotl32 (xor32 d (add32 a b)) n)

/-- The quarter-round on four words: the rotations are 16, 12, 8, 7, in that order. -/
def quarterRound (q : Quad) : Quad :=
  let (a1, d1) := qrHalf q.a q.b q.d 16
  let (c1, b1) := qrHalf q.c d1 q.b 12
  let (a2, d2) := qrHalf a1 b1 d1 8
  let (c2, b2) := qrHalf c1 d2 b1 7
  { a := a2, b := b2, c := c2, d := d2 }

/-- The indices of a quarter-round. -/
structure QrGroup where
  a : Fin 16
  b : Fin 16
  c : Fin 16
  d : Fin 16
deriving DecidableEq, Repr

/-- QR(a, b, c, d) on the working array (40_block_generator.md R123). -/
def qr (g : QrGroup) (x : Words16) : Words16 :=
  let q := quarterRound { a := x[g.a], b := x[g.b], c := x[g.c], d := x[g.d] }
  (((x.set g.a q.a).set g.b q.b).set g.c q.c).set g.d q.d

/-! ### Passes and rounds -/

/-- The column groups (40_block_generator.md R124). -/
def columnGroups : List QrGroup :=
  [⟨0, 4, 8, 12⟩, ⟨1, 5, 9, 13⟩, ⟨2, 6, 10, 14⟩, ⟨3, 7, 11, 15⟩]

/-- The diagonal groups (40_block_generator.md R125). -/
def diagonalGroups : List QrGroup :=
  [⟨0, 5, 10, 15⟩, ⟨1, 6, 11, 12⟩, ⟨2, 7, 8, 13⟩, ⟨3, 4, 9, 14⟩]

/-- A pass: the quarter-rounds of its groups, in order. -/
def runPass (gs : List QrGroup) (x : Words16) : Words16 := gs.foldl (fun x g => qr g x) x

/-- COLPASS (40_block_generator.md R124). -/
def colPass (x : Words16) : Words16 := runPass columnGroups x

/-- DIAGPASS (40_block_generator.md R125). -/
def diagPass (x : Words16) : Words16 := runPass diagonalGroups x

/-- DROUND: the column pass first (40_block_generator.md R126). -/
def dround (x : Words16) : Words16 := diagPass (colPass x)

/-- `n` double rounds. -/
def drounds : Nat → Words16 → Words16
  | 0, x => x
  | n + 1, x => drounds n (dround x)

/-- ROUNDS20: ten double rounds (40_block_generator.md R127). -/
def rounds20 (x : Words16) : Words16 := drounds 10 x

/-! ### INIT, FEEDFWD, SERIAL, BLOCK -/

/-- The cipher state inside one engine step: the original state S (10_state.md R39) and the working array X
(10_state.md R38). Neither is state between steps (10_state.md R45, R51). -/
structure CipherState where
  original : Words16
  working : Words16
deriving DecidableEq, Repr

/-- The original state: constants, key, counter, nonce (40_block_generator.md R128; 10_state.md R39). -/
def initState (k : KeyWords) (nw : NonceWords) (ctr : Word) : Words16 :=
  #v[0x61707865, 0x3320646e, 0x79622d32, 0x6b206574,
     k[0], k[1], k[2], k[3], k[4], k[5], k[6], k[7],
     ctr, nw[0], nw[1], nw[2]]

/-- INIT: S as above and X a copy of it (40_block_generator.md R128). -/
def init (k : KeyWords) (nw : NonceWords) (ctr : Word) : CipherState :=
  { original := initState k nw ctr, working := initState k nw ctr }

/-- ROUNDS20 on the working array; the rounds never write S (10_state.md R39). -/
def transform (c : CipherState) : CipherState := { c with working := rounds20 c.working }

/-- FEEDFWD (40_block_generator.md R129). -/
def feedForward (c : CipherState) : Words16 :=
  Vector.ofFn fun i : Fin 16 => add32 c.working[i] c.original[i]

/-- SERIAL: byte `m` is byte `m mod 4` of word `m div 4` (40_block_generator.md R130; 20_memory.md R80). -/
def serial (w : Words16) : Bytes64 :=
  Vector.ofFn fun m : Fin 64 => byteOfWord w[m.val / 4] (m.val % 4)

/-- BLOCK's result words W (40_block_generator.md R131). -/
def blockWords (k : KeyWords) (nw : NonceWords) (ctr : Word) : Words16 :=
  feedForward (transform (init k nw ctr))

/-- BLOCK's keystream bytes ks (40_block_generator.md R131). -/
def blockBytes (k : KeyWords) (nw : NonceWords) (ctr : Word) : Bytes64 := serial (blockWords k nw ctr)

/-! ### What an APPLY computes (41_stream_engine.md R150) -/

/-- The keystream byte output byte `m` is made with: byte `m mod 64` of the block of counter
ADD32(c0, m div 64). -/
def keystreamByte (k : KeyWords) (nw : NonceWords) (c0 : Word) (m : Nat) : Byte :=
  (blockBytes k nw (add32 c0 (BitVec.ofNat 32 (m / 64))))[m % 64]'(Nat.mod_lt m (by decide))

/-- APPLYFN (41_stream_engine.md R150). -/
def applyFn (k : KeyWords) (nw : NonceWords) (c0 : Word) (input : List Byte) : List Byte :=
  input.mapIdx fun m p => bxor p (keystreamByte k nw c0 m)

end Sys2Proof.Machine
end

