-- ==== Sys2Proof/Syntax.lean ====
section
/-! DEFINITION. What can be said to the block: the commands of the opcode table, the fields of a
command word (format C), the registers, the register transactions (format B), and the events by which
the agents around the block move. -/

namespace Sys2Proof

/-- The commands, the rows of the opcode table (30_encoding.md R104). They have no operand fields
(30_encoding.md R103): every operand is taken from the argument registers. -/
inductive Instr where
  /-- GEN, 42_commands.md R181. -/
  | gen
  /-- APPLY, 42_commands.md R183. -/
  | apply
  /-- ABORT, 42_commands.md R185. -/
  | abort
deriving DecidableEq, Repr

/-- The fields of a command word, format C (30_encoding.md R101): RSV [31:4] and OP [3:0]. -/
structure CmdFields where
  rsv : BitVec 28
  op : BitVec 4
deriving DecidableEq, Repr

/-- Why a command word is a reserved encoding (30_encoding.md R105, R106). -/
inductive ReservedWord where
  /-- RSV is not 0. -/
  | reservedBits
  /-- RSV is 0 and OP is none of 1, 2, 3. -/
  | reservedOpcode
  /-- The bytes are not one 32-bit word, the only length a command has (30_encoding.md R108). -/
  | notOneWord
deriving DecidableEq, Repr

/-- What a command word decodes to: a command, or a reserved encoding (30_encoding.md R105). -/
inductive Decoded where
  | instr (i : Instr)
  | reserved (why : ReservedWord)
deriving DecidableEq, Repr

/-- The host-visible registers (10_state.md R21). -/
inductive Reg where
  | id | cmd | status | irqEn
  | counter | nextCtr | srcAddr | dstAddr | srcLen | dstLen | doneBytes | errAddr
  | key (k : Fin 8)
  | nonce (k : Fin 3)
  | ks (k : Fin 16)
deriving DecidableEq, Repr

/-- DIR of a register transaction (30_encoding.md R102). -/
inductive Dir where
  | read | write
deriving DecidableEq, Repr

/-- One access of a host on the bus that reaches the register slave port: format B
(30_encoding.md R102), with the host-bus address in place of OFFSET, which is the address less BASE.
`wdata` means nothing in a read. -/
structure Access where
  dir : Dir
  addr : Word
  size : Nat
  wdata : Word
deriving DecidableEq, Repr

/-- The memory's answer to one DMA access (20_memory.md R84; 70_reset_and_hazards.md R252). -/
inductive MemAnswer where
  /-- the access is performed -/
  | ok
  /-- `BusError(addr)` -/
  | busError
  /-- the access never receives a response -/
  | noResponse
deriving DecidableEq, Repr

/-- One step of one agent (00_scope.md R14). Which comes next is plain data in the state (log entry 1). -/
inductive Event where
  /-- the host makes a register access -/
  | host (a : Access)
  /-- the host, or another agent, loads one byte of memory -/
  | memLoad (addr : Word)
  /-- the host, or another agent, stores one byte in memory -/
  | memStore (addr : Word) (v : Byte)
  /-- the host samples the `irq` line (60_exceptions.md R226) -/
  | sampleIrq
  /-- the engine takes its enabled step; `ans` is the memory's answer, where the step makes a DMA access -/
  | engine (ans : MemAnswer)
  /-- `rst` is asserted (70_reset_and_hazards.md R240); `inFlight`: a DMA write is in flight then (R241) -/
  | rst (inFlight : Bool)
deriving DecidableEq, Repr

end Sys2Proof
end

