-- ==== Sys2Proof/WellFormed.lean ====
section
/-! DEFINITION. Which terms of the syntax the spec admits: the fields of a command word, and a register
transaction. A command (`Instr`) has no field that could be ill formed (30_encoding.md R103). -/

namespace Sys2Proof

/-- The fields of a command word name a command: RSV is 0 and OP is 1, 2 or 3 (30_encoding.md R101, R104). -/
def CmdFields.wf (f : CmdFields) : Bool :=
  f.rsv == 0 && (f.op == 1 || f.op == 2 || f.op == 3)

/-- A register access has the size and the alignment the port answers: SIZE is 4 and OFFSET[1:0] is 0
(30_encoding.md R102). BASE is aligned to 0x100 (00_scope.md R9), so OFFSET[1:0] is the address's. -/
def Access.wf (a : Access) : Bool :=
  a.size == 4 && a.addr.extractLsb' 0 2 == 0

/-- A command is well formed: every one is. -/
def Instr.wf : Instr → Bool
  | .gen => true
  | .apply => true
  | .abort => true

end Sys2Proof
end

