-- ==== Sys2Proof/Decode.lean ====
section
/-! DEFINITION. Decoding and encoding: command words (30_encoding.md R101, R104, R105), their byte
lanes (20_memory.md R81), and the register offsets (10_state.md R21). -/

namespace Sys2Proof

/-! ### Command words -/

/-- OP = w[3:0] and RSV = w[31:4] (30_encoding.md R101). -/
def cmdFields (w : Word) : CmdFields :=
  { rsv := w.extractLsb' 4 28, op := w.extractLsb' 0 4 }

/-- The word with the given fields: RSV above OP (30_encoding.md R101). -/
def wordOfFields (f : CmdFields) : Word := (f.rsv.setWidth 32 <<< 4) ||| f.op.setWidth 32

/-- The opcode of a command (30_encoding.md R104). -/
def opcodeOf : Instr → BitVec 4
  | .gen => 0x1
  | .apply => 0x2
  | .abort => 0x3

/-- The opcode map, with RSV = 0 (30_encoding.md R104). -/
def commandOfOpcode (op : BitVec 4) : Option Instr :=
  if op = 0x1 then some .gen
  else if op = 0x2 then some .apply
  else if op = 0x3 then some .abort
  else none

/-- Decode a command word by exact match on all 32 bits; every word decodes to a command or is reserved
(30_encoding.md R105). -/
def decode (w : Word) : Decoded :=
  if (cmdFields w).rsv = 0 then
    match commandOfOpcode (cmdFields w).op with
    | some i => .instr i
    | none => .reserved .reservedOpcode
  else .reserved .reservedBits

/-- The word a host writes to CMD for a command (30_encoding.md R104). -/
def encode (i : Instr) : Word := wordOfFields { rsv := 0, op := opcodeOf i }

/-- The word on the port's byte lanes: lane b carries bits 8b+7..8b (20_memory.md R81). -/
def wordOfLanes (b0 b1 b2 b3 : Byte) : Word :=
  b0.setWidth 32 ||| (b1.setWidth 32 <<< 8) ||| (b2.setWidth 32 <<< 16) ||| (b3.setWidth 32 <<< 24)

/-- The byte lanes of a word, lane 0 first (20_memory.md R81). -/
def lanesOfWord (w : Word) : List Byte :=
  [w.extractLsb' 0 8, w.extractLsb' 8 8, w.extractLsb' 16 8, w.extractLsb' 24 8]

/-- Decode the bytes of a command write, lane 0 first. A command is one 32-bit word
(30_encoding.md R108); any other number of bytes is no command. -/
def decodeBytes : List Byte → Decoded
  | [b0, b1, b2, b3] => decode (wordOfLanes b0 b1 b2 b3)
  | _ => .reserved .notOneWord

/-- The bytes of a command, lane 0 first. -/
def encodeBytes (i : Instr) : List Byte := lanesOfWord (encode i)

/-- The instruction the decoder reads from an instruction of `nbits` bits whose bits are `w`, numbered as
spec/opcode_table.json numbers them. A command is always 32 bits (30_encoding.md R108). -/
def decodeTableWord (nbits w : Nat) : Option Instr :=
  if nbits ≤ 32 then
    match decodeBytes (lanesOfWord (BitVec.ofNat 32 (w % 2 ^ nbits))) with
    | .instr i => some i
    | .reserved _ => none
  else none

/-! ### Register offsets -/

/-- The offset of a register in the window (10_state.md R21). -/
def encodeOffset : Reg → BitVec 8
  | .id => 0x00
  | .cmd => 0x04
  | .status => 0x08
  | .irqEn => 0x0C
  | .counter => 0x10
  | .nextCtr => 0x14
  | .srcAddr => 0x18
  | .dstAddr => 0x1C
  | .srcLen => 0x20
  | .dstLen => 0x24
  | .doneBytes => 0x28
  | .errAddr => 0x2C
  | .key k => BitVec.ofNat 8 (0x40 + 4 * k.val)
  | .nonce k => BitVec.ofNat 8 (0x60 + 4 * k.val)
  | .ks k => BitVec.ofNat 8 (0x80 + 4 * k.val)

/-- The register at word index `n` (OFFSET[7:2], 30_encoding.md R102), by the map of 10_state.md R21; none at
a reserved offset (10_state.md R37). -/
def registerAtIndex (n : Nat) : Option Reg :=
  if n < 12 then
    some (match n with
      | 0 => .id
      | 1 => .cmd
      | 2 => .status
      | 3 => .irqEn
      | 4 => .counter
      | 5 => .nextCtr
      | 6 => .srcAddr
      | 7 => .dstAddr
      | 8 => .srcLen
      | 9 => .dstLen
      | 10 => .doneBytes
      | _ => .errAddr)
  else if n < 16 then none
  else if n < 24 then some (.key (Fin.ofNat 8 (n - 16)))
  else if n < 27 then some (.nonce (Fin.ofNat 3 (n - 24)))
  else if n < 32 then none
  else if n < 48 then some (.ks (Fin.ofNat 16 (n - 32)))
  else none

/-- The register an offset selects: OFFSET[1:0] must be 0 and OFFSET[7:2] selects the register
(30_encoding.md R102). None at a misaligned or reserved offset (20_memory.md R74, R75). -/
def decodeOffset (o : BitVec 8) : Option Reg :=
  if o.extractLsb' 0 2 = 0 then registerAtIndex (o.extractLsb' 2 6).toNat else none

/-- OFFSET of a host-bus address, BASE being aligned to 0x100 (00_scope.md R9, 30_encoding.md R102). -/
def offsetOf (addr : Word) : BitVec 8 := addr.extractLsb' 0 8

/-- The register an access in the window reaches, or none: SIZE must be 4 and the offset aligned and mapped
(20_memory.md R73 to R75, 30_encoding.md R102). -/
def decodeAccess (a : Access) : Option Reg :=
  if a.wf then decodeOffset (offsetOf a.addr) else none

end Sys2Proof
end

