-- ==== Sys2Proof/Config.lean ====
section
/-! DEFINITION. What is fixed for one machine but left open by the spec: the platform around the block
(00_scope.md R9), and the free values. -/

namespace Sys2Proof

/-- A run of DMA addresses. -/
structure Region where
  start : Nat
  size : Nat
deriving DecidableEq, Repr

/-- The platform's parameters a rule depends on. `base` is BASE[31:8]: BASE is aligned to 0x100
(00_scope.md R9). `devices` are the regions that are no normal, idempotent memory (20_memory.md R87). No step
changes them, so a statement about every state holds for every platform (log entry 4). -/
structure Platform where
  base : BitVec 24
  devices : List Region
deriving DecidableEq, Repr

/-- The free bytes: the content of a byte the block does not specify, by the number of the draw
(93_implementation_defined.md I3, I4, I5; log entries 8, 9, 10). It has no body: nothing can be proved of a
value of it. -/
opaque Config.freeByte : Nat → Byte

end Sys2Proof
end

