-- ==== Sys2Proof/Machine/State.lean ====
section
/-! DEFINITION. The state of the machine, 10_state.md R20: the tuple (regs, status, irq_en, eng, mem), and
beside it `env`, the model's own record of the agents around the block. Plain data. -/

namespace Sys2Proof.Machine

/-- The result codes of 60_exceptions.md R211. Codes 7 to 15 are never produced, so they are no value. -/
inductive Result where
  | ok | badcmd | invalidArg | range | overlap | bus | aborted
deriving DecidableEq, Repr

/-- `eng.phase` (10_state.md R42). -/
inductive Phase where
  | idle | gen | blk | rd | wr
deriving DecidableEq, Repr

/-- The host-visible argument and result registers (10_state.md R21, R26 to R36). ID and CMD hold no
state (R22, R23). -/
structure Regs where
  counter : Word
  nextCtr : Word
  srcAddr : Word
  dstAddr : Word
  srcLen : Word
  dstLen : Word
  doneBytes : Word
  errAddr : Word
  key : KeyWords
  nonce : NonceWords
  ks : Words16
deriving DecidableEq, Repr

/-- The stored STATUS fields (10_state.md R24). BUSY is `eng.phase != IDLE` (R42) and ABORT_PEND is
`eng.abort_pend` (R46): each is stored once, there. -/
structure Status where
  done : Bool
  err : Bool
  ovr : Bool
  result : Result
deriving DecidableEq, Repr

/-- The engine (10_state.md R42 to R46). `awaiting` is the model's own: a DMA access was made that the memory
never answers (70_reset_and_hazards.md R252). -/
structure Eng where
  phase : Phase
  j : Word
  i : Fin 64
  n : Fin 65
  runCtr : Word
  ctr0 : Word
  src : Word
  dst : Word
  len : Word
  abortPend : Bool
  key : KeyWords
  nonce : NonceWords
  ks : Bytes64
  buf : Bytes64
  awaiting : Bool
deriving DecidableEq, Repr

/-- The DMA memory (20_memory.md R71): the bytes that are not as an unlisted one, by rising address. -/
abbrev Mem := List Host.Cell

/-- What the host's last access was answered with (30_encoding.md R102: RDATA, RESP). -/
inductive Reply where
  | none
  /-- a write, RESP = OKAY -/
  | okay
  /-- a read, RESP = OKAY, with RDATA -/
  | data (rdata : Word)
  /-- RESP = bus error -/
  | busError
  /-- the address is outside the block's window: the block gives no response -/
  | notSelected
  /-- a load of memory -/
  | byte (b : Byte)
  /-- a sample of the `irq` line -/
  | level (b : Bool)
deriving DecidableEq, Repr

/-- The buffers of one APPLY (20_memory.md R94). -/
structure Buffers where
  src : Nat
  dst : Nat
  len : Nat
deriving DecidableEq, Repr

/-- The agents around the block, as plain data: the model's own. -/
structure Env where
  /-- the platform's parameters; no step changes them -/
  plat : Platform
  /-- which agent moves next, and with what -/
  script : List Event
  /-- the memory's answer once the script is at its end -/
  standing : MemAnswer
  /-- what the host's last access was answered with -/
  reply : Reply
  /-- the buffers of APPLYs whose completion the host has not observed (70_reset_and_hazards.md R246) -/
  owned : List Buffers
  /-- the ranges that accesses have raced on in that time, none twice (93_implementation_defined.md I3) -/
  raced : List Region
  /-- the number of free values drawn, or passed over: the next draw is of this number -/
  freeCtr : Nat
deriving DecidableEq, Repr

/-- The machine's state (10_state.md R20), with the model's own `env`. -/
structure State where
  regs : Regs
  status : Status
  doneIe : Bool
  eng : Eng
  mem : Mem
  env : Env
deriving DecidableEq, Repr

/-- Why the machine stops. Each is raised only in states that no run from reset reaches. -/
inductive Fault where
  /-- Raised by the RD and WR steps: the DMA address is past 0xFFFFFFFF. 60_exceptions.md R214 says no step forms one;
  safe: the machine stops instead of picking an address. -/
  | dmaAddressOutsideSpace (addr : Nat)
  /-- Raised by the RD and WR steps: the byte index would pass 63 before it reaches `eng.n`, outside the range
  10_state.md R42 gives it. Safe: the machine stops instead of picking an index. -/
  | byteIndexOutsideBlock
deriving DecidableEq, Repr

/-- Why the machine refuses. -/
inductive Refusal where
  /-- Raised by `exec` for an instruction that has no meaning in the model: none in this model. Safe. -/
  | notModelled (mnemonic : String)
  /-- Raised by APPLY: a range covers a device register, other memory with side effects, or the block's own window:
  "a model refuses it" (20_memory.md R87, 93_implementation_defined.md I6). Safe. -/
  | applyNotNormalMemory
  /-- Raised by a load or store of the host, or of another agent, at an address that is no normal memory: what the device
  there does is not this block's, and the spec does not say it. Safe. -/
  | hostNotNormalMemory (addr : Nat)
deriving DecidableEq, Repr

/-- Every field of the engine at 0 and the phase at IDLE (10_state.md R47, R51). -/
def Eng.zero : Eng where
  phase := .idle
  j := 0
  i := 0
  n := 0
  runCtr := 0
  ctr0 := 0
  src := 0
  dst := 0
  len := 0
  abortPend := false
  key := Vector.replicate 8 0
  nonce := Vector.replicate 3 0
  ks := Vector.replicate 64 0
  buf := Vector.replicate 64 0
  awaiting := false

/-- Every register at its reset value (10_state.md R51). -/
def Regs.reset : Regs where
  counter := 0
  nextCtr := 0
  srcAddr := 0
  dstAddr := 0
  srcLen := 0
  dstLen := 0
  doneBytes := 0
  errAddr := 0
  key := Vector.replicate 8 0
  nonce := Vector.replicate 3 0
  ks := Vector.replicate 16 0

/-- STATUS at its reset value (10_state.md R51). -/
def Status.reset : Status where
  done := false
  err := false
  ovr := false
  result := .ok

/-- The agents around the block before any has moved: the model's own values (log entries 1, 2, 4, 10, 17, 18). -/
def Env.reset : Env where
  plat := { base := 0x400000, devices := [] }
  script := []
  standing := .ok
  reply := .none
  owned := []
  raced := []
  freeCtr := 0

/-- The machine right after reset (10_state.md R51; 70_reset_and_hazards.md R242). No memory is listed. -/
def State.reset : State where
  regs := Regs.reset
  status := Status.reset
  doneIe := false
  eng := Eng.zero
  mem := []
  env := Env.reset

end Sys2Proof.Machine
end

