-- ==== Sys2Proof/Machine/Flags.lean ====
section
/-! DEFINITION. Every flag: the STATUS fields with their writers (10_state.md R24, R49), the STATUS word,
and the `irq` output. The datapath has no flags (10_state.md R41). -/

namespace Sys2Proof.Machine

/-- The code of a result (60_exceptions.md R211). -/
def Result.code : Result → BitVec 4
  | .ok => 0
  | .badcmd => 1
  | .invalidArg => 2
  | .range => 3
  | .overlap => 4
  | .bus => 5
  | .aborted => 6

/-- STATUS.BUSY: 1 exactly when `eng.phase != IDLE` (10_state.md R24, R42). -/
def State.busy (s : State) : Bool := s.eng.phase != .idle

/-- STATUS.ABORT_PEND is `eng.abort_pend` (10_state.md R46). -/
def State.abortPending (s : State) : Bool := s.eng.abortPend

/-- The `irq` output: STATUS.DONE AND IRQ_EN.DONE_IE (60_exceptions.md R226). -/
def State.irq (s : State) : Bool := s.status.done && s.doneIe

/-- A flag as a word: bit 0. -/
def flagWord (b : Bool) : Word := if b then 1 else 0

/-- The STATUS word a read returns (42_commands.md R192; 10_state.md R24): bits 31:9 read as 0. -/
def State.statusWord (s : State) : Word :=
  flagWord s.busy ||| (flagWord s.status.done <<< 1) ||| (flagWord s.status.err <<< 2) |||
    (flagWord s.status.ovr <<< 3) ||| (s.status.result.code.setWidth 32 <<< 4) |||
    (flagWord s.abortPending <<< 8)

/-- The flags a completion writes: RESULT, ERR and DONE; OVR is not touched (41_stream_engine.md R161). -/
def Status.completed (res : Result) (st : Status) : Status :=
  { st with result := res, err := res != .ok, done := true }

/-- The flags a command start writes: DONE, ERR and RESULT to 0; OVR is not changed (42_commands.md R191). -/
def Status.started (st : Status) : Status :=
  { st with done := false, err := false, result := .ok }

/-- A dropped write sets OVR (42_commands.md R180, R188). -/
def Status.dropped (st : Status) : Status := { st with ovr := true }

/-- A STATUS write of `w`: 1 in bit 1 clears DONE, 1 in bit 3 clears OVR, no other bit has an effect
(10_state.md R24; 42_commands.md R187). -/
def Status.written (w : Word) (st : Status) : Status :=
  { st with done := st.done && !w.getLsbD 1, ovr := st.ovr && !w.getLsbD 3 }

end Sys2Proof.Machine
end

