-- ==== Sys2Proof/Machine/Ops.lean ====
section
/-! DEFINITION. The shared operations: memory, the free bytes, buffer ownership, the start of a command
(42_commands.md R191), the completion procedure (41_stream_engine.md R161; "the block's only form of trap
entry", 60_exceptions.md R223) and its acknowledge (60_exceptions.md R224). -/

namespace Sys2Proof.Machine

/-! ### Memory (20_memory.md R71) -/

/-- What a byte of memory that nothing has written reads as (log entry 3). -/
def unlistedByte : Byte := 0

/-- Read the byte at an address. -/
def memRead : Mem → Nat → Byte
  | [], _ => unlistedByte
  | (k, v) :: rest, a => if a < k then unlistedByte else if a = k then v else memRead rest a

/-- List `v` at `a` before `rest`, unless an unlisted byte reads so. -/
def memCons (a : Nat) (v : Byte) (rest : Mem) : Mem :=
  if v = unlistedByte then rest else (a, v) :: rest

/-- Write a byte at an address, keeping the canonical form. -/
def memWrite : Mem → Nat → Byte → Mem
  | [], a, v => memCons a v []
  | (k, b) :: rest, a, v =>
    if a < k then memCons a v ((k, b) :: rest)
    else if a = k then memCons a v rest
    else (k, b) :: memWrite rest a v

/-- The canonical form: addresses strictly rising, each in the DMA space (20_memory.md R71), and no byte listed as an
unlisted one reads. -/
abbrev Mem.wf (m : Mem) : Prop :=
  m.Pairwise (fun c d => c.1 < d.1) ∧ ∀ c ∈ m, c.1 < 2 ^ 32 ∧ c.2 ≠ unlistedByte

/-! ### The platform: normal memory (20_memory.md R87) -/

/-- BASE: aligned to 0x100 (00_scope.md R9). -/
def windowBase (p : Platform) : Word := p.base.setWidth 32 <<< 8

/-- The host-bus address of a register, BASE + offset (20_memory.md R70). -/
def regAddress (p : Platform) (r : Reg) : Word := windowBase p ||| (encodeOffset r).setWidth 32

/-- An access reaches the block when its address lies in the window of 0x100 bytes at BASE (20_memory.md R70). -/
def inWindow (p : Platform) (addr : Word) : Bool := addr.extractLsb' 8 24 == p.base

/-- The `len` addresses from `a` on meet the region. -/
def regionMeets (r : Region) (a len : Nat) : Bool :=
  decide (0 < r.size) && decide (r.start < a + len) && decide (a < r.start + r.size)

/-- The regions that are no normal memory: the devices, and the block's own register window
(93_implementation_defined.md I6; log entry 5). -/
def nonNormal (p : Platform) : List Region :=
  { start := (windowBase p).toNat, size := 0x100 } :: p.devices

/-- All of the `len` addresses from `a` on are normal, idempotent memory (20_memory.md R87). -/
def normalRange (p : Platform) (a len : Nat) : Bool :=
  (nonNormal p).all fun r => !regionMeets r a len

/-! ### Free bytes -/

/-- The free byte that is drawn next. -/
def freshByte (s : State) : Byte := Config.freeByte s.env.freeCtr

/-- The state after a free byte has been drawn. -/
def drawn (s : State) : State := { s with env := { s.env with freeCtr := s.env.freeCtr + 1 } }

/-- Store a byte in memory. -/
def storeByte (a : Nat) (v : Byte) (s : State) : State := { s with mem := memWrite s.mem a v }

/-- Leave any value in a byte of memory: a free byte (93_implementation_defined.md I3, I4, I5). -/
def storeFree (a : Nat) (s : State) : State := drawn (storeByte a (freshByte s) s)

/-! ### Buffer ownership and races (20_memory.md R94, R96; 70_reset_and_hazards.md R246) -/

/-- The address lies in the region. -/
def inRegion (r : Region) (a : Nat) : Bool := decide (r.start ≤ a) && decide (a < r.start + r.size)

/-- The input range. -/
def Buffers.input (b : Buffers) : Region := { start := b.src, size := b.len }

/-- The output range. -/
def Buffers.output (b : Buffers) : Region := { start := b.dst, size := b.len }

/-- The address lies in the input range. -/
def Buffers.inInput (b : Buffers) (a : Nat) : Bool := inRegion b.input a

/-- The address lies in the output range. -/
def Buffers.inOutput (b : Buffers) (a : Nat) : Bool := inRegion b.output a

/-- A load by another agent races: it reads a byte of an output range (in place, that is the input range too). -/
def racesLoad (s : State) (a : Nat) : Bool := s.env.owned.any fun b => b.inOutput a

/-- A store by another agent races: it writes a byte of an input or an output range. -/
def racesStore (s : State) (a : Nat) : Bool := s.env.owned.any fun b => b.inInput a || b.inOutput a

/-- The ranges of an APPLY that a load involves in a race: the output range, where it reads a byte of that
(93_implementation_defined.md I3; log entry 10). -/
def Buffers.loadInvolves (b : Buffers) (a : Nat) : List Region := if b.inOutput a then [b.output] else []

/-- The ranges of an APPLY that a store involves in a race: the output range, where it writes a byte of that; both, where it
writes a byte of the input range, which the output is made from (93_implementation_defined.md I3; log entry 10). -/
def Buffers.storeInvolves (b : Buffers) (a : Nat) : List Region :=
  if b.inInput a then [b.input, b.output] else if b.inOutput a then [b.output] else []

/-- Every range that a load at the address involves in a race. -/
def loadRegions (s : State) (a : Nat) : List Region := s.env.owned.flatMap fun b => b.loadInvolves a

/-- Every range that a store at the address involves in a race. -/
def storeRegions (s : State) (a : Nat) : List Region := s.env.owned.flatMap fun b => b.storeInvolves a

/-- Another agent has raced on a range that holds this address. -/
def isRaced (s : State) (a : Nat) : Bool := s.env.raced.any fun r => inRegion r a

/-- Leave any value in each of the `n` bytes from `a` on: the byte at address `x` is free byte `base + x`. -/
def memFree (base a : Nat) : Nat → Mem → Mem
  | 0, m => m
  | n + 1, m => memWrite (memFree base a n m) (a + n) (Config.freeByte (base + (a + n)))

/-- Leave any value in every byte of the regions. -/
def memFreeAll (base : Nat) : List Region → Mem → Mem
  | [], m => m
  | r :: rs, m => memFree base r.start r.size (memFreeAll base rs m)

/-- A race on these ranges: every byte of them is any value now, and so is what the engine still reads or writes there
(70_reset_and_hazards.md R246; 93_implementation_defined.md I3). A draw for each address of the DMA space is passed over. -/
def raceOn (rs : List Region) (s : State) : State :=
  { s with mem := memFreeAll s.env.freeCtr rs s.mem,
           env := { s.env with raced := rs.foldr List.insert s.env.raced, freeCtr := s.env.freeCtr + 2 ^ 32 } }

/-- The host has observed that the last command has completed: its accesses race no more
(70_reset_and_hazards.md R246, R250; 20_memory.md R93). -/
def observed (s : State) : State := { s with env := { s.env with owned := [], raced := [] } }

/-- What the host's access is answered with. -/
def withReply (r : Reply) (s : State) : State := { s with env := { s.env with reply := r } }

/-! ### Starting a command (42_commands.md R191) -/

/-- Latch the shadows (10_state.md R44): key, nonce, counter, addresses and length as they are at the CMD write. -/
def latch (r : Regs) (e : Eng) : Eng :=
  { e with key := r.key, nonce := r.nonce, ctr0 := r.counter, src := r.srcAddr, dst := r.dstAddr,
           len := r.srcLen, abortPend := false }

/-- `start()`: DONE, ERR, RESULT and ABORT_PEND to 0, and the shadows latched; the caller then sets the phase
(42_commands.md R191). -/
def start (s : State) : State :=
  { s with status := s.status.started, eng := latch s.regs s.eng }

/-- A write that is dropped because BUSY = 1: OVR is set, nothing else changes (42_commands.md R180, R188). -/
def dropWrite (s : State) : State := { s with status := s.status.dropped }

/-! ### Completion (41_stream_engine.md R161) -/

/-- `complete_status(res)`: RESULT, ERR, DONE, and every field of the engine to 0 with the phase IDLE, so that
BUSY = 0 and ABORT_PEND = 0. BADCMD uses it alone. -/
def completeStatus (res : Result) (s : State) : State :=
  { s with status := s.status.completed res, eng := Eng.zero }

/-- `complete(res, nc, db, ea)`: NEXT_CTR, DONE_BYTES and ERR_ADDR as well, all in the one step. -/
def complete (res : Result) (nc db ea : Word) (s : State) : State :=
  completeStatus res
    { s with regs := { s.regs with nextCtr := nc, doneBytes := db, errAddr := ea } }

/-- The acknowledge of a completion, the block's return: a STATUS write (60_exceptions.md R224; 42_commands.md R187). -/
def acknowledge (w : Word) (s : State) : State := { s with status := s.status.written w }

end Sys2Proof.Machine
end

