-- ==== Sys2Proof/Machine/Operands.lean ====
section
/-! DEFINITION. The operands of the commands, all implicit (30_encoding.md R103): APPLY's arguments and
the checks of them at issue, and the lengths, addresses and counts an engine step forms from the shadows. -/

namespace Sys2Proof.Machine

/-- The completion an APPLY has at issue, or none when it is accepted: INVALID_ARG, then zero length, then RANGE, then
OVERLAP, on mathematical integers (42_commands.md R183; 60_exceptions.md R213 to R215, R221). -/
def issueResult (r : Regs) : Option Result :=
  if r.srcLen ≠ r.dstLen then some .invalidArg
  else if r.srcLen = 0 then some .ok
  else if 2 ^ 32 < r.srcAddr.toNat + r.srcLen.toNat ∨ 2 ^ 32 < r.dstAddr.toNat + r.srcLen.toNat then
    some .range
  else if r.srcAddr ≠ r.dstAddr ∧ r.srcAddr.toNat < r.dstAddr.toNat + r.srcLen.toNat ∧
      r.dstAddr.toNat < r.srcAddr.toNat + r.srcLen.toNat then
    some .overlap
  else none

/-- The buffers an APPLY names (20_memory.md R85, R94). -/
def applyBuffers (r : Regs) : Buffers :=
  { src := r.srcAddr.toNat, dst := r.dstAddr.toNat, len := r.srcLen.toNat }

/-- Both ranges of an APPLY are normal memory (20_memory.md R87). -/
def applyNormal (p : Platform) (r : Regs) : Bool :=
  normalRange p r.srcAddr.toNat r.srcLen.toNat && normalRange p r.dstAddr.toNat r.srcLen.toNat

/-- The number of blocks an APPLY of `len` bytes uses: ceil(L / 64) (41_stream_engine.md R151). -/
def blockCount (len : Nat) : Nat := (len + 63) / 64

/-- `n_j = min(64, L - 64j)` (41_stream_engine.md R152, R157). -/
def blockLength (e : Eng) : Fin 65 :=
  ⟨min 64 (e.len.toNat - 64 * e.j.toNat), by omega⟩

/-- The index in the buffers of the byte the engine is at: `64 * eng.j + eng.i`. -/
def byteIndex (e : Eng) : Nat := 64 * e.j.toNat + e.i.val

/-- The address an RD step reads: `eng.src + 64 * eng.j + eng.i` (41_stream_engine.md R158). -/
def rdAddress (e : Eng) : Nat := e.src.toNat + byteIndex e

/-- The address a WR step writes: `eng.dst + 64 * eng.j + eng.i` (41_stream_engine.md R159). -/
def wrAddress (e : Eng) : Nat := e.dst.toNat + byteIndex e

/-- `64 * eng.j`: the output bytes of the blocks before the current one. -/
def blockBase (e : Eng) : Word := BitVec.ofNat 32 (64 * e.j.toNat)

/-- The byte a WR step writes: BXOR(eng.buf[eng.i], eng.ks[eng.i]) (41_stream_engine.md R159). -/
def wrByte (e : Eng) : Byte := bxor e.buf[e.i] e.ks[e.i]

/-- The current block is the last: `64 * (eng.j + 1) >= eng.len`, without wrap (41_stream_engine.md R159). -/
def isLastBlock (e : Eng) : Bool := decide (e.len.toNat ≤ 64 * (e.j.toNat + 1))

/-- The current byte is the last of its block: `eng.i + 1 = eng.n`. -/
def isLastByte (e : Eng) : Bool := e.i.val + 1 == e.n.val

end Sys2Proof.Machine
end

