-- ==== Sys2Proof/Machine/Engine.lean ====
section
/-! DEFINITION. The engine steps: GEN (42_commands.md R182), BLK, RD and WR (41_stream_engine.md R157 to R159).
Each reads only the shadows (10_state.md R44). -/

namespace Sys2Proof.Machine

/-- GEN step: KS0 to KS15 get the block's words and the command completes with OK, NEXT_CTR = ADD32(ctr0, 1)
(42_commands.md R182). An abort request does not stop it (60_exceptions.md R217). -/
def genStep (s : State) : Host.Outcome State Fault Refusal :=
  .next (complete .ok (add32 s.eng.ctr0 1) 0 0
    { s with regs := { s.regs with ks := blockWords s.eng.key s.eng.nonce s.eng.ctr0 } })

/-- BLK step: the abort test, then the block's keystream, the counter's increment and the block's length
(41_stream_engine.md R157). -/
def blkStep (s : State) : Host.Outcome State Fault Refusal :=
  if s.eng.abortPend then .next (complete .aborted s.eng.runCtr (blockBase s.eng) 0 s)
  else .next { s with eng := { s.eng with
    ks := blockBytes s.eng.key s.eng.nonce s.eng.runCtr,
    runCtr := add32 s.eng.runCtr 1,
    n := blockLength s.eng,
    i := 0,
    phase := .rd } }

/-- The memory never answers: the engine waits in the step it is in (70_reset_and_hazards.md R252). -/
def engineWaits (s : State) : State := { s with eng := { s.eng with awaiting := true } }

/-- `MemRead(a, 1)` that returns: the memory's byte, or any value where another agent has raced on a range that holds it
(20_memory.md R84, R96; 70_reset_and_hazards.md R246). -/
def dmaRead (a : Nat) (s : State) : Byte × State :=
  if isRaced s a then (freshByte s, drawn s) else (memRead s.mem a, s)

/-- `MemWrite(a, 1, v)` that returns: the byte is in memory, or any value where another agent has raced on a range that
holds it (20_memory.md R84, R96; 70_reset_and_hazards.md R246). -/
def dmaWrite (a : Nat) (v : Byte) (s : State) : State :=
  if isRaced s a then storeFree a s else storeByte a v s

/-- After the read of byte `eng.i`: the byte is in the buffer; the next byte follows, or the phase WR
(41_stream_engine.md R158). -/
def afterRead (b : Byte) (s : State) : Host.Outcome State Fault Refusal :=
  let e := { s.eng with buf := s.eng.buf.set s.eng.i b }
  if isLastByte e then .next { s with eng := { e with i := 0, phase := .wr } }
  else if h : e.i.val + 1 < 64 then .next { s with eng := { e with i := ⟨e.i.val + 1, h⟩ } }
  else .fault .byteIndexOutsideBlock

/-- RD step: read input byte `eng.i` of block `eng.j` (41_stream_engine.md R158). -/
def rdStep (ans : MemAnswer) (s : State) : Host.Outcome State Fault Refusal :=
  let a := rdAddress s.eng
  if 2 ^ 32 ≤ a then .fault (.dmaAddressOutsideSpace a)
  else
    match ans with
    | .ok => afterRead (dmaRead a s).1 (dmaRead a s).2
    | .busError => .next (complete .bus s.eng.runCtr (blockBase s.eng) (BitVec.ofNat 32 a) s)
    | .noResponse => .next (engineWaits s)

/-- After the write of byte `eng.i`: the APPLY completes with the last byte of the last block; else the next
byte follows, or the next block (41_stream_engine.md R159). -/
def afterWrite (s : State) : Host.Outcome State Fault Refusal :=
  if isLastByte s.eng then
    if isLastBlock s.eng then .next (complete .ok s.eng.runCtr s.eng.len 0 s)
    else .next { s with eng := { s.eng with j := s.eng.j + 1, i := 0, phase := .blk } }
  else if h : s.eng.i.val + 1 < 64 then .next { s with eng := { s.eng with i := ⟨s.eng.i.val + 1, h⟩ } }
  else .fault .byteIndexOutsideBlock

/-- WR step: write output byte `eng.i` of block `eng.j` (41_stream_engine.md R159). A write that gets an error response
leaves any value in its byte (60_exceptions.md R216). -/
def wrStep (ans : MemAnswer) (s : State) : Host.Outcome State Fault Refusal :=
  let a := wrAddress s.eng
  if 2 ^ 32 ≤ a then .fault (.dmaAddressOutsideSpace a)
  else
    match ans with
    | .ok => afterWrite (dmaWrite a (wrByte s.eng) s)
    | .busError =>
      .next (complete .bus s.eng.runCtr (BitVec.ofNat 32 (byteIndex s.eng)) (BitVec.ofNat 32 a)
        (storeFree a s))
    | .noResponse => .next (engineWaits s)

/-- The engine's enabled step, by its phase; none is enabled while it is idle, or waits for a response that never
comes (41_stream_engine.md R170; 70_reset_and_hazards.md R252). -/
def engineStep (ans : MemAnswer) (s : State) : Host.Outcome State Fault Refusal :=
  if s.eng.awaiting then .next s
  else
    match s.eng.phase with
    | .idle => .next s
    | .gen => genStep s
    | .blk => blkStep s
    | .rd => rdStep ans s
    | .wr => wrStep ans s

end Sys2Proof.Machine
end

