-- ==== Sys2Proof/Machine/Commands.lean ====
section
/-! DEFINITION. The commands: what a host write of a command word to CMD does, in the write's own step
(42_commands.md R180 to R186). -/

namespace Sys2Proof.Machine

/-- Enter a phase; leaving IDLE is what sets BUSY (42_commands.md R191). -/
def enterPhase (p : Phase) (s : State) : State := { s with eng := { s.eng with phase := p } }

/-- GEN: while busy dropped with OVR (42_commands.md R180); else the common start, then the phase GEN
(42_commands.md R181). -/
def execGen (s : State) : Host.Outcome State Fault Refusal :=
  if s.busy then .next (dropWrite s) else .next (enterPhase .gen (start s))

/-- An accepted APPLY: the common start, `eng.run_ctr <- COUNTER`, `eng.j <- 0`, the phase BLK
(42_commands.md R183). The buffers are the engine's from here on (20_memory.md R94). -/
def acceptApply (s : State) : State :=
  let t := start s
  { t with eng := { t.eng with runCtr := s.regs.counter, j := 0, phase := .blk },
           env := { t.env with owned := applyBuffers s.regs :: t.env.owned } }

/-- APPLY: while busy dropped with OVR (42_commands.md R180); else the checks at issue, which complete it in
this step with NEXT_CTR = COUNTER, DONE_BYTES = 0 and ERR_ADDR = 0, or accept it (42_commands.md R183). An
accepted APPLY on what is no normal memory is refused (20_memory.md R87; log entry 6). -/
def execApply (s : State) : Host.Outcome State Fault Refusal :=
  if s.busy then .next (dropWrite s)
  else
    match issueResult s.regs with
    | some res => .next (complete res s.regs.counter 0 0 s)
    | none =>
      if applyNormal s.env.plat s.regs then .next (acceptApply s) else .refused .applyNotNormalMemory

/-- ABORT: while busy it sets the abort request; while idle it does nothing (42_commands.md R185). -/
def execAbort (s : State) : Host.Outcome State Fault Refusal :=
  if s.busy then .next { s with eng := { s.eng with abortPend := true } } else .next s

/-- A reserved command word: BADCMD while idle (42_commands.md R186), dropped with OVR while busy (R180). -/
def reservedCommand (s : State) : State :=
  if s.busy then dropWrite s else completeStatus .badcmd s

end Sys2Proof.Machine
end

