-- ==== Sys2Proof/Machine/Dispatch.lean ====
section
/-! DEFINITION. What a command written to CMD does: one arm for each row of the opcode table
(30_encoding.md R104; 42_commands.md R180). -/

namespace Sys2Proof.Machine

/-- The meaning of a command written to CMD. -/
def exec (i : Instr) (s : State) : Host.Outcome State Fault Refusal :=
  match i with
  | .gen => Sys2Proof.Machine.execGen s
  | .apply => Sys2Proof.Machine.execApply s
  | .abort => Sys2Proof.Machine.execAbort s

end Sys2Proof.Machine
end

