-- ==== Sys2Proof/Machine/HostPort.lean ====
section
/-! DEFINITION. The host's accesses: the register transactions (42_commands.md R180, R187 to R193), loads and
stores of memory (20_memory.md R96), and samples of `irq`. -/

namespace Sys2Proof.Machine

/-- ID's constant (10_state.md R22). -/
def idWord : Word := 0x41525820

/-- What a read of a register returns: CMD and KEY0 to KEY7 read as 0 (42_commands.md R192). -/
def readReg (r : Reg) (s : State) : Word :=
  match r with
  | .id => idWord
  | .cmd => 0
  | .status => s.statusWord
  | .irqEn => flagWord s.doneIe
  | .counter => s.regs.counter
  | .nextCtr => s.regs.nextCtr
  | .srcAddr => s.regs.srcAddr
  | .dstAddr => s.regs.dstAddr
  | .srcLen => s.regs.srcLen
  | .dstLen => s.regs.dstLen
  | .doneBytes => s.regs.doneBytes
  | .errAddr => s.regs.errAddr
  | .key _ => 0
  | .nonce k => s.regs.nonce[k]
  | .ks k => s.regs.ks[k]

/-- A read of STATUS that shows BUSY = 0 or DONE = 1 is the host's observation of completion
(70_reset_and_hazards.md R246, R250). -/
def showsCompletion (r : Reg) (s : State) : Bool :=
  r == .status && (!s.busy || s.status.done)

/-- A register read: the value, with no side effect on the block (42_commands.md R192). -/
def hostRead (r : Reg) (s : State) : State :=
  withReply (.data (readReg r s)) (if showsCompletion r s then observed s else s)

/-- A host write of a word to CMD (42_commands.md R180). -/
def writeCmd (w : Word) (s : State) : Host.Outcome State Fault Refusal :=
  match decode w with
  | .instr i => exec i s
  | .reserved _ => .next (reservedCommand s)

/-- A write to a busy-locked register: dropped with OVR while BUSY = 1, else the register is set to the word
(42_commands.md R188, R189). -/
def writeLocked (regs' : Regs) (s : State) : State :=
  if s.busy then dropWrite s else { s with regs := regs' }

/-- A write of a word to a register: commands, RW1C flags, the interrupt enable, the busy-locked argument registers,
and the read-only registers, where it is ignored (42_commands.md R180, R187 to R190, R193; 20_memory.md R76). -/
def writeReg (r : Reg) (w : Word) (s : State) : Host.Outcome State Fault Refusal :=
  match r with
  | .cmd => writeCmd w s
  | .status => .next (acknowledge w s)
  | .irqEn => .next { s with doneIe := w.getLsbD 0 }
  | .counter => .next (writeLocked { s.regs with counter := w } s)
  | .srcAddr => .next (writeLocked { s.regs with srcAddr := w } s)
  | .dstAddr => .next (writeLocked { s.regs with dstAddr := w } s)
  | .srcLen => .next (writeLocked { s.regs with srcLen := w } s)
  | .dstLen => .next (writeLocked { s.regs with dstLen := w } s)
  | .key k => .next (writeLocked { s.regs with key := s.regs.key.set k w } s)
  | .nonce k => .next (writeLocked { s.regs with nonce := s.regs.nonce.set k w } s)
  | .id => .next s
  | .nextCtr => .next s
  | .doneBytes => .next s
  | .errAddr => .next s
  | .ks _ => .next s

/-- One host access (30_encoding.md R102). Outside the window it does not reach the block (20_memory.md R70; log entry 19);
a narrow, misaligned or unmapped one is answered with a bus error and has no effect (20_memory.md R74, R75). -/
def hostAccess (a : Access) (s : State) : Host.Outcome State Fault Refusal :=
  if inWindow s.env.plat a.addr then
    match decodeAccess a with
    | none => .next (withReply .busError s)
    | some r =>
      match a.dir with
      | .read => .next (hostRead r s)
      | .write => writeReg r a.wdata (withReply .okay s)
  else .next (withReply .notSelected s)

/-- A load of one byte by the host or another agent: any value where it races with an APPLY, whose output range is then any
value too (70_reset_and_hazards.md R246; 93_implementation_defined.md I3). -/
def hostLoad (addr : Word) (s : State) : Host.Outcome State Fault Refusal :=
  if normalRange s.env.plat addr.toNat 1 then
    if racesLoad s addr.toNat then
      .next (withReply (.byte (freshByte s)) (raceOn (loadRegions s addr.toNat) (drawn s)))
    else .next (withReply (.byte (memRead s.mem addr.toNat)) s)
  else .refused (.hostNotNormalMemory addr.toNat)

/-- A store of one byte by the host or another agent: where it races with an APPLY, every byte of the ranges involved is any
value (70_reset_and_hazards.md R246; 93_implementation_defined.md I3). -/
def hostStore (addr : Word) (v : Byte) (s : State) : Host.Outcome State Fault Refusal :=
  if normalRange s.env.plat addr.toNat 1 then
    if racesStore s addr.toNat then
      .next (withReply .okay (raceOn (storeRegions s addr.toNat) s))
    else .next (withReply .okay (storeByte addr.toNat v s))
  else .refused (.hostNotNormalMemory addr.toNat)

/-- A sample of the `irq` line; the host that sees it at 1 has observed the completion
(60_exceptions.md R226; 70_reset_and_hazards.md R246). -/
def hostSampleIrq (s : State) : State :=
  withReply (.level s.irq) (if s.irq then observed s else s)

end Sys2Proof.Machine
end

