-- ==== Sys2Proof/Machine/Agents.lean ====
section
/-! DEFINITION. One step of one agent (00_scope.md R14): the events, reset, and which comes next. -/

namespace Sys2Proof.Machine

/-- A DMA write is in flight when `rst` is asserted: the event says so in the phase WR, and a write that waits for
its response is in any case (70_reset_and_hazards.md R241; log entry 9). -/
def writeInFlight (inFlight : Bool) (s : State) : Bool :=
  s.eng.phase == .wr && (inFlight || s.eng.awaiting)

/-- Every register and every field of the engine at its reset value; memory and the agents around the block are not
reset (70_reset_and_hazards.md R240, R241). -/
def resetBlock (s : State) : State :=
  { State.reset with mem := s.mem, env := s.env }

/-- The reset event: the running command is abandoned, and the byte of a write in flight is any value
(70_reset_and_hazards.md R241). -/
def assertReset (inFlight : Bool) (s : State) : State :=
  if writeInFlight inFlight s then resetBlock (storeFree (wrAddress s.eng) s) else resetBlock s

/-- One step of the agent that moves. -/
def runEvent (ev : Event) (s : State) : Host.Outcome State Fault Refusal :=
  match ev with
  | .host a => hostAccess a s
  | .memLoad addr => hostLoad addr s
  | .memStore addr v => hostStore addr v s
  | .sampleIrq => .next (hostSampleIrq s)
  | .engine ans => engineStep ans s
  | .rst inFlight => .next (assertReset inFlight s)

/-- The event that comes next: the script's, and at its end the engine's, which is always enabled while a command
runs (41_stream_engine.md R170), with the memory's standing answer (log entry 2). -/
def nextEvent (s : State) : Event :=
  match s.env.script with
  | [] => .engine s.env.standing
  | ev :: _ => ev

/-- The state with the script past its next event. -/
def popScript (s : State) : State := { s with env := { s.env with script := s.env.script.tail } }

/-- The machine's step: the agent whose turn it is moves. -/
def advance (s : State) : Host.Outcome State Fault Refusal := runEvent (nextEvent s) (popScript s)

/-- The host's write of a word to CMD, as an access on its bus (30_encoding.md R100). -/
def cmdWriteAccess (p : Platform) (w : Word) : Access :=
  { dir := .write, addr := regAddress p .cmd, size := 4, wdata := w }

/-- The state in which the host's next access is a write of the word to CMD. -/
def scheduleCommand (w : Word) (s : State) : State :=
  { s with env := { s.env with script := .host (cmdWriteAccess s.env.plat w) :: s.env.script } }

end Sys2Proof.Machine
end

