-- ==== Sys2Proof/Machine/Step.lean ====
section
/-! DEFINITION. The machine's step, and how an instruction is placed where the step takes its next one. -/

namespace Sys2Proof.Machine

/-- One step of the machine (00_scope.md R14). -/
def step (s : State) : Host.Outcome State Fault Refusal := advance s

/-- The state whose next step runs the instruction with bits `w`: the block fetches no instructions
(20_memory.md R98), so its commands come from the host, and the host's next access is the write of that
word to CMD (log entry 16). -/
def State.withFetchWord (s : State) (nbits w : Nat) : State :=
  scheduleCommand (BitVec.ofNat 32 (w % 2 ^ nbits)) s

end Sys2Proof.Machine
end

