-- ==== Sys2Proof/Safety.lean ====
section
/-! DEFINITION. What a safe state is: the invariants of 10_state.md R50 and of the engine's sequencer, and the
bound on the engine steps a command still takes (41_stream_engine.md R160, R169). -/

namespace Sys2Proof

open Sys2Proof.Machine

/-- 10_state.md R50: ERR = 1 if and only if RESULT != 0; if BUSY = 1 then DONE = 0, ERR = 0 and RESULT = 0; if
BUSY = 0 then ABORT_PEND = 0. (BUSY = 1 if and only if `eng.phase != IDLE` is how BUSY is defined.) -/
structure FlagsOk (s : State) : Prop where
  err_iff : s.status.err = true ↔ s.status.result ≠ .ok
  busy_clear : s.busy = true → s.status.done = false ∧ s.status.err = false ∧ s.status.result = .ok
  idle_no_abort : s.busy = false → s.abortPending = false

/-- The shadows of an APPLY that passed the checks at issue (42_commands.md R183), and a block index inside it. -/
structure ApplyOk (e : Eng) : Prop where
  src_fits : e.src.toNat + e.len.toNat ≤ 2 ^ 32
  dst_fits : e.dst.toNat + e.len.toNat ≤ 2 ^ 32
  apart : e.src = e.dst ∨ e.src.toNat + e.len.toNat ≤ e.dst.toNat ∨ e.dst.toNat + e.len.toNat ≤ e.src.toNat
  block : 64 * e.j.toNat < e.len.toNat

/-- The sequencer inside block `eng.j` (41_stream_engine.md R157 to R159): the block's length, a byte index below
it, its keystream, and the running counter one past the block's (41_stream_engine.md R155). -/
structure InBlock (e : Eng) : Prop where
  length : e.n = blockLength e
  index : e.i.val < e.n.val
  stream : e.ks = blockBytes e.key e.nonce (e.ctr0 + e.j)
  counter : e.runCtr = e.ctr0 + e.j + 1

/-- The engine's state by its phase (10_state.md R42 to R47). -/
def EngOk (e : Eng) : Prop :=
  match e.phase with
  | .idle => e = Eng.zero
  | .gen => e.awaiting = false
  | .blk => ApplyOk e ∧ e.awaiting = false ∧ e.runCtr = e.ctr0 + e.j
  | .rd => ApplyOk e ∧ InBlock e
  | .wr => ApplyOk e ∧ InBlock e

/-- An APPLY is running: the engine is in one of its three stages (10_state.md R42). -/
def isApplyPhase : Phase → Bool
  | .idle => false
  | .gen => false
  | .blk => true
  | .rd => true
  | .wr => true

/-- The buffers of the running APPLY are the engine's (20_memory.md R94). -/
def OwnsBuffers (s : State) : Prop :=
  isApplyPhase s.eng.phase = true →
    { src := s.eng.src.toNat, dst := s.eng.dst.toNat, len := s.eng.len.toNat } ∈ s.env.owned

/-- The record of buffers and races (70_reset_and_hazards.md R246): the buffers of an APPLY lie in the DMA space
(60_exceptions.md R214), a range raced on is a range of theirs, and every byte of one is a free byte: "any value"
(93_implementation_defined.md I3). -/
structure RacesOk (s : State) : Prop where
  fits : ∀ b ∈ s.env.owned, b.src + b.len ≤ 2 ^ 32 ∧ b.dst + b.len ≤ 2 ^ 32
  owned : ∀ r ∈ s.env.raced, ∃ b ∈ s.env.owned, r = b.input ∨ r = b.output
  free : ∀ x, isRaced s x = true → ∃ n < s.env.freeCtr, memRead s.mem x = Config.freeByte n

/-- The invariant of the machine: it holds at reset and every step keeps it. -/
structure Inv (s : State) : Prop where
  flags : FlagsOk s
  eng : EngOk s.eng
  owns : OwnsBuffers s
  races : RacesOk s
  mem : Mem.wf s.mem

/-- The engine steps that `r` more bytes take, from a block's start: a BLK step for each block, an RD and a WR step for
each byte (41_stream_engine.md R160). -/
def stepsForBytes (r : Nat) : Nat := blockCount r + 2 * r

/-- The engine steps the running command still takes when no abort and no bus error occur (41_stream_engine.md R160). -/
def stepsLeft (e : Eng) : Nat :=
  match e.phase with
  | .idle => 0
  | .gen => 1
  | .blk => stepsForBytes (e.len.toNat - 64 * e.j.toNat)
  | .rd => (e.n.val - e.i.val) + e.n.val + stepsForBytes (e.len.toNat - (64 * e.j.toNat + e.n.val))
  | .wr => (e.n.val - e.i.val) + stepsForBytes (e.len.toNat - (64 * e.j.toNat + e.n.val))

/-- The output bytes of the running APPLY that are written: those of the blocks before `eng.j`, and in a WR stage
the first `eng.i` of block `eng.j` (41_stream_engine.md R168). -/
def bytesWritten (e : Eng) : Nat :=
  match e.phase with
  | .wr => byteIndex e
  | _ => 64 * e.j.toNat

/-- Memory `m` is `m0` with the first `count` output bytes of an APPLY from `src` to `dst` in place, and no other byte
changed (41_stream_engine.md R150, R164). -/
structure HoldsStream (m0 m : Mem) (src dst count : Nat) (k : KeyWords) (nw : NonceWords) (c0 : Word) : Prop where
  output : ∀ x < count, memRead m (dst + x) = bxor (memRead m0 (src + x)) (keystreamByte k nw c0 x)
  elsewhere : ∀ a, (a < dst ∨ dst + count ≤ a) → memRead m a = memRead m0 a

/-- The input bytes that the running APPLY holds in `eng.buf` are those that memory held at its start:
`eng.i` of them in an RD stage, the whole block in a WR stage (41_stream_engine.md R158). -/
def HoldsInput (m0 : Mem) (e : Eng) : Prop :=
  ∀ q : Fin 64, q.val < (match e.phase with | .rd => e.i.val | .wr => e.n.val | _ => 0) →
    e.buf[q] = memRead m0 (e.src.toNat + 64 * e.j.toNat + q.val)

/-- How far the running APPLY is, from the memory `m0` that it started on. -/
structure Progress (m0 : Mem) (s : State) : Prop where
  running : isApplyPhase s.eng.phase = true
  stream : HoldsStream m0 s.mem s.eng.src.toNat s.eng.dst.toNat (bytesWritten s.eng) s.eng.key s.eng.nonce s.eng.ctr0
  input : HoldsInput m0 s.eng

/-- A host access to a register of the block. -/
def regAccess (p : Platform) (d : Dir) (r : Reg) (w : Word) : Access :=
  { dir := d, addr := regAddress p r, size := 4, wdata := w }

/-- The events by which no agent but the engine writes memory, none races, the memory answers every access, and the block is
not reset: host register accesses, loads that do not race, samples of `irq`, and engine steps. -/
def Undisturbed (s : State) : Event → Prop
  | .host _ => True
  | .sampleIrq => True
  | .engine ans => ans = .ok
  | .memLoad a => racesLoad s a.toNat = false
  | .memStore _ _ => False
  | .rst _ => False

/-- The conditions under which an APPLY written while idle is accepted: equal nonzero lengths, both ranges inside the
address space, equal or apart (42_commands.md R183), and normal memory (20_memory.md R87). -/
structure ApplyLegal (s : State) : Prop where
  lengths : s.regs.srcLen = s.regs.dstLen
  nonzero : s.regs.srcLen ≠ 0
  src_fits : s.regs.srcAddr.toNat + s.regs.srcLen.toNat ≤ 2 ^ 32
  dst_fits : s.regs.dstAddr.toNat + s.regs.srcLen.toNat ≤ 2 ^ 32
  apart : s.regs.srcAddr = s.regs.dstAddr ∨
    s.regs.srcAddr.toNat + s.regs.srcLen.toNat ≤ s.regs.dstAddr.toNat ∨
    s.regs.dstAddr.toNat + s.regs.srcLen.toNat ≤ s.regs.srcAddr.toNat
  normal : applyNormal s.env.plat s.regs = true

/-- The state `s` with the argument registers (COUNTER, SRC_ADDR, DST_ADDR, SRC_LEN, DST_LEN, KEY, NONCE) of `r`. -/
def withArguments (r : Regs) (s : State) : State :=
  { s with regs := { s.regs with counter := r.counter, srcAddr := r.srcAddr, dstAddr := r.dstAddr, srcLen := r.srcLen,
                                 dstLen := r.dstLen, key := r.key, nonce := r.nonce } }

/-- The argument registers of two register files are the same. -/
def SameArguments (r r' : Regs) : Prop :=
  r.counter = r'.counter ∧ r.srcAddr = r'.srcAddr ∧ r.dstAddr = r'.dstAddr ∧ r.srcLen = r'.srcLen ∧
    r.dstLen = r'.dstLen ∧ r.key = r'.key ∧ r.nonce = r'.nonce

/-- The result registers of two register files are the same. -/
def SameResults (r r' : Regs) : Prop :=
  r.nextCtr = r'.nextCtr ∧ r.doneBytes = r'.doneBytes ∧ r.errAddr = r'.errAddr

end Sys2Proof
end

