-- ==== Sys2Proof/Certificates/Slice0/Obligations.lean ====
section
/-! DEFINITION. The statements about the machine, from the numbered rules of the spec. A docstring names the rule. -/

open Sys2Proof Sys2Proof.Machine

/-! ### Encoding -/

/-- The opcode map (30_encoding.md R104): with RSV = 0, OP 1, 2, 3 are GEN, APPLY, ABORT and every other OP is reserved. -/
def Obligations.OpcodeMapWithZeroReservedBits : Prop :=
  decode 0x00000001 = .instr .gen ∧ decode 0x00000002 = .instr .apply ∧ decode 0x00000003 = .instr .abort ∧
  decode 0x00000000 = .reserved .reservedOpcode ∧
  ∀ op : BitVec 4, 4 ≤ op → decode (wordOfFields { rsv := 0, op := op }) = .reserved .reservedOpcode

/-- Exact match on all 32 bits, and decoding is total (30_encoding.md R105). -/
def Obligations.DecodeIsExactMatchOnAllBits : Prop :=
  ∀ w : Word,
    (decode w = .instr .gen ↔ w = 0x00000001) ∧
    (decode w = .instr .apply ↔ w = 0x00000002) ∧
    (decode w = .instr .abort ↔ w = 0x00000003) ∧
    ((∃ why, decode w = .reserved why) ↔ w ≠ 0x00000001 ∧ w ≠ 0x00000002 ∧ w ≠ 0x00000003)

/-- Decode and encode agree in both directions: command words, command bytes, byte lanes (20_memory.md R81),
register offsets (10_state.md R21), and register addresses in the window at any BASE (20_memory.md R70). -/
def Obligations.EncodingsRoundTrip : Prop :=
  (∀ (w : Word) (i : Instr), decode w = .instr i ↔ encode i = w) ∧
  (∀ (bs : List Byte) (i : Instr), decodeBytes bs = .instr i ↔ encodeBytes i = bs) ∧
  (∀ b0 b1 b2 b3 : Byte, lanesOfWord (wordOfLanes b0 b1 b2 b3) = [b0, b1, b2, b3]) ∧
  (∀ (o : BitVec 8) (r : Reg), decodeOffset o = some r ↔ encodeOffset r = o) ∧
  (∀ (p : Platform) (a : Access) (r : Reg), a.size = 4 →
    (inWindow p a.addr = true ∧ decodeAccess a = some r ↔ a.addr = regAddress p r))

/-- The offsets that hold no register: the misaligned ones, and 0x30 to 0x3C, 0x6C to 0x7C and 0xC0 to 0xFC
(10_state.md R37). -/
def Obligations.ReservedOffsetsHoldNoRegister : Prop :=
  ∀ n : Nat, n < 0x100 →
    (decodeOffset (BitVec.ofNat 8 n) = none ↔
      n % 4 ≠ 0 ∨ (0x30 ≤ n ∧ n ≤ 0x3C) ∨ (0x6C ≤ n ∧ n ≤ 0x7C) ∨ (0xC0 ≤ n ∧ n ≤ 0xFC))

/-! ### The step runs the command written to CMD -/

/-- When the host's next access writes to CMD a word that decodes to a command, the step is the command's meaning, on the
state with the script past that access and the access answered OKAY (30_encoding.md R100; 42_commands.md R180). -/
def Obligations.StepRunsDecodedCommand : Prop :=
  ∀ (s : State) (a : Access) (rest : List Event) (i : Instr),
    s.env.script = .host a :: rest → inWindow s.env.plat a.addr = true → decodeAccess a = some .cmd →
    a.dir = .write → decode a.wdata = .instr i →
    step s = exec i (withReply .okay (popScript s))

/-- A reserved command word while idle completes with BADCMD in the write's own step, and NEXT_CTR, DONE_BYTES, ERR_ADDR, KS
and all else keep their values (42_commands.md R186). -/
def Obligations.ReservedWordWhileIdleIsBadCommand : Prop :=
  ∀ (s : State) (w : Word) (why : ReservedWord),
    s.env.script.head? = some (.host (regAccess s.env.plat .write .cmd w)) → decode w = .reserved why → s.busy = false →
    ∃ t, step s = .next t ∧
      t.status = { done := true, err := true, ovr := s.status.ovr, result := .badcmd } ∧
      t.eng = Eng.zero ∧ t.busy = false ∧ t.abortPending = false ∧
      t.regs = s.regs ∧ t.mem = s.mem ∧ t.doneIe = s.doneIe

/-- While busy, GEN, APPLY and every reserved word are dropped with OVR set and nothing else changed; ABORT is acted on
(30_encoding.md R107; 42_commands.md R180). -/
def Obligations.WhileBusyOnlyAbortIsActedOn : Prop :=
  ∀ s : State, s.busy = true →
    exec .gen s = .next { s with status := { s.status with ovr := true } } ∧
    exec .apply s = .next { s with status := { s.status with ovr := true } } ∧
    exec .abort s = .next { s with eng := { s.eng with abortPend := true } } ∧
    ∀ (w : Word) (why : ReservedWord), decode w = .reserved why →
      writeCmd w s = .next { s with status := { s.status with ovr := true } }

/-! ### GEN -/

/-- GEN while idle: the common start and the phase GEN; nothing else changes (42_commands.md R181, R191). -/
def Obligations.GenStartsWhenIdle : Prop :=
  ∀ s : State, s.busy = false →
    exec .gen s = .next { s with
      status := { s.status with done := false, err := false, result := .ok },
      eng := { s.eng with
        key := s.regs.key, nonce := s.regs.nonce, ctr0 := s.regs.counter, src := s.regs.srcAddr, dst := s.regs.dstAddr,
        len := s.regs.srcLen, abortPend := false, phase := .gen } }

/-- The GEN step: KS0 to KS15 get the words of BLOCK, NEXT_CTR = ADD32(ctr0, 1), DONE_BYTES = ERR_ADDR = 0, DONE with RESULT OK, and
the engine cleared; nothing else changes (42_commands.md R182). -/
def Obligations.GenStepDeliversBlockWords : Prop :=
  ∀ (s : State) (ans : MemAnswer), s.eng.phase = .gen → s.eng.awaiting = false →
    engineStep ans s = .next { s with
      regs := { s.regs with ks := blockWords s.eng.key s.eng.nonce s.eng.ctr0, nextCtr := s.eng.ctr0 + 1,
                            doneBytes := 0, errAddr := 0 },
      status := { s.status with done := true, err := false, result := .ok },
      eng := Eng.zero }

/-- A GEN command from CMD write to completion, with any ABORT commands in between: "A GEN is never aborted"
(60_exceptions.md R217; 42_commands.md R181, R182, R185). -/
def Obligations.GenIsNeverAborted : Prop :=
  ∀ (s : State) (n : Nat) (ans : MemAnswer) (rest : List Event),
    Inv s → s.busy = false →
    s.env.script = .host (regAccess s.env.plat .write .cmd 1) ::
      (List.replicate n (.host (regAccess s.env.plat .write .cmd 3)) ++ .engine ans :: rest) →
    ∃ t : State, core.run (n + 2) s = .next t ∧ t.env.script = rest ∧ t.eng = Eng.zero ∧
      t.regs = { s.regs with ks := blockWords s.regs.key s.regs.nonce s.regs.counter,
                             nextCtr := s.regs.counter + 1, doneBytes := 0, errAddr := 0 } ∧
      t.status = { done := true, err := false, ovr := s.status.ovr, result := .ok } ∧
      t.mem = s.mem ∧ t.doneIe = s.doneIe

/-! ### APPLY at issue -/

/-- The state after a completion at issue: NEXT_CTR = COUNTER, DONE_BYTES = ERR_ADDR = 0, the result's flags, and the engine at
rest; nothing else changes. The checks are made in the order INVALID_ARG, L = 0, RANGE, OVERLAP and only the first that applies is
reported (60_exceptions.md R221; 42_commands.md R183). -/
def Obligations.ApplyIssueChecksInOrder : Prop :=
  ∀ s : State, s.busy = false →
    let done := fun res : Result => Host.Outcome.next (φ := Fault) (ρ := Refusal) { s with
      regs := { s.regs with nextCtr := s.regs.counter, doneBytes := 0, errAddr := 0 },
      status := { s.status with done := true, err := res != .ok, result := res },
      eng := Eng.zero }
    let L := s.regs.srcLen.toNat
    let src := s.regs.srcAddr.toNat
    let dst := s.regs.dstAddr.toNat
    let outside := 2 ^ 32 < src + L ∨ 2 ^ 32 < dst + L
    (s.regs.srcLen ≠ s.regs.dstLen → exec .apply s = done .invalidArg) ∧
    (s.regs.srcLen = s.regs.dstLen → L = 0 → exec .apply s = done .ok) ∧
    (s.regs.srcLen = s.regs.dstLen → 1 ≤ L → outside → exec .apply s = done .range) ∧
    (s.regs.srcLen = s.regs.dstLen → 1 ≤ L → ¬outside → src ≠ dst → src < dst + L → dst < src + L →
      exec .apply s = done .overlap)

/-- An APPLY that passes every check, on normal memory, is accepted: the common start, `eng.run_ctr <- COUNTER`, `eng.j <- 0`,
the phase BLK; its buffers are recorded as the engine's (log entry 10), and nothing else changes (42_commands.md R183, R191). -/
def Obligations.ApplyAcceptedStartsEngine : Prop :=
  ∀ s : State, s.busy = false → ApplyLegal s →
    exec .apply s = .next { s with
      status := { s.status with done := false, err := false, result := .ok },
      eng := { s.eng with
        key := s.regs.key, nonce := s.regs.nonce, ctr0 := s.regs.counter, src := s.regs.srcAddr, dst := s.regs.dstAddr,
        len := s.regs.srcLen, abortPend := false, runCtr := s.regs.counter, j := 0, phase := .blk },
      env := { s.env with owned :=
        { src := s.regs.srcAddr.toNat, dst := s.regs.dstAddr.toNat, len := s.regs.srcLen.toNat } :: s.env.owned } }

/-- APPLY refuses exactly where it would be accepted but a range meets a device region or the block's own window
(20_memory.md R87; that it refuses at the CMD write, and that the window is no normal memory, are the model's reading: log entries 5
and 6). -/
def Obligations.ApplyRefusesExactlyNonNormalMemory : Prop :=
  ∀ s : State,
    exec .apply s = .refused .applyNotNormalMemory ↔
      s.busy = false ∧ issueResult s.regs = none ∧
        ∃ r ∈ ({ start := (windowBase s.env.plat).toNat, size := 0x100 } : Region) :: s.env.plat.devices, 0 < r.size ∧
          ((r.start < s.regs.srcAddr.toNat + s.regs.srcLen.toNat ∧ s.regs.srcAddr.toNat < r.start + r.size) ∨
           (r.start < s.regs.dstAddr.toNat + s.regs.srcLen.toNat ∧ s.regs.dstAddr.toNat < r.start + r.size))

/-! ### ABORT -/

/-- ABORT sets ABORT_PEND while busy and does nothing while idle; nothing else changes in either case (42_commands.md R185). -/
def Obligations.AbortSetsRequestOnlyWhileBusy : Prop :=
  ∀ s : State,
    (s.busy = true → exec .abort s = .next { s with eng := { s.eng with abortPend := true } }) ∧
    (s.busy = false → exec .abort s = .next s)

/-- A BLK step that finds ABORT_PEND = 1 ends the APPLY before it generates block j: RESULT ABORTED, DONE_BYTES = 64j,
NEXT_CTR = initial counter + j, ERR_ADDR = 0, memory unchanged (60_exceptions.md R217). -/
def Obligations.AbortEndsApplyBeforeNextBlock : Prop :=
  ∀ (s : State) (ans : MemAnswer), Inv s → s.eng.phase = .blk → s.eng.abortPend = true →
    engineStep ans s = .next { s with
      regs := { s.regs with nextCtr := s.eng.ctr0 + s.eng.j, doneBytes := 64 * s.eng.j, errAddr := 0 },
      status := { s.status with done := true, err := true, result := .aborted },
      eng := Eng.zero }

/-! ### What the commands leave unchanged -/

/-- The frame of the CMD write of any command: the argument registers, KS, IRQ_EN, memory, the platform and the script are unchanged;
GEN and ABORT, and an accepted or dropped APPLY, leave the result registers; OVR is never cleared (42_commands.md R181, R183, R185;
41_stream_engine.md R161). -/
def Obligations.CommandWriteFrame : Prop :=
  ∀ (i : Instr) (s t : State), exec i s = .next t →
    SameArguments t.regs s.regs ∧ t.regs.ks = s.regs.ks ∧ t.doneIe = s.doneIe ∧
    (∀ a, memRead t.mem a = memRead s.mem a) ∧
    t.env.plat = s.env.plat ∧ t.env.script = s.env.script ∧ t.env.reply = s.env.reply ∧
    (s.status.ovr = true → t.status.ovr = true) ∧
    (i ≠ .apply ∨ t.busy = true → SameResults t.regs s.regs)

/-! ### The engine's APPLY steps -/

/-- The BLK step with no abort pending: the block's keystream at the running counter, the counter one up, the block's length
min(64, L - 64j), byte index 0, the phase RD; nothing else changes (41_stream_engine.md R157). -/
def Obligations.BlkStepGeneratesBlock : Prop :=
  ∀ (s : State) (ans : MemAnswer), s.eng.phase = .blk → s.eng.awaiting = false →
    (s.eng.abortPend = false →
      ∃ n : Fin 65, n.val = min 64 (s.eng.len.toNat - 64 * s.eng.j.toNat) ∧
        engineStep ans s = .next { s with eng := { s.eng with
          ks := blockBytes s.eng.key s.eng.nonce s.eng.runCtr, runCtr := s.eng.runCtr + 1, n := n, i := 0, phase := .rd } }) ∧
    (s.eng.abortPend = true →
      engineStep ans s = .next { s with
        regs := { s.regs with nextCtr := s.eng.runCtr, doneBytes := BitVec.ofNat 32 (64 * s.eng.j.toNat), errAddr := 0 },
        status := { s.status with done := true, err := true, result := .aborted },
        eng := Eng.zero })

/-- The RD step where no agent races: byte `eng.i` of the buffer is memory's at src + 64j + i; the next byte follows, or the phase WR
from byte 0; nothing else changes. An error response ends the APPLY (41_stream_engine.md R158). -/
def Obligations.RdStepReadsInputByte : Prop :=
  ∀ s : State, s.eng.phase = .rd → s.eng.awaiting = false → s.eng.i.val < s.eng.n.val →
    let a := s.eng.src.toNat + 64 * s.eng.j.toNat + s.eng.i.val
    a < 2 ^ 32 →
    (isRaced s a = false →
      ∃ t, engineStep .ok s = .next t ∧ t.regs = s.regs ∧ t.status = s.status ∧ t.doneIe = s.doneIe ∧ t.mem = s.mem ∧
        t.env = s.env ∧
        ∃ i' : Fin 64, t.eng = { s.eng with
            buf := s.eng.buf.set s.eng.i (memRead s.mem a), i := i',
            phase := if s.eng.i.val + 1 = s.eng.n.val then .wr else .rd } ∧
          i'.val = if s.eng.i.val + 1 = s.eng.n.val then 0 else s.eng.i.val + 1) ∧
    engineStep .busError s = .next { s with
      regs := { s.regs with nextCtr := s.eng.runCtr, doneBytes := BitVec.ofNat 32 (64 * s.eng.j.toNat),
                            errAddr := BitVec.ofNat 32 a },
      status := { s.status with done := true, err := true, result := .bus },
      eng := Eng.zero }

/-- The WR step where no agent races: memory at dst + 64j + i gets buf[i] XOR ks[i] and every other byte is as before; then the
next byte, the next block's BLK step, or, after the last byte of the last block, completion with OK. An error response ends the APPLY, and
only the byte at that address may change (41_stream_engine.md R159; that it is a free byte then is log entry 8). -/
def Obligations.WrStepWritesOutputByte : Prop :=
  ∀ s : State, s.eng.phase = .wr → s.eng.awaiting = false → s.eng.i.val < s.eng.n.val → Mem.wf s.mem →
    wrAddress s.eng = s.eng.dst.toNat + 64 * s.eng.j.toNat + s.eng.i.val ∧
    (wrAddress s.eng < 2 ^ 32 → isRaced s (wrAddress s.eng) = false →
      ∃ t, engineStep .ok s = .next t ∧ t.doneIe = s.doneIe ∧ t.env = s.env ∧
        memRead t.mem (wrAddress s.eng) = s.eng.buf[s.eng.i] ^^^ s.eng.ks[s.eng.i] ∧
        (∀ x, x ≠ wrAddress s.eng → memRead t.mem x = memRead s.mem x) ∧
        (s.eng.i.val + 1 ≠ s.eng.n.val →
          t.regs = s.regs ∧ t.status = s.status ∧
          ∃ i' : Fin 64, i'.val = s.eng.i.val + 1 ∧ t.eng = { s.eng with i := i' }) ∧
        (s.eng.i.val + 1 = s.eng.n.val → 64 * (s.eng.j.toNat + 1) < s.eng.len.toNat →
          t.regs = s.regs ∧ t.status = s.status ∧ t.eng = { s.eng with j := s.eng.j + 1, i := 0, phase := .blk }) ∧
        (s.eng.i.val + 1 = s.eng.n.val → s.eng.len.toNat ≤ 64 * (s.eng.j.toNat + 1) →
          t.regs = { s.regs with nextCtr := s.eng.runCtr, doneBytes := s.eng.len, errAddr := 0 } ∧
          t.status = { s.status with done := true, err := false, result := .ok } ∧ t.eng = Eng.zero)) ∧
    (wrAddress s.eng < 2 ^ 32 →
      ∃ t, engineStep .busError s = .next t ∧ t.doneIe = s.doneIe ∧
        t.regs = { s.regs with nextCtr := s.eng.runCtr,
                               doneBytes := BitVec.ofNat 32 (64 * s.eng.j.toNat + s.eng.i.val),
                               errAddr := BitVec.ofNat 32 (wrAddress s.eng) } ∧
        t.status = { s.status with done := true, err := true, result := .bus } ∧ t.eng = Eng.zero ∧
        ∀ x, x ≠ wrAddress s.eng → memRead t.mem x = memRead s.mem x)

/-- A bus error in an RD or WR step of a running APPLY: RESULT BUS in that step, ERR_ADDR the faulting address, NEXT_CTR the running
counter that already counts block j, DONE_BYTES 64j for a read and 64j + i for a write, no other byte of memory changed; the byte of a
faulting write is a free byte, the model's form of "a value the block does not specify" (60_exceptions.md R216; log entry 8). -/
def Obligations.BusErrorEndsApply : Prop :=
  ∀ s : State, Inv s → s.eng.awaiting = false →
    (s.eng.phase = .rd →
      ∃ t, engineStep .busError s = .next t ∧ t.status = { s.status with done := true, err := true, result := .bus } ∧
        t.regs = { s.regs with nextCtr := s.eng.ctr0 + s.eng.j + 1, doneBytes := 64 * s.eng.j,
                               errAddr := s.eng.src + 64 * s.eng.j + BitVec.ofNat 32 s.eng.i.val } ∧
        t.eng = Eng.zero ∧ t.mem = s.mem) ∧
    (s.eng.phase = .wr →
      ∃ t, engineStep .busError s = .next t ∧ t.status = { s.status with done := true, err := true, result := .bus } ∧
        t.regs = { s.regs with nextCtr := s.eng.ctr0 + s.eng.j + 1,
                               doneBytes := 64 * s.eng.j + BitVec.ofNat 32 s.eng.i.val,
                               errAddr := s.eng.dst + 64 * s.eng.j + BitVec.ofNat 32 s.eng.i.val } ∧
        t.eng = Eng.zero ∧
        memRead t.mem (wrAddress s.eng) = Config.freeByte s.env.freeCtr ∧
        ∀ x, x ≠ wrAddress s.eng → memRead t.mem x = memRead s.mem x)

/-- A DMA access that never receives a response leaves the engine waiting: it takes no further step, BUSY stays 1, ABORT
does not end it, and only a reset does (70_reset_and_hazards.md R252; `awaiting` is how the model holds it, log entry 13). -/
def Obligations.NoResponseLeavesEngineStuck : Prop :=
  (∀ s : State, s.eng.phase = .rd → s.eng.awaiting = false → rdAddress s.eng < 2 ^ 32 →
    engineStep .noResponse s = .next { s with eng := { s.eng with awaiting := true } }) ∧
  (∀ s : State, s.eng.phase = .wr → s.eng.awaiting = false → wrAddress s.eng < 2 ^ 32 →
    engineStep .noResponse s = .next { s with eng := { s.eng with awaiting := true } }) ∧
  (∀ (s : State) (ans : MemAnswer), s.eng.awaiting = true → engineStep ans s = .next s) ∧
  (∀ (s t : State) (ev : Event), s.busy = true → s.eng.awaiting = true → s.env.script.head? = some ev →
    (∀ b, ev ≠ .rst b) → step s = .next t →
    t.busy = true ∧ t.eng.awaiting = true ∧ t.eng.phase = s.eng.phase) ∧
  (∀ (s : State) (b : Bool), s.env.script.head? = some (.rst b) → ∃ t, step s = .next t ∧ t.busy = false)

/-- The frame of an engine step: the argument registers, IRQ_EN and OVR are unchanged, KS by every step but GEN's; memory is
unchanged but for the byte at the address a WR step forms (41_stream_engine.md R157 to R159; 42_commands.md R182). -/
def Obligations.EngineStepFrame : Prop :=
  ∀ (s t : State) (ans : MemAnswer), Mem.wf s.mem → engineStep ans s = .next t →
    SameArguments t.regs s.regs ∧ t.doneIe = s.doneIe ∧ t.status.ovr = s.status.ovr ∧
    (s.eng.phase ≠ .gen → t.regs.ks = s.regs.ks) ∧
    (t.busy = true → SameResults t.regs s.regs ∧ t.status = s.status) ∧
    (s.eng.phase ≠ .wr → t.mem = s.mem) ∧
    (s.eng.phase = .wr → ∀ x, x ≠ wrAddress s.eng → memRead t.mem x = memRead s.mem x) ∧
    t.env.plat = s.env.plat ∧ t.env.script = s.env.script ∧ t.env.reply = s.env.reply ∧ t.env.owned = s.env.owned

/-- An APPLY reads only addresses src + k and writes only addresses dst + k, with 0 <= k < L, and none is past the DMA
space (20_memory.md R85; 60_exceptions.md R214). -/
def Obligations.DmaAddressesStayInBuffers : Prop :=
  ∀ s : State, Inv s →
    (s.eng.phase = .rd → ∃ k < s.eng.len.toNat, rdAddress s.eng = s.eng.src.toNat + k ∧ rdAddress s.eng < 2 ^ 32) ∧
    (s.eng.phase = .wr → ∃ k < s.eng.len.toNat, wrAddress s.eng = s.eng.dst.toNat + k ∧ wrAddress s.eng < 2 ^ 32)

/-! ### Invariants -/

/-- 10_state.md R50: the flags' invariants are kept by every step. -/
def Obligations.FlagInvariantsKeptByEveryStep : Prop :=
  ∀ s t : State, FlagsOk s → step s = .next t → FlagsOk t

/-- Every step keeps the machine's invariant: the flags, the engine at rest or inside an accepted command (with the keystream and the
counter of its block), the model's record that the running APPLY's buffers are the engine's and that every byte of a range raced on is a free
byte (log entry 10), and memory's canonical form. -/
def Obligations.MachineInvariantKeptByEveryStep : Prop :=
  ∀ s t : State, Inv s → step s = .next t → Inv t

/-- The invariant holds at reset. -/
def Obligations.MachineInvariantHoldsAtReset : Prop := Inv State.reset

/-- No step from a state of the invariant faults: no DMA address wraps or leaves the space (60_exceptions.md R214), and no byte
index leaves its block. -/
def Obligations.NoFaultFromInvariant : Prop :=
  ∀ (s : State) (f : Fault), Inv s → step s ≠ .fault f

/-- Every refusal is about memory that is not normal: an APPLY on it (20_memory.md R87; log entry 6), or a load or store of another
agent there (log entry 7). -/
def Obligations.RefusalsOnlyForNonNormalMemory : Prop :=
  ∀ (s : State) (r : Refusal), step s = .refused r →
    (r = .applyNotNormalMemory ∧ s.busy = false ∧ applyNormal s.env.plat s.regs = false) ∨
    (∃ (a : Word), r = .hostNotNormalMemory a.toNat ∧ normalRange s.env.plat a.toNat 1 = false)

/-- OVR is set only by a host write that is dropped because BUSY = 1 (10_state.md R24, R49). -/
def Obligations.OverrunSetOnlyByDroppedWrite : Prop :=
  ∀ s t : State, step s = .next t → s.status.ovr = false → t.status.ovr = true →
    s.busy = true ∧ ∃ (a : Access) (r : Reg), s.env.script.head? = some (.host a) ∧ a.dir = .write ∧
      decodeAccess a = some r ∧ ((r = .cmd ∧ a.wdata ≠ 3) ∨ r = .counter ∨ r = .srcAddr ∨ r = .dstAddr ∨ r = .srcLen ∨
        r = .dstLen ∨ (∃ k, r = .key k) ∨ (∃ k, r = .nonce k))

/-- The argument registers are written by the host alone: a step that changes one is a host write while idle, or a reset
(10_state.md R26, R34, R35). -/
def Obligations.ArgumentsChangeOnlyByIdleHostWrites : Prop :=
  ∀ s t : State, step s = .next t → ¬SameArguments t.regs s.regs →
    (∃ a : Access, s.env.script.head? = some (.host a) ∧ a.dir = .write ∧ s.busy = false) ∨
    (∃ b, s.env.script.head? = some (.rst b))

/-- Only GEN writes KS: a step that changes one is a GEN step or a reset (10_state.md R36). -/
def Obligations.KeystreamRegistersChangeOnlyByGen : Prop :=
  ∀ s t : State, step s = .next t → t.regs.ks ≠ s.regs.ks →
    (s.eng.phase = .gen ∧ t.regs.ks = blockWords s.eng.key s.eng.nonce s.eng.ctr0 ∧ t.status.done = true) ∨
    (∃ b, s.env.script.head? = some (.rst b))

/-- NEXT_CTR, DONE_BYTES and ERR_ADDR are written only by a completion of GEN or APPLY, not by BADCMD, or by reset: a step that changes one
is an engine step of a busy engine that ends its command, a host write of APPLY to CMD while idle that completes it at issue, or a reset
(10_state.md R27, R32, R33). -/
def Obligations.ResultsChangeOnlyAtCompletion : Prop :=
  ∀ s t : State, step s = .next t → ¬SameResults t.regs s.regs →
    (s.busy = true ∧ (∃ ans, nextEvent s = .engine ans) ∧ t.busy = false ∧ t.status.done = true ∧ t.status.result ≠ .badcmd) ∨
    (s.busy = false ∧ (∃ a : Access, s.env.script.head? = some (.host a) ∧ inWindow s.env.plat a.addr = true ∧
        decodeAccess a = some .cmd ∧ a.dir = .write ∧ decode a.wdata = .instr .apply) ∧
      t.busy = false ∧ t.status.done = true ∧ t.status.result ≠ .badcmd) ∨
    (∃ b, s.env.script.head? = some (.rst b))

/-- A step that ends a command, or a reset, leaves no field of the engine other than 0: no key, nonce, counter or keystream is
retained (10_state.md R47). -/
def Obligations.EngineClearedWhenCommandEnds : Prop :=
  ∀ s t : State, step s = .next t → s.busy = true → t.busy = false → t.eng = Eng.zero

/-! ### The headline: what an APPLY computes -/

/-- An accepted APPLY begins with no byte written, and while nobody disturbs it every step keeps its progress: the output bytes written are
APPLYFN's, every other byte is as at the start; when it completes with OK the whole output range holds APPLYFN of the input
(41_stream_engine.md R150, R164), NEXT_CTR = ADD32(c0, ceil(L/64)), DONE_BYTES = L, ERR_ADDR = 0, and otherwise it was aborted. Any
interleaving of host register accesses, samples of `irq` and loads that do not race is admitted. -/
def Obligations.ApplyProgressKeptUnderAnySchedule : Prop :=
  (∀ s t : State, s.busy = false → ApplyLegal s → exec .apply s = .next t → Progress s.mem t) ∧
  ∀ (m0 : Mem) (s t : State), Inv s → s.env.raced = [] → Progress m0 s → Undisturbed s (nextEvent s) → step s = .next t →
    (Progress m0 t ∧ t.env.raced = [] ∧ t.eng.src = s.eng.src ∧ t.eng.dst = s.eng.dst ∧ t.eng.len = s.eng.len ∧
      t.eng.key = s.eng.key ∧ t.eng.nonce = s.eng.nonce ∧ t.eng.ctr0 = s.eng.ctr0) ∨
    (t.busy = false ∧ t.status.result = .ok ∧
      HoldsStream m0 t.mem s.eng.src.toNat s.eng.dst.toNat s.eng.len.toNat s.eng.key s.eng.nonce s.eng.ctr0 ∧
      t.regs.nextCtr = s.eng.ctr0 + BitVec.ofNat 32 (blockCount s.eng.len.toNat) ∧
      t.regs.doneBytes = s.eng.len ∧ t.regs.errAddr = 0) ∨
    (t.busy = false ∧ t.status.result = .aborted ∧
      HoldsStream m0 t.mem s.eng.src.toNat s.eng.dst.toNat (64 * s.eng.j.toNat) s.eng.key s.eng.nonce s.eng.ctr0 ∧
      t.regs.doneBytes.toNat = 64 * s.eng.j.toNat)

/-- An APPLY from CMD write to completion, its engine steps uninterrupted: it takes the CMD write and exactly B + 2L engine steps, and
leaves APPLYFN of the input in the output range, every other byte of memory as before, and the results of 41_stream_engine.md R164. -/
def Obligations.ApplyComputesCounterModeStream : Prop :=
  ∀ (s : State) (rest : List Event), Inv s → s.busy = false → s.env.raced = [] → ApplyLegal s →
    let L := s.regs.srcLen.toNat
    let steps := blockCount L + 2 * L
    s.env.script = .host (regAccess s.env.plat .write .cmd 2) :: (List.replicate steps (.engine .ok) ++ rest) →
    (∀ k, 1 ≤ k → k ≤ steps → ∃ u : State, core.run k s = .next u ∧ u.busy = true) ∧
    ∃ t : State, core.run (1 + steps) s = .next t ∧ t.env.script = rest ∧
      HoldsStream s.mem t.mem s.regs.srcAddr.toNat s.regs.dstAddr.toNat L s.regs.key s.regs.nonce s.regs.counter ∧
      t.regs = { s.regs with nextCtr := s.regs.counter + BitVec.ofNat 32 (blockCount L), doneBytes := s.regs.srcLen, errAddr := 0 } ∧
      t.status = { done := true, err := false, ovr := s.status.ovr, result := .ok } ∧
      t.eng = Eng.zero ∧ t.doneIe = s.doneIe

/-- An APPLY in place, and the same APPLY once more, leave memory as it was (41_stream_engine.md R162, R163). -/
def Obligations.InPlaceApplyTwiceRestoresMemory : Prop :=
  ∀ (s : State) (rest : List Event), Inv s → s.busy = false → s.env.raced = [] → ApplyLegal s →
    s.regs.srcAddr = s.regs.dstAddr →
    let L := s.regs.srcLen.toNat
    let steps := blockCount L + 2 * L
    let once := .host (regAccess s.env.plat .write .cmd 2) :: List.replicate steps (.engine .ok)
    s.env.script = once ++ (once ++ rest) →
    ∃ t : State, core.run (2 * (1 + steps)) s = .next t ∧ t.env.script = rest ∧ t.mem = s.mem ∧ t.status.result = .ok

/-- An accepted APPLY has B + 2L engine steps left. Each engine step takes at least one of them, whatever the memory answers (unless it
never answers), and exactly one where no abort is pending and the memory answers without error; at none left the command has completed. So
it completes after at most B + 2L engine steps, and an engine step is always enabled until then (41_stream_engine.md R160, R169, R170). -/
def Obligations.EngineStepsLeftAlwaysDecrease : Prop :=
  (∀ s t : State, Inv s → s.busy = false → ApplyLegal s → exec .apply s = .next t →
    stepsLeft t.eng = blockCount s.regs.srcLen.toNat + 2 * s.regs.srcLen.toNat) ∧
  (∀ s : State, Inv s → (stepsLeft s.eng = 0 ↔ s.busy = false)) ∧
  (∀ (s : State) (ans : MemAnswer), Inv s → s.busy = true → s.eng.awaiting = false → ans ≠ .noResponse →
    ∃ t, engineStep ans s = .next t ∧ stepsLeft t.eng + 1 ≤ stepsLeft s.eng ∧
      (s.eng.abortPend = false → ans = .ok → stepsLeft t.eng + 1 = stepsLeft s.eng)) ∧
  (∀ (s t : State) (ev : Event), Inv s → s.busy = true → s.env.script.head? = some ev → (∀ ans, ev ≠ .engine ans) →
    (∀ b, ev ≠ .rst b) → step s = .next t → stepsLeft t.eng = stepsLeft s.eng)

/-- APPLYFN is its own inverse (41_stream_engine.md R150, R156, R162) and keeps the length. -/
def Obligations.ApplyFunctionIsInvolution : Prop :=
  ∀ (k : KeyWords) (nw : NonceWords) (c0 : Word) (input : List Byte),
    applyFn k nw c0 (applyFn k nw c0 input) = input ∧ (applyFn k nw c0 input).length = input.length

/-- A stream may be continued at a block boundary with the next counter (41_stream_engine.md R165). -/
def Obligations.StreamContinuesAtBlockBoundary : Prop :=
  ∀ (k : KeyWords) (nw : NonceWords) (c0 : Word) (l1 l2 : List Byte), 64 ∣ l1.length →
    applyFn k nw c0 (l1 ++ l2) =
      applyFn k nw c0 l1 ++ applyFn k nw (c0 + BitVec.ofNat 32 (blockCount l1.length)) l2

/-! ### The Block Generator -/

/-- ROTL32: bit (i + n) mod 32 of the result is bit i of v, for 0 < n < 32 (40_block_generator.md R122). -/
def Obligations.RotationMovesEveryBit : Prop :=
  ∀ (v : Word) (n i : Nat), 0 < n → n < 32 → i < 32 → (rotl32 v n).getLsbD ((i + n) % 32) = v.getLsbD i

/-- Within a pass the order of the four quarter-rounds does not change the result (40_block_generator.md R134). -/
def Obligations.QuarterRoundsOfAPassCommute : Prop :=
  ∀ (gs : List QrGroup) (x : Words16),
    (gs.Perm columnGroups → runPass gs x = colPass x) ∧ (gs.Perm diagonalGroups → runPass gs x = diagPass x)

/-- The lane view (40_block_generator.md R135): lane c of COLPASS is the quarter-round on column c, lane c of DIAGPASS the
quarter-round on (x[c], x[4 + (c+1) mod 4], x[8 + (c+2) mod 4], x[12 + (c+3) mod 4]). -/
def Obligations.PassesAreFourLanes : Prop :=
  ∀ (x : Words16) (c : Fin 4),
    (let q := quarterRound { a := x[c.val]!, b := x[4 + c.val]!, c := x[8 + c.val]!, d := x[12 + c.val]! }
     (colPass x)[c.val]! = q.a ∧ (colPass x)[4 + c.val]! = q.b ∧ (colPass x)[8 + c.val]! = q.c ∧
       (colPass x)[12 + c.val]! = q.d) ∧
    (let q := quarterRound { a := x[c.val]!, b := x[4 + (c.val + 1) % 4]!, c := x[8 + (c.val + 2) % 4]!,
                             d := x[12 + (c.val + 3) % 4]! }
     (diagPass x)[c.val]! = q.a ∧ (diagPass x)[4 + (c.val + 1) % 4]! = q.b ∧ (diagPass x)[8 + (c.val + 2) % 4]! = q.c ∧
       (diagPass x)[12 + (c.val + 3) % 4]! = q.d)

/-- BLOCK, composed (40_block_generator.md R127 to R131): word i is ADD32 of word i of S after ten double rounds, column pass before
diagonal pass, and word i of S; S holds the constants, the key, the counter and the nonce; byte m of the keystream is byte m mod 4,
from the least significant, of word m div 4. -/
def Obligations.BlockIsRoundsFeedForwardSerial : Prop :=
  ∀ (k : KeyWords) (nw : NonceWords) (ctr : Word),
    let S := initState k nw ctr
    (S[0] = 0x61707865 ∧ S[1] = 0x3320646e ∧ S[2] = 0x79622d32 ∧ S[3] = 0x6b206574 ∧
      (∀ i : Fin 8, S[4 + i.val] = k[i]) ∧ S[12] = ctr ∧ (∀ i : Fin 3, S[13 + i.val] = nw[i])) ∧
    (∀ i : Fin 16, (blockWords k nw ctr)[i] = ((fun x => diagPass (colPass x))^[10] S)[i] + S[i]) ∧
    (∀ m : Fin 64, ∀ b : Nat, b < 8 →
      (blockBytes k nw ctr)[m].getLsbD b = ((blockWords k nw ctr)[m.val / 4]).getLsbD (8 * (m.val % 4) + b))

/-- Little-endian packing and serialisation are inverse (00_scope.md R12; 20_memory.md R79, R80): a word is le32 of its bytes, and the
four serialised bytes of word i give it back. -/
def Obligations.LittleEndianPackingInvertsSerialisation : Prop :=
  (∀ b0 b1 b2 b3 : Byte, (le32 b0 b1 b2 b3).toNat = b0.toNat + 2 ^ 8 * b1.toNat + 2 ^ 16 * b2.toNat + 2 ^ 24 * b3.toNat) ∧
  (∀ (w : Words16) (i : Fin 16),
    le32 (serial w)[4 * i.val]! (serial w)[4 * i.val + 1]! (serial w)[4 * i.val + 2]! (serial w)[4 * i.val + 3]! = w[i])

/-! ### Register accesses -/

/-- A register read returns the value 42_commands.md R192 gives, with no side effect on any register, flag, engine field or memory
byte (20_memory.md R78). -/
def Obligations.RegisterReadsReturnValuesWithoutSideEffect : Prop :=
  ∀ (s : State) (r : Reg) (w : Word), s.env.script.head? = some (.host (regAccess s.env.plat .read r w)) →
    ∃ t, step s = .next t ∧ t.regs = s.regs ∧ t.status = s.status ∧ t.doneIe = s.doneIe ∧ t.eng = s.eng ∧ t.mem = s.mem ∧
      t.env.reply = .data (match r with
        | .id => 0x41525820
        | .cmd => 0
        | .status => (if s.busy then 0x1 else 0) ||| (if s.status.done then 0x2 else 0) ||| (if s.status.err then 0x4 else 0) |||
            (if s.status.ovr then 0x8 else 0) ||| (s.status.result.code.setWidth 32 <<< 4) |||
            (if s.abortPending then 0x100 else 0)
        | .irqEn => if s.doneIe then 1 else 0
        | .counter => s.regs.counter
        | .nextCtr => s.regs.nextCtr
        | .srcAddr => s.regs.srcAddr
        | .dstAddr => s.regs.dstAddr
        | .srcLen => s.regs.srcLen
        | .dstLen => s.regs.dstLen
        | .doneBytes => s.regs.doneBytes
        | .errAddr => s.regs.errAddr
        | .key _ => 0
        | .nonce k => s.regs.nonce[k]
        | .ks k => s.regs.ks[k])

/-- The bits of the STATUS word: BUSY, DONE, ERR, OVR, RESULT in [7:4], ABORT_PEND in [8], and [31:9] read as 0 (10_state.md R24). -/
def Obligations.StatusWordFields : Prop :=
  ∀ s : State,
    s.statusWord.getLsbD 0 = s.busy ∧ s.statusWord.getLsbD 1 = s.status.done ∧ s.statusWord.getLsbD 2 = s.status.err ∧
    s.statusWord.getLsbD 3 = s.status.ovr ∧ s.statusWord.extractLsb' 4 4 = s.status.result.code ∧
    s.statusWord.getLsbD 8 = s.abortPending ∧ ∀ b, 9 ≤ b → s.statusWord.getLsbD b = false

/-- The result codes (60_exceptions.md R211): OK 0, BADCMD 1, INVALID_ARG 2, RANGE 3, OVERLAP 4, BUS 5, ABORTED 6, none of 7 to 15; and every
completion sets DONE, with ERR exactly where the code is not 0. -/
def Obligations.ResultCodesOfCompletions : Prop :=
  (Result.code .ok = 0 ∧ Result.code .badcmd = 1 ∧ Result.code .invalidArg = 2 ∧ Result.code .range = 3 ∧
    Result.code .overlap = 4 ∧ Result.code .bus = 5 ∧ Result.code .aborted = 6 ∧ ∀ res : Result, res.code < 7) ∧
  ∀ (res : Result) (s : State),
    (completeStatus res s).status.done = true ∧ (completeStatus res s).status.result = res ∧
    ((completeStatus res s).status.err = true ↔ res.code ≠ 0)

/-- A STATUS write clears DONE and OVR where the word has a 1 in bit 1 and bit 3, whatever BUSY is, and changes nothing else
(42_commands.md R187). -/
def Obligations.StatusWriteClearsNamedFlags : Prop :=
  ∀ (s : State) (w : Word), s.env.script.head? = some (.host (regAccess s.env.plat .write .status w)) →
    ∃ t, step s = .next t ∧
      t.status = { s.status with done := if w.getLsbD 1 then false else s.status.done,
                                 ovr := if w.getLsbD 3 then false else s.status.ovr } ∧
      t.regs = s.regs ∧ t.doneIe = s.doneIe ∧ t.eng = s.eng ∧ t.mem = s.mem ∧ t.env.reply = .okay

/-- An IRQ_EN write sets DONE_IE to bit 0 of the word, whatever BUSY is, and changes nothing else (42_commands.md R190). -/
def Obligations.InterruptEnableWrite : Prop :=
  ∀ (s : State) (w : Word), s.env.script.head? = some (.host (regAccess s.env.plat .write .irqEn w)) →
    ∃ t, step s = .next t ∧ t.doneIe = w.getLsbD 0 ∧ t.irq = (s.status.done && w.getLsbD 0) ∧
      t.regs = s.regs ∧ t.status = s.status ∧ t.eng = s.eng ∧ t.mem = s.mem ∧ t.env.reply = .okay

/-- While idle, a write to an argument register sets that register to the word and changes nothing else (42_commands.md R189). -/
def Obligations.ArgumentWriteWhileIdleSetsRegister : Prop :=
  ∀ (s : State) (r : Reg) (w : Word) (regs' : Regs), s.busy = false →
    s.env.script.head? = some (.host (regAccess s.env.plat .write r w)) →
    (match r with
      | .counter => regs' = { s.regs with counter := w }
      | .srcAddr => regs' = { s.regs with srcAddr := w }
      | .dstAddr => regs' = { s.regs with dstAddr := w }
      | .srcLen => regs' = { s.regs with srcLen := w }
      | .dstLen => regs' = { s.regs with dstLen := w }
      | .key k => regs' = { s.regs with key := s.regs.key.set k w }
      | .nonce k => regs' = { s.regs with nonce := s.regs.nonce.set k w }
      | _ => False) →
    ∃ t, step s = .next t ∧ t.regs = regs' ∧ t.status = s.status ∧ t.doneIe = s.doneIe ∧ t.eng = s.eng ∧ t.mem = s.mem ∧
      t.env.reply = .okay

/-- While busy, a write to an argument register is dropped with a normal response: OVR is set and nothing else changes
(42_commands.md R188). -/
def Obligations.ArgumentWriteWhileBusyIsDropped : Prop :=
  ∀ (s : State) (r : Reg) (w : Word), s.busy = true →
    s.env.script.head? = some (.host (regAccess s.env.plat .write r w)) →
    (r = .counter ∨ r = .srcAddr ∨ r = .dstAddr ∨ r = .srcLen ∨ r = .dstLen ∨ (∃ k, r = .key k) ∨ (∃ k, r = .nonce k)) →
    ∃ t, step s = .next t ∧ t.status = { s.status with ovr := true } ∧ t.regs = s.regs ∧ t.doneIe = s.doneIe ∧ t.eng = s.eng ∧
      t.mem = s.mem ∧ t.env.reply = .okay

/-- A write to a read-only register is accepted with a normal response and ignored (20_memory.md R76). -/
def Obligations.ReadOnlyWritesIgnored : Prop :=
  ∀ (s : State) (r : Reg) (w : Word),
    s.env.script.head? = some (.host (regAccess s.env.plat .write r w)) →
    (r = .id ∨ r = .nextCtr ∨ r = .doneBytes ∨ r = .errAddr ∨ ∃ k, r = .ks k) →
    ∃ t, step s = .next t ∧ t.regs = s.regs ∧ t.status = s.status ∧ t.doneIe = s.doneIe ∧ t.eng = s.eng ∧ t.mem = s.mem ∧
      t.env.reply = .okay

/-- An access in the window that is narrower than 32 bits, misaligned, or at a reserved offset is answered with a bus error and
changes nothing (20_memory.md R74, R75; 60_exceptions.md R218). -/
def Obligations.BadRegisterAccessGetsBusError : Prop :=
  ∀ (s : State) (a : Access), s.env.script.head? = some (.host a) → inWindow s.env.plat a.addr = true →
    (a.size ≠ 4 ∨ a.addr.toNat % 4 ≠ 0 ∨ decodeOffset (a.addr.extractLsb' 0 8) = none) →
    ∃ t, step s = .next t ∧ t.regs = s.regs ∧ t.status = s.status ∧ t.doneIe = s.doneIe ∧ t.eng = s.eng ∧ t.mem = s.mem ∧
      t.env.reply = .busError

/-- No register read tells anything of the key registers, of the engine's shadows or of its buffers: two states that differ only
there answer every host register access that reads alike (10_state.md R34, R48; 60_exceptions.md R228). -/
def Obligations.ReadsRevealNothingOfKeysOrEngine : Prop :=
  ∀ (s s' t t' : State) (a : Access), a.dir = .read → s.env.script.head? = some (.host a) →
    s' = { s with regs := { s.regs with key := s'.regs.key },
                  eng := { s'.eng with phase := s.eng.phase, abortPend := s.eng.abortPend } } →
    step s = .next t → step s' = .next t' → t.env = t'.env

/-- Every engine step reads only shadows, never the host's argument registers: with other values in them it does the same
(10_state.md R44). -/
def Obligations.EngineStepsReadOnlyShadows : Prop :=
  ∀ (s t : State) (ans : MemAnswer) (r : Regs),
    engineStep ans s = .next t → engineStep ans (withArguments r s) = .next (withArguments r t)

/-! ### Interrupt, reset, races -/

/-- In every state the `irq` line is DONE AND DONE_IE: it rises with a completion, and the acknowledge, a STATUS write with bit 1, drops
it in the same step (60_exceptions.md R226, R224). -/
def Obligations.InterruptFollowsDoneAndEnable : Prop :=
  (∀ s : State, s.env.script.head? = some .sampleIrq →
    ∃ t, step s = .next t ∧ t.env.reply = .level (s.status.done && s.doneIe) ∧ t.regs = s.regs ∧ t.status = s.status ∧
      t.eng = s.eng ∧ t.mem = s.mem) ∧
  (∀ (res : Result) (nc db ea : Word) (s : State), (complete res nc db ea s).irq = s.doneIe) ∧
  (∀ (s : State) (w : Word), w.getLsbD 1 = true →
    s.env.script.head? = some (.host (regAccess s.env.plat .write .status w)) → ∃ t, step s = .next t ∧ t.irq = false)

/-- The reset event, in any state: every register, flag and engine field at its reset value, the running command abandoned with DONE not
set, `irq` 0, memory as it was but for the byte of a write in flight, which is a free byte, the model's form of "a value the block does
not specify" (70_reset_and_hazards.md R240, R241; log entry 9). -/
def Obligations.ResetAbandonsCommandAndKeepsMemory : Prop :=
  ∀ (s : State) (inFlight : Bool), Mem.wf s.mem → s.env.script.head? = some (.rst inFlight) →
    ∃ t, step s = .next t ∧ t.regs = State.reset.regs ∧ t.status = State.reset.status ∧ t.doneIe = false ∧ t.eng = Eng.zero ∧
      t.irq = false ∧ t.status.done = false ∧
      (∀ x, (s.eng.phase ≠ .wr ∨ (inFlight = false ∧ s.eng.awaiting = false) ∨ x ≠ wrAddress s.eng) →
        memRead t.mem x = memRead s.mem x) ∧
      (s.eng.phase = .wr → (inFlight = true ∨ s.eng.awaiting = true) →
        memRead t.mem (wrAddress s.eng) = Config.freeByte s.env.freeCtr)

/-- The reset values of 10_state.md R51, those of the block; memory is not the block's, and the block's reset leaves it. -/
def Obligations.ResetValuesOfEveryRegister : Prop :=
  let s := State.reset
  s.statusWord = 0 ∧ s.doneIe = false ∧ s.regs.counter = 0 ∧ s.regs.nextCtr = 0 ∧ s.regs.srcAddr = 0 ∧ s.regs.dstAddr = 0 ∧
  s.regs.srcLen = 0 ∧ s.regs.dstLen = 0 ∧ s.regs.doneBytes = 0 ∧ s.regs.errAddr = 0 ∧
  (∀ k : Fin 8, s.regs.key[k] = 0) ∧ (∀ k : Fin 3, s.regs.nonce[k] = 0) ∧ (∀ k : Fin 16, s.regs.ks[k] = 0) ∧
  s.eng.phase = .idle ∧ s.eng.j = 0 ∧ s.eng.i = 0 ∧ s.eng.n = 0 ∧ s.eng.runCtr = 0 ∧ s.eng.ctr0 = 0 ∧ s.eng.src = 0 ∧
  s.eng.dst = 0 ∧ s.eng.len = 0 ∧ s.eng.abortPend = false ∧ (∀ k : Fin 8, s.eng.key[k] = 0) ∧
  (∀ k : Fin 3, s.eng.nonce[k] = 0) ∧ (∀ m : Fin 64, s.eng.ks[m] = 0 ∧ s.eng.buf[m] = 0) ∧ s.irq = false ∧
  readReg .id s = 0x41525820 ∧ readReg .cmd s = 0 ∧
  ∀ t : State, resetBlock t = { s with mem := t.mem, env := t.env }

/-- Until the host has observed an APPLY's completion, a load of a byte of its output range, and a store to a byte of either range, race:
the load returns a free byte, and every byte of the ranges involved is a free byte of its own (the output range where the access is to it,
both ranges where a store is to the input range), every other byte as before. From then on the byte an RD step reads in such a range, and the
byte a WR step leaves there, are free bytes, and all else is as in the step without the race (70_reset_and_hazards.md R246;
93_implementation_defined.md I3; which ranges are involved, and the free byte as the form of "any value", are log entry 10). -/
def Obligations.RacingAccessesYieldFreeBytes : Prop :=
  (∀ (s : State) (a : Word), s.env.script.head? = some (.memLoad a) → normalRange s.env.plat a.toNat 1 = true → RacesOk s →
    Mem.wf s.mem →
    let involved := fun x : Nat => ∃ b ∈ s.env.owned,
      (b.dst ≤ a.toNat ∧ a.toNat < b.dst + b.len) ∧ (b.dst ≤ x ∧ x < b.dst + b.len)
    involved a.toNat →
      ∃ t, step s = .next t ∧ t.env.reply = .byte (Config.freeByte s.env.freeCtr) ∧
        (∀ x, involved x → memRead t.mem x = Config.freeByte (s.env.freeCtr + 1 + x) ∧ isRaced t x = true) ∧
        (∀ x, ¬involved x → memRead t.mem x = memRead s.mem x ∧ isRaced t x = isRaced s x) ∧
        t.env.freeCtr = s.env.freeCtr + 1 + 2 ^ 32 ∧ t.env.owned = s.env.owned ∧
        t.regs = s.regs ∧ t.status = s.status ∧ t.doneIe = s.doneIe ∧ t.eng = s.eng) ∧
  (∀ (s : State) (a : Word) (v : Byte), s.env.script.head? = some (.memStore a v) →
    normalRange s.env.plat a.toNat 1 = true → RacesOk s → Mem.wf s.mem →
    let involved := fun x : Nat => ∃ b ∈ s.env.owned,
      ((b.src ≤ a.toNat ∧ a.toNat < b.src + b.len) ∧
        ((b.src ≤ x ∧ x < b.src + b.len) ∨ (b.dst ≤ x ∧ x < b.dst + b.len))) ∨
      ((b.dst ≤ a.toNat ∧ a.toNat < b.dst + b.len) ∧ (b.dst ≤ x ∧ x < b.dst + b.len))
    involved a.toNat →
      ∃ t, step s = .next t ∧ t.env.reply = .okay ∧
        (∀ x, involved x → memRead t.mem x = Config.freeByte (s.env.freeCtr + x) ∧ isRaced t x = true) ∧
        (∀ x, ¬involved x → memRead t.mem x = memRead s.mem x ∧ isRaced t x = isRaced s x) ∧
        t.env.freeCtr = s.env.freeCtr + 2 ^ 32 ∧ t.env.owned = s.env.owned ∧
        t.regs = s.regs ∧ t.status = s.status ∧ t.doneIe = s.doneIe ∧ t.eng = s.eng) ∧
  (∀ s : State, s.eng.phase = .rd → s.eng.awaiting = false → s.eng.i.val < s.eng.n.val → rdAddress s.eng < 2 ^ 32 →
    isRaced s (rdAddress s.eng) = true →
    ∃ t u, engineStep .ok s = .next t ∧ engineStep .ok { s with env := { s.env with raced := [] } } = .next u ∧
      t.eng = { u.eng with buf := s.eng.buf.set s.eng.i (Config.freeByte s.env.freeCtr) } ∧
      t.regs = u.regs ∧ t.status = u.status ∧ t.doneIe = u.doneIe ∧ t.mem = s.mem ∧
      t.env = { s.env with freeCtr := s.env.freeCtr + 1 }) ∧
  (∀ s : State, s.eng.phase = .wr → s.eng.awaiting = false → s.eng.i.val < s.eng.n.val → wrAddress s.eng < 2 ^ 32 →
    isRaced s (wrAddress s.eng) = true → Mem.wf s.mem →
    ∃ t u, engineStep .ok s = .next t ∧ engineStep .ok { s with env := { s.env with raced := [] } } = .next u ∧
      memRead t.mem (wrAddress s.eng) = Config.freeByte s.env.freeCtr ∧
      (∀ x, x ≠ wrAddress s.eng → memRead t.mem x = memRead s.mem x) ∧
      t.eng = u.eng ∧ t.regs = u.regs ∧ t.status = u.status ∧ t.doneIe = u.doneIe ∧
      t.env = { s.env with freeCtr := s.env.freeCtr + 1 })

/-- A load that does not race, outside the output ranges of the APPLYs whose completion the host has not observed (a load of an input range is
one, 70_reset_and_hazards.md R246), returns what memory holds; a store outside both ranges puts the byte there and changes no other byte; and
neither changes anything of the block or the record of races. A STATUS read with BUSY = 0 or DONE = 1, and a sample of `irq` at 1, are the
observation of completion: they, and no other step, take a buffer or a range out of that record, and they empty it. So once the host has
observed completion it sees the bytes the APPLY wrote (20_memory.md R84, R93; 70_reset_and_hazards.md R250; the record is log entry 10). -/
def Obligations.HostMemoryAccessesOutsideOwnedBuffers : Prop :=
  (∀ (s : State) (a : Word), s.env.script.head? = some (.memLoad a) → normalRange s.env.plat a.toNat 1 = true →
    (∀ b ∈ s.env.owned, ¬(b.dst ≤ a.toNat ∧ a.toNat < b.dst + b.len)) →
    ∃ t, step s = .next t ∧ t.env.reply = .byte (memRead s.mem a.toNat) ∧ t.mem = s.mem ∧
      t.env.owned = s.env.owned ∧ t.env.raced = s.env.raced ∧
      t.regs = s.regs ∧ t.status = s.status ∧ t.doneIe = s.doneIe ∧ t.eng = s.eng) ∧
  (∀ (s : State) (a : Word) (v : Byte), s.env.script.head? = some (.memStore a v) →
    normalRange s.env.plat a.toNat 1 = true → Mem.wf s.mem →
    (∀ b ∈ s.env.owned, ¬(b.src ≤ a.toNat ∧ a.toNat < b.src + b.len) ∧ ¬(b.dst ≤ a.toNat ∧ a.toNat < b.dst + b.len)) →
    ∃ t, step s = .next t ∧ t.env.reply = .okay ∧ memRead t.mem a.toNat = v ∧
      (∀ x, x ≠ a.toNat → memRead t.mem x = memRead s.mem x) ∧
      t.env.owned = s.env.owned ∧ t.env.raced = s.env.raced ∧
      t.regs = s.regs ∧ t.status = s.status ∧ t.doneIe = s.doneIe ∧ t.eng = s.eng) ∧
  (∀ (s : State) (w : Word), s.env.script.head? = some (.host (regAccess s.env.plat .read .status w)) →
    s.busy = false ∨ s.status.done = true → ∃ t, step s = .next t ∧ t.env.owned = [] ∧ t.env.raced = []) ∧
  (∀ s : State, s.env.script.head? = some .sampleIrq → s.irq = true →
    ∃ t, step s = .next t ∧ t.env.owned = [] ∧ t.env.raced = []) ∧
  (∀ s t : State, step s = .next t →
    (∀ b ∈ s.env.owned, b ∈ t.env.owned) ∧ (∀ r ∈ s.env.raced, r ∈ t.env.raced) ∨
    (∃ a : Access, s.env.script.head? = some (.host a) ∧ inWindow s.env.plat a.addr = true ∧
      decodeAccess a = some .status ∧ a.dir = .read ∧ (s.busy = false ∨ s.status.done = true)) ∨
    (s.env.script.head? = some .sampleIrq ∧ s.irq = true))
end

