-- ==== Sys2Proof/Laws/BlockGenerator.lean ====
section
/-! SUPPORT. The laws of the Block Generator: what one quarter-round touches, the words and the bytes of a block, one by
one, so that no proof evaluates a block. -/

namespace Sys2Proof.Machine

/-- A quarter-round leaves every word outside its group. -/
theorem qr_getElem_other (g : QrGroup) (x : Words16) (i : Fin 16) (ha : g.a ≠ i) (hb : g.b ≠ i) (hc : g.c ≠ i)
    (hd : g.d ≠ i) : (qr g x)[i] = x[i] := by
  have ha' := Fin.val_ne_of_ne ha
  have hb' := Fin.val_ne_of_ne hb
  have hc' := Fin.val_ne_of_ne hc
  have hd' := Fin.val_ne_of_ne hd
  simp [qr, ha', hb', hc', hd']

/-- One more double round is done first. -/
theorem drounds_succ (n : Nat) (x : Words16) : drounds (n + 1) x = drounds n (dround x) := rfl

/-- `n` double rounds are the double round, iterated. -/
theorem drounds_eq_iterate (n : Nat) (x : Words16) : drounds n x = dround^[n] x := by
  induction n generalizing x with
  | zero => rfl
  | succ n ih => rw [drounds, ih, Function.iterate_succ_apply]

/-- A word of the feed-forward. -/
theorem feedForward_getElem (c : CipherState) (i : Fin 16) :
    (feedForward c)[i] = add32 c.working[i] c.original[i] := by
  simp [feedForward]

/-- A result word of a block. -/
theorem blockWords_getElem (k : KeyWords) (nw : NonceWords) (ctr : Word) (i : Fin 16) :
    (blockWords k nw ctr)[i] = add32 (rounds20 (initState k nw ctr))[i] (initState k nw ctr)[i] :=
  feedForward_getElem _ i

/-- A serialised byte. -/
theorem serial_getElem (w : Words16) (m : Nat) (hm : m < 64) :
    (serial w)[m] = byteOfWord w[m / 4] (m % 4) := by
  simp [serial]

/-- A bit of a byte of a word. -/
theorem byteOfWord_getLsbD (w : Word) (n b : Nat) (hb : b < 8) : (byteOfWord w n).getLsbD b = w.getLsbD (8 * n + b) := by
  simp [byteOfWord, hb]

/-- The byte of a block is given by its counter and its index alone. -/
theorem blockBytes_getElem_congr (k : KeyWords) (nw : NonceWords) {c c' : Word} {m m' : Nat} (hm : m < 64) (hm' : m' < 64)
    (hc : c = c') (h : m = m') : (blockBytes k nw c)[m] = (blockBytes k nw c')[m'] := by
  subst hc h; rfl

/-- Byte `m` of block `j`, as byte `64 * j + m` of the stream. -/
theorem keystreamByte_block (k : KeyWords) (nw : NonceWords) (c0 j : Word) (m : Nat) (hm : m < 64) :
    keystreamByte k nw c0 (64 * j.toNat + m) = (blockBytes k nw (c0 + j))[m] := by
  refine blockBytes_getElem_congr k nw _ _ ?_ (by omega)
  rw [show (64 * j.toNat + m) / 64 = j.toNat by omega, add32, BitVec.ofNat_toNat, BitVec.setWidth_eq]

/-- A byte of APPLYFN. -/
theorem applyFn_getElem (k : KeyWords) (nw : NonceWords) (c0 : Word) (input : List Byte) (m : Nat)
    (hm : m < (applyFn k nw c0 input).length) :
    (applyFn k nw c0 input)[m] = bxor (input[m]'(by simpa [applyFn] using hm)) (keystreamByte k nw c0 m) := by
  simp [applyFn]

/-- BXOR with the same keystream byte twice gives the byte back (41_stream_engine.md R156). -/
@[simp] theorem bxor_bxor (p q : Byte) : bxor (bxor p q) q = p := by
  simp [bxor]

end Sys2Proof.Machine
end

