-- ==== Sys2Proof/Laws/State.lean ====
section
/-! SUPPORT. One lemma for each field and each update of the state, so that no proof unfolds a record update. -/

namespace Sys2Proof.Machine

/-! ### drawn -/

@[simp] theorem drawn_regs (s : State) : (drawn s).regs = s.regs := rfl
@[simp] theorem drawn_status (s : State) : (drawn s).status = s.status := rfl
@[simp] theorem drawn_doneIe (s : State) : (drawn s).doneIe = s.doneIe := rfl
@[simp] theorem drawn_eng (s : State) : (drawn s).eng = s.eng := rfl
@[simp] theorem drawn_mem (s : State) : (drawn s).mem = s.mem := rfl
@[simp] theorem drawn_env (s : State) : (drawn s).env = { s.env with freeCtr := s.env.freeCtr + 1 } := rfl
@[simp] theorem drawn_busy (s : State) : (drawn s).busy = s.busy := rfl

/-! ### storeByte -/

@[simp] theorem storeByte_regs (a : Nat) (v : Byte) (s : State) : (storeByte a v s).regs = s.regs := rfl
@[simp] theorem storeByte_status (a : Nat) (v : Byte) (s : State) : (storeByte a v s).status = s.status := rfl
@[simp] theorem storeByte_doneIe (a : Nat) (v : Byte) (s : State) : (storeByte a v s).doneIe = s.doneIe := rfl
@[simp] theorem storeByte_eng (a : Nat) (v : Byte) (s : State) : (storeByte a v s).eng = s.eng := rfl
@[simp] theorem storeByte_mem (a : Nat) (v : Byte) (s : State) : (storeByte a v s).mem = memWrite s.mem a v := rfl
@[simp] theorem storeByte_env (a : Nat) (v : Byte) (s : State) : (storeByte a v s).env = s.env := rfl
@[simp] theorem storeByte_busy (a : Nat) (v : Byte) (s : State) : (storeByte a v s).busy = s.busy := rfl

/-! ### storeFree -/

@[simp] theorem storeFree_regs (a : Nat) (s : State) : (storeFree a s).regs = s.regs := rfl
@[simp] theorem storeFree_status (a : Nat) (s : State) : (storeFree a s).status = s.status := rfl
@[simp] theorem storeFree_doneIe (a : Nat) (s : State) : (storeFree a s).doneIe = s.doneIe := rfl
@[simp] theorem storeFree_eng (a : Nat) (s : State) : (storeFree a s).eng = s.eng := rfl
@[simp] theorem storeFree_mem (a : Nat) (s : State) : (storeFree a s).mem = memWrite s.mem a (freshByte s) := rfl
@[simp] theorem storeFree_env (a : Nat) (s : State) : (storeFree a s).env = { s.env with freeCtr := s.env.freeCtr + 1 } := rfl
@[simp] theorem storeFree_busy (a : Nat) (s : State) : (storeFree a s).busy = s.busy := rfl

/-! ### observed -/

@[simp] theorem observed_regs (s : State) : (observed s).regs = s.regs := rfl
@[simp] theorem observed_status (s : State) : (observed s).status = s.status := rfl
@[simp] theorem observed_doneIe (s : State) : (observed s).doneIe = s.doneIe := rfl
@[simp] theorem observed_eng (s : State) : (observed s).eng = s.eng := rfl
@[simp] theorem observed_mem (s : State) : (observed s).mem = s.mem := rfl
@[simp] theorem observed_env (s : State) : (observed s).env = { s.env with owned := [], raced := [] } := rfl
@[simp] theorem observed_busy (s : State) : (observed s).busy = s.busy := rfl

/-! ### withReply -/

@[simp] theorem withReply_regs (r : Reply) (s : State) : (withReply r s).regs = s.regs := rfl
@[simp] theorem withReply_status (r : Reply) (s : State) : (withReply r s).status = s.status := rfl
@[simp] theorem withReply_doneIe (r : Reply) (s : State) : (withReply r s).doneIe = s.doneIe := rfl
@[simp] theorem withReply_eng (r : Reply) (s : State) : (withReply r s).eng = s.eng := rfl
@[simp] theorem withReply_mem (r : Reply) (s : State) : (withReply r s).mem = s.mem := rfl
@[simp] theorem withReply_env (r : Reply) (s : State) : (withReply r s).env = { s.env with reply := r } := rfl
@[simp] theorem withReply_busy (r : Reply) (s : State) : (withReply r s).busy = s.busy := rfl

/-! ### start -/

@[simp] theorem start_regs (s : State) : (start s).regs = s.regs := rfl
@[simp] theorem start_status (s : State) : (start s).status = s.status.started := rfl
@[simp] theorem start_doneIe (s : State) : (start s).doneIe = s.doneIe := rfl
@[simp] theorem start_eng (s : State) : (start s).eng = latch s.regs s.eng := rfl
@[simp] theorem start_mem (s : State) : (start s).mem = s.mem := rfl
@[simp] theorem start_env (s : State) : (start s).env = s.env := rfl

/-! ### dropWrite -/

@[simp] theorem dropWrite_regs (s : State) : (dropWrite s).regs = s.regs := rfl
@[simp] theorem dropWrite_status (s : State) : (dropWrite s).status = s.status.dropped := rfl
@[simp] theorem dropWrite_doneIe (s : State) : (dropWrite s).doneIe = s.doneIe := rfl
@[simp] theorem dropWrite_eng (s : State) : (dropWrite s).eng = s.eng := rfl
@[simp] theorem dropWrite_mem (s : State) : (dropWrite s).mem = s.mem := rfl
@[simp] theorem dropWrite_env (s : State) : (dropWrite s).env = s.env := rfl
@[simp] theorem dropWrite_busy (s : State) : (dropWrite s).busy = s.busy := rfl

/-! ### completeStatus -/

@[simp] theorem completeStatus_regs (res : Result) (s : State) : (completeStatus res s).regs = s.regs := rfl
@[simp] theorem completeStatus_status (res : Result) (s : State) : (completeStatus res s).status = s.status.completed res := rfl
@[simp] theorem completeStatus_doneIe (res : Result) (s : State) : (completeStatus res s).doneIe = s.doneIe := rfl
@[simp] theorem completeStatus_eng (res : Result) (s : State) : (completeStatus res s).eng = Eng.zero := rfl
@[simp] theorem completeStatus_mem (res : Result) (s : State) : (completeStatus res s).mem = s.mem := rfl
@[simp] theorem completeStatus_env (res : Result) (s : State) : (completeStatus res s).env = s.env := rfl

/-! ### complete -/

@[simp] theorem complete_regs (res : Result) (nc db ea : Word) (s : State) : (complete res nc db ea s).regs = { s.regs with nextCtr := nc, doneBytes := db, errAddr := ea } := rfl
@[simp] theorem complete_status (res : Result) (nc db ea : Word) (s : State) : (complete res nc db ea s).status = s.status.completed res := rfl
@[simp] theorem complete_doneIe (res : Result) (nc db ea : Word) (s : State) : (complete res nc db ea s).doneIe = s.doneIe := rfl
@[simp] theorem complete_eng (res : Result) (nc db ea : Word) (s : State) : (complete res nc db ea s).eng = Eng.zero := rfl
@[simp] theorem complete_mem (res : Result) (nc db ea : Word) (s : State) : (complete res nc db ea s).mem = s.mem := rfl
@[simp] theorem complete_env (res : Result) (nc db ea : Word) (s : State) : (complete res nc db ea s).env = s.env := rfl

/-! ### acknowledge -/

@[simp] theorem acknowledge_regs (w : Word) (s : State) : (acknowledge w s).regs = s.regs := rfl
@[simp] theorem acknowledge_status (w : Word) (s : State) : (acknowledge w s).status = s.status.written w := rfl
@[simp] theorem acknowledge_doneIe (w : Word) (s : State) : (acknowledge w s).doneIe = s.doneIe := rfl
@[simp] theorem acknowledge_eng (w : Word) (s : State) : (acknowledge w s).eng = s.eng := rfl
@[simp] theorem acknowledge_mem (w : Word) (s : State) : (acknowledge w s).mem = s.mem := rfl
@[simp] theorem acknowledge_env (w : Word) (s : State) : (acknowledge w s).env = s.env := rfl
@[simp] theorem acknowledge_busy (w : Word) (s : State) : (acknowledge w s).busy = s.busy := rfl

/-! ### enterPhase -/

@[simp] theorem enterPhase_regs (p : Phase) (s : State) : (enterPhase p s).regs = s.regs := rfl
@[simp] theorem enterPhase_status (p : Phase) (s : State) : (enterPhase p s).status = s.status := rfl
@[simp] theorem enterPhase_doneIe (p : Phase) (s : State) : (enterPhase p s).doneIe = s.doneIe := rfl
@[simp] theorem enterPhase_eng (p : Phase) (s : State) : (enterPhase p s).eng = { s.eng with phase := p } := rfl
@[simp] theorem enterPhase_mem (p : Phase) (s : State) : (enterPhase p s).mem = s.mem := rfl
@[simp] theorem enterPhase_env (p : Phase) (s : State) : (enterPhase p s).env = s.env := rfl

/-! ### acceptApply -/

@[simp] theorem acceptApply_regs (s : State) : (acceptApply s).regs = s.regs := rfl
@[simp] theorem acceptApply_status (s : State) : (acceptApply s).status = s.status.started := rfl
@[simp] theorem acceptApply_doneIe (s : State) : (acceptApply s).doneIe = s.doneIe := rfl
@[simp] theorem acceptApply_eng (s : State) : (acceptApply s).eng = { latch s.regs s.eng with runCtr := s.regs.counter, j := 0, phase := .blk } := rfl
@[simp] theorem acceptApply_mem (s : State) : (acceptApply s).mem = s.mem := rfl
@[simp] theorem acceptApply_env (s : State) : (acceptApply s).env = { s.env with owned := applyBuffers s.regs :: s.env.owned } := rfl

/-! ### engineWaits -/

@[simp] theorem engineWaits_regs (s : State) : (engineWaits s).regs = s.regs := rfl
@[simp] theorem engineWaits_status (s : State) : (engineWaits s).status = s.status := rfl
@[simp] theorem engineWaits_doneIe (s : State) : (engineWaits s).doneIe = s.doneIe := rfl
@[simp] theorem engineWaits_eng (s : State) : (engineWaits s).eng = { s.eng with awaiting := true } := rfl
@[simp] theorem engineWaits_mem (s : State) : (engineWaits s).mem = s.mem := rfl
@[simp] theorem engineWaits_env (s : State) : (engineWaits s).env = s.env := rfl

/-! ### resetBlock -/

@[simp] theorem resetBlock_regs (s : State) : (resetBlock s).regs = Regs.reset := rfl
@[simp] theorem resetBlock_status (s : State) : (resetBlock s).status = Status.reset := rfl
@[simp] theorem resetBlock_doneIe (s : State) : (resetBlock s).doneIe = false := rfl
@[simp] theorem resetBlock_eng (s : State) : (resetBlock s).eng = Eng.zero := rfl
@[simp] theorem resetBlock_mem (s : State) : (resetBlock s).mem = s.mem := rfl
@[simp] theorem resetBlock_env (s : State) : (resetBlock s).env = s.env := rfl

/-! ### popScript -/

@[simp] theorem popScript_regs (s : State) : (popScript s).regs = s.regs := rfl
@[simp] theorem popScript_status (s : State) : (popScript s).status = s.status := rfl
@[simp] theorem popScript_doneIe (s : State) : (popScript s).doneIe = s.doneIe := rfl
@[simp] theorem popScript_eng (s : State) : (popScript s).eng = s.eng := rfl
@[simp] theorem popScript_mem (s : State) : (popScript s).mem = s.mem := rfl
@[simp] theorem popScript_env (s : State) : (popScript s).env = { s.env with script := s.env.script.tail } := rfl
@[simp] theorem popScript_busy (s : State) : (popScript s).busy = s.busy := rfl

/-! ### scheduleCommand -/

@[simp] theorem scheduleCommand_regs (w : Word) (s : State) : (scheduleCommand w s).regs = s.regs := rfl
@[simp] theorem scheduleCommand_status (w : Word) (s : State) : (scheduleCommand w s).status = s.status := rfl
@[simp] theorem scheduleCommand_doneIe (w : Word) (s : State) : (scheduleCommand w s).doneIe = s.doneIe := rfl
@[simp] theorem scheduleCommand_eng (w : Word) (s : State) : (scheduleCommand w s).eng = s.eng := rfl
@[simp] theorem scheduleCommand_mem (w : Word) (s : State) : (scheduleCommand w s).mem = s.mem := rfl
@[simp] theorem scheduleCommand_env (w : Word) (s : State) : (scheduleCommand w s).env = { s.env with script := .host (cmdWriteAccess s.env.plat w) :: s.env.script } := rfl
@[simp] theorem scheduleCommand_busy (w : Word) (s : State) : (scheduleCommand w s).busy = s.busy := rfl

/-! ### raceOn -/

@[simp] theorem raceOn_regs (rs : List Region) (s : State) : (raceOn rs s).regs = s.regs := rfl
@[simp] theorem raceOn_status (rs : List Region) (s : State) : (raceOn rs s).status = s.status := rfl
@[simp] theorem raceOn_doneIe (rs : List Region) (s : State) : (raceOn rs s).doneIe = s.doneIe := rfl
@[simp] theorem raceOn_eng (rs : List Region) (s : State) : (raceOn rs s).eng = s.eng := rfl
@[simp] theorem raceOn_mem (rs : List Region) (s : State) : (raceOn rs s).mem = memFreeAll s.env.freeCtr rs s.mem := rfl
@[simp] theorem raceOn_env (rs : List Region) (s : State) :
    (raceOn rs s).env =
      { s.env with raced := rs.foldr List.insert s.env.raced, freeCtr := s.env.freeCtr + 2 ^ 32 } := rfl
@[simp] theorem raceOn_busy (rs : List Region) (s : State) : (raceOn rs s).busy = s.busy := rfl

/-! ### The flags -/

@[simp] theorem Status.completed_done (res : Result) (st : Status) : (st.completed res).done = true := rfl
@[simp] theorem Status.completed_err (res : Result) (st : Status) : (st.completed res).err = (res != .ok) := rfl
@[simp] theorem Status.completed_ovr (res : Result) (st : Status) : (st.completed res).ovr = st.ovr := rfl
@[simp] theorem Status.completed_result (res : Result) (st : Status) : (st.completed res).result = res := rfl
@[simp] theorem Status.started_done (st : Status) : st.started.done = false := rfl
@[simp] theorem Status.started_err (st : Status) : st.started.err = false := rfl
@[simp] theorem Status.started_ovr (st : Status) : st.started.ovr = st.ovr := rfl
@[simp] theorem Status.started_result (st : Status) : st.started.result = .ok := rfl
@[simp] theorem Status.dropped_done (st : Status) : st.dropped.done = st.done := rfl
@[simp] theorem Status.dropped_err (st : Status) : st.dropped.err = st.err := rfl
@[simp] theorem Status.dropped_ovr (st : Status) : st.dropped.ovr = true := rfl
@[simp] theorem Status.dropped_result (st : Status) : st.dropped.result = st.result := rfl
@[simp] theorem Status.written_done (w : Word) (st : Status) : (st.written w).done = (st.done && !w.getLsbD 1) := rfl
@[simp] theorem Status.written_err (w : Word) (st : Status) : (st.written w).err = st.err := rfl
@[simp] theorem Status.written_ovr (w : Word) (st : Status) : (st.written w).ovr = (st.ovr && !w.getLsbD 3) := rfl
@[simp] theorem Status.written_result (w : Word) (st : Status) : (st.written w).result = st.result := rfl

/-! ### The engine's shadows -/

@[simp] theorem latch_phase (r : Regs) (e : Eng) : (latch r e).phase = e.phase := rfl
@[simp] theorem latch_j (r : Regs) (e : Eng) : (latch r e).j = e.j := rfl
@[simp] theorem latch_i (r : Regs) (e : Eng) : (latch r e).i = e.i := rfl
@[simp] theorem latch_n (r : Regs) (e : Eng) : (latch r e).n = e.n := rfl
@[simp] theorem latch_runCtr (r : Regs) (e : Eng) : (latch r e).runCtr = e.runCtr := rfl
@[simp] theorem latch_ctr0 (r : Regs) (e : Eng) : (latch r e).ctr0 = r.counter := rfl
@[simp] theorem latch_src (r : Regs) (e : Eng) : (latch r e).src = r.srcAddr := rfl
@[simp] theorem latch_dst (r : Regs) (e : Eng) : (latch r e).dst = r.dstAddr := rfl
@[simp] theorem latch_len (r : Regs) (e : Eng) : (latch r e).len = r.srcLen := rfl
@[simp] theorem latch_abortPend (r : Regs) (e : Eng) : (latch r e).abortPend = false := rfl
@[simp] theorem latch_key (r : Regs) (e : Eng) : (latch r e).key = r.key := rfl
@[simp] theorem latch_nonce (r : Regs) (e : Eng) : (latch r e).nonce = r.nonce := rfl
@[simp] theorem latch_ks (r : Regs) (e : Eng) : (latch r e).ks = e.ks := rfl
@[simp] theorem latch_buf (r : Regs) (e : Eng) : (latch r e).buf = e.buf := rfl
@[simp] theorem latch_awaiting (r : Regs) (e : Eng) : (latch r e).awaiting = e.awaiting := rfl
@[simp] theorem Eng.zero_phase : Eng.zero.phase = .idle := rfl
@[simp] theorem Eng.zero_j : Eng.zero.j = 0 := rfl
@[simp] theorem Eng.zero_i : Eng.zero.i = 0 := rfl
@[simp] theorem Eng.zero_n : Eng.zero.n = 0 := rfl
@[simp] theorem Eng.zero_runCtr : Eng.zero.runCtr = 0 := rfl
@[simp] theorem Eng.zero_ctr0 : Eng.zero.ctr0 = 0 := rfl
@[simp] theorem Eng.zero_src : Eng.zero.src = 0 := rfl
@[simp] theorem Eng.zero_dst : Eng.zero.dst = 0 := rfl
@[simp] theorem Eng.zero_len : Eng.zero.len = 0 := rfl
@[simp] theorem Eng.zero_abortPend : Eng.zero.abortPend = false := rfl
@[simp] theorem Eng.zero_awaiting : Eng.zero.awaiting = false := rfl

/-! ### BUSY -/

theorem busy_eq_true {s : State} : s.busy = true ↔ s.eng.phase ≠ .idle := by
  simp [State.busy]

theorem busy_eq_false {s : State} : s.busy = false ↔ s.eng.phase = .idle := by
  simp [State.busy]

@[simp] theorem completeStatus_busy (res : Result) (s : State) : (completeStatus res s).busy = false := rfl
@[simp] theorem complete_busy (res : Result) (nc db ea : Word) (s : State) :
    (complete res nc db ea s).busy = false := rfl
@[simp] theorem resetBlock_busy (s : State) : (resetBlock s).busy = false := rfl
@[simp] theorem acceptApply_busy (s : State) : (acceptApply s).busy = true := rfl
@[simp] theorem engineWaits_busy (s : State) : (engineWaits s).busy = s.busy := rfl

end Sys2Proof.Machine
end

