-- ==== Sys2Proof/Laws/Decode.lean ====
section
/-! SUPPORT. The laws of decoding: command words, register offsets and register addresses in the window. -/

namespace Sys2Proof.Machine

/-! ### Command words -/

@[simp] theorem cmdFields_wordOfFields (f : CmdFields) : cmdFields (wordOfFields f) = f := by
  obtain ⟨r, o⟩ := f
  simp only [cmdFields, wordOfFields, CmdFields.mk.injEq]
  constructor <;> ext i hi <;> simp <;> grind

@[simp] theorem wordOfFields_cmdFields (w : Word) : wordOfFields (cmdFields w) = w := by
  ext i hi
  simp [cmdFields, wordOfFields]
  grind

theorem commandOfOpcode_eq_some {op : BitVec 4} {i : Instr} :
    commandOfOpcode op = some i ↔ op = opcodeOf i := by
  unfold commandOfOpcode
  split_ifs with h1 h2 h3
  · subst h1; cases i <;> decide
  · subst h2; cases i <;> decide
  · subst h3; cases i <;> decide
  · cases i <;> simp_all [opcodeOf]

/-- A word decodes to a command exactly when it is the command's word. -/
theorem decode_eq_instr {w : Word} {i : Instr} : decode w = .instr i ↔ encode i = w := by
  have key : decode w = .instr i ↔ (cmdFields w).rsv = 0 ∧ (cmdFields w).op = opcodeOf i := by
    unfold decode
    split_ifs with h
    · rw [← commandOfOpcode_eq_some]
      cases commandOfOpcode (cmdFields w).op <;> simp [h]
    · simp only [false_iff, not_and]
      exact fun h' => absurd h' h
  rw [key]
  constructor
  · rintro ⟨h1, h2⟩
    rw [encode, ← h1, ← h2, wordOfFields_cmdFields]
  · rintro rfl
    simp [encode]

@[simp] theorem decode_encode (i : Instr) : decode (encode i) = .instr i := decode_eq_instr.2 rfl

/-! ### Byte lanes -/

@[simp] theorem lanesOfWord_wordOfLanes (b0 b1 b2 b3 : Byte) :
    lanesOfWord (wordOfLanes b0 b1 b2 b3) = [b0, b1, b2, b3] := by
  simp only [lanesOfWord, wordOfLanes, List.cons.injEq, and_true]
  refine ⟨?_, ?_, ?_, ?_⟩ <;> ext i hi <;> simp <;> grind

@[simp] theorem wordOfLanes_lanes (w : Word) :
    wordOfLanes (w.extractLsb' 0 8) (w.extractLsb' 8 8) (w.extractLsb' 16 8) (w.extractLsb' 24 8) = w := by
  ext i hi
  simp [wordOfLanes]
  grind

@[simp] theorem decodeBytes_lanesOfWord (w : Word) : decodeBytes (lanesOfWord w) = decode w := by
  simp [lanesOfWord, decodeBytes]

/-! ### Register offsets -/

@[simp] theorem decodeOffset_encodeOffset (r : Reg) : decodeOffset (encodeOffset r) = some r := by
  cases r with
  | key k => revert k; decide
  | nonce k => revert k; decide
  | ks k => revert k; decide
  | _ => decide

theorem encodeOffset_of_decodeOffset {o : BitVec 8} {r : Reg} (h : decodeOffset o = some r) :
    encodeOffset r = o := by
  have key : ∀ o : BitVec 8, (decodeOffset o).all (fun r => encodeOffset r = o) = true := by decide
  have := key o
  rw [h] at this
  simpa using this

theorem encodeOffset_aligned (r : Reg) : (encodeOffset r).extractLsb' 0 2 = 0 := by
  cases r with
  | key k => revert k; decide
  | nonce k => revert k; decide
  | ks k => revert k; decide
  | _ => decide

/-! ### Register addresses -/

@[simp] theorem offsetOf_regAddress (p : Platform) (r : Reg) : offsetOf (regAddress p r) = encodeOffset r := by
  ext i hi
  simp [offsetOf, regAddress, windowBase]
  grind

@[simp] theorem inWindow_regAddress (p : Platform) (r : Reg) : inWindow p (regAddress p r) = true := by
  simp only [inWindow, beq_iff_eq]
  ext i hi
  simp [regAddress, windowBase]
  grind

theorem address_eq_of_window {p : Platform} {a : Word} {r : Reg} (hw : inWindow p a = true)
    (ho : offsetOf a = encodeOffset r) : a = regAddress p r := by
  rw [inWindow, beq_iff_eq] at hw
  rw [regAddress, windowBase, ← hw, ← ho]
  ext i hi
  simp [offsetOf]
  grind

/-- A 32-bit access reaches a register exactly at the register's address. -/
theorem decodeAccess_iff {p : Platform} {a : Access} {r : Reg} (hs : a.size = 4) :
    (inWindow p a.addr = true ∧ decodeAccess a = some r) ↔ a.addr = regAddress p r := by
  constructor
  · rintro ⟨hw, hd⟩
    unfold decodeAccess at hd
    split at hd
    · exact address_eq_of_window hw (encodeOffset_of_decodeOffset hd).symm
    · simp at hd
  · intro h
    refine ⟨by simp [h], ?_⟩
    have h2 : (regAddress p r).extractLsb' 0 2 = 0 := by
      have := encodeOffset_aligned r
      rw [← offsetOf_regAddress p r, offsetOf, BitVec.extractLsb'_extractLsb'_of_le (by decide)] at this
      exact this
    simp [decodeAccess, Access.wf, hs, h2, h]

@[simp] theorem decodeAccess_cmdWriteAccess (p : Platform) (w : Word) :
    decodeAccess (cmdWriteAccess p w) = some .cmd :=
  ((decodeAccess_iff (p := p) (a := cmdWriteAccess p w) rfl).2 rfl).2

end Sys2Proof.Machine
end

