-- ==== Sys2Proof/Laws/Effects.lean ====
section
/-! SUPPORT. What each kind of step can do, said once: one inductive relation for the commands, the register
writes, the engine steps and the events, and the theorem that an answer `next t` is one of its cases. The
statements about steps are proved by cases on these, not by unfolding the machine. -/

namespace Sys2Proof.Machine

/-! ### Commands -/

/-- What the write of a command to CMD can do. -/
inductive CommandEffect (s : State) : Instr → State → Prop where
  | genDropped (hb : s.busy = true) : CommandEffect s .gen (dropWrite s)
  | genStarts (hb : s.busy = false) : CommandEffect s .gen (enterPhase .gen (start s))
  | applyDropped (hb : s.busy = true) : CommandEffect s .apply (dropWrite s)
  | applyCompletes (hb : s.busy = false) (res : Result) (hr : issueResult s.regs = some res) :
      CommandEffect s .apply (complete res s.regs.counter 0 0 s)
  | applyStarts (hb : s.busy = false) (hr : issueResult s.regs = none)
      (hn : applyNormal s.env.plat s.regs = true) : CommandEffect s .apply (acceptApply s)
  | abortRequests (hb : s.busy = true) : CommandEffect s .abort { s with eng := { s.eng with abortPend := true } }
  | abortIdle (hb : s.busy = false) : CommandEffect s .abort s

theorem exec_effect {i : Instr} {s t : State} (h : exec i s = .next t) : CommandEffect s i t := by
  cases i with
  | gen =>
    simp only [exec, execGen] at h
    split at h <;> cases h
    · exact .genDropped ‹_›
    · exact .genStarts (by simpa using ‹¬s.busy = true›)
  | apply =>
    simp only [exec, execApply] at h
    split at h
    · cases h; exact .applyDropped ‹_›
    · have hb : s.busy = false := by simpa using ‹¬s.busy = true›
      split at h
      · cases h; exact .applyCompletes hb _ ‹_›
      · split at h <;> cases h
        exact .applyStarts hb ‹_› ‹_›
  | abort =>
    simp only [exec, execAbort] at h
    split at h <;> cases h
    · exact .abortRequests ‹_›
    · exact .abortIdle (by simpa using ‹¬s.busy = true›)

/-- A command never faults. -/
theorem exec_ne_fault (i : Instr) (s : State) (f : Fault) : exec i s ≠ .fault f := by
  cases i <;> simp only [exec, execGen, execApply, execAbort] <;> repeat' split
  all_goals simp

/-- A command is refused only where an APPLY names what is no normal memory. -/
theorem exec_refused {i : Instr} {s : State} {r : Refusal} (h : exec i s = .refused r) :
    i = .apply ∧ r = .applyNotNormalMemory ∧ s.busy = false ∧ issueResult s.regs = none ∧
      applyNormal s.env.plat s.regs = false := by
  cases i <;> simp only [exec, execGen, execApply, execAbort] at h
  · split at h <;> cases h
  · split at h
    · cases h
    · split at h
      · cases h
      · split at h <;> cases h
        simp_all
  · split at h <;> cases h

/-! ### Register writes -/

/-- The registers whose writes are busy-locked (10_state.md R21), with what a write of `w` makes of the register file. -/
inductive LockedWrite (regs : Regs) (w : Word) : Reg → Regs → Prop where
  | counter : LockedWrite regs w .counter { regs with counter := w }
  | srcAddr : LockedWrite regs w .srcAddr { regs with srcAddr := w }
  | dstAddr : LockedWrite regs w .dstAddr { regs with dstAddr := w }
  | srcLen : LockedWrite regs w .srcLen { regs with srcLen := w }
  | dstLen : LockedWrite regs w .dstLen { regs with dstLen := w }
  | key (k : Fin 8) : LockedWrite regs w (.key k) { regs with key := regs.key.set k w }
  | nonce (k : Fin 3) : LockedWrite regs w (.nonce k) { regs with nonce := regs.nonce.set k w }

/-- The registers a write to which is ignored (20_memory.md R76). -/
inductive ReadOnly : Reg → Prop where
  | id : ReadOnly .id
  | nextCtr : ReadOnly .nextCtr
  | doneBytes : ReadOnly .doneBytes
  | errAddr : ReadOnly .errAddr
  | ks (k : Fin 16) : ReadOnly (.ks k)

/-- What the write of a word to a register can do. -/
inductive WriteEffect (s : State) : Reg → Word → State → Prop where
  | command {i : Instr} {w : Word} {t : State} (hd : decode w = .instr i) (h : CommandEffect s i t) :
      WriteEffect s .cmd w t
  | reservedDropped {w : Word} {why : ReservedWord} (hd : decode w = .reserved why) (hb : s.busy = true) :
      WriteEffect s .cmd w (dropWrite s)
  | reservedBad {w : Word} {why : ReservedWord} (hd : decode w = .reserved why) (hb : s.busy = false) :
      WriteEffect s .cmd w (completeStatus .badcmd s)
  | status (w : Word) : WriteEffect s .status w (acknowledge w s)
  | irqEn (w : Word) : WriteEffect s .irqEn w { s with doneIe := w.getLsbD 0 }
  | lockedDropped {r : Reg} {w : Word} {regs' : Regs} (hl : LockedWrite s.regs w r regs') (hb : s.busy = true) :
      WriteEffect s r w (dropWrite s)
  | lockedSet {r : Reg} {w : Word} {regs' : Regs} (hl : LockedWrite s.regs w r regs') (hb : s.busy = false) :
      WriteEffect s r w { s with regs := regs' }
  | ignored {r : Reg} (w : Word) (hr : ReadOnly r) : WriteEffect s r w s

theorem writeLocked_effect {s : State} {r : Reg} {w : Word} {regs' : Regs} (hl : LockedWrite s.regs w r regs') :
    WriteEffect s r w (writeLocked regs' s) := by
  unfold writeLocked
  split
  · exact .lockedDropped hl ‹_›
  · exact .lockedSet hl (by simpa using ‹¬s.busy = true›)

theorem writeCmd_effect {s t : State} {w : Word} (h : writeCmd w s = .next t) : WriteEffect s .cmd w t := by
  unfold writeCmd at h
  split at h
  · exact .command ‹_› (exec_effect h)
  · cases h
    unfold reservedCommand
    split
    · exact .reservedDropped ‹_› ‹_›
    · exact .reservedBad ‹_› (by simpa using ‹¬s.busy = true›)

theorem writeReg_effect {s t : State} {r : Reg} {w : Word} (h : writeReg r w s = .next t) :
    WriteEffect s r w t := by
  cases r <;> simp only [writeReg, Host.Outcome.next.injEq] at h
  case cmd => exact writeCmd_effect h
  case status => subst h; exact .status w
  case irqEn => subst h; exact .irqEn w
  case counter => subst h; exact writeLocked_effect .counter
  case srcAddr => subst h; exact writeLocked_effect .srcAddr
  case dstAddr => subst h; exact writeLocked_effect .dstAddr
  case srcLen => subst h; exact writeLocked_effect .srcLen
  case dstLen => subst h; exact writeLocked_effect .dstLen
  case key k => subst h; exact writeLocked_effect (.key k)
  case nonce k => subst h; exact writeLocked_effect (.nonce k)
  case id => subst h; exact .ignored w .id
  case nextCtr => subst h; exact .ignored w .nextCtr
  case doneBytes => subst h; exact .ignored w .doneBytes
  case errAddr => subst h; exact .ignored w .errAddr
  case ks k => subst h; exact .ignored w (.ks k)

/-! ### Engine steps -/

/-- The engine after it has read byte `b`, where more bytes of the block follow. -/
def readMore (b : Byte) (i' : Fin 64) (e : Eng) : Eng := { e with buf := e.buf.set e.i b, i := i' }

/-- The engine after it has read byte `b`, the last of the block. -/
def readLast (b : Byte) (e : Eng) : Eng := { e with buf := e.buf.set e.i b, i := 0, phase := .wr }

/-- What an engine step can do. -/
inductive EngineEffect (s : State) : MemAnswer → State → Prop where
  | waiting {ans : MemAnswer} (ha : s.eng.awaiting = true) : EngineEffect s ans s
  | idle {ans : MemAnswer} (ha : s.eng.awaiting = false) (hp : s.eng.phase = .idle) : EngineEffect s ans s
  | gen {ans : MemAnswer} (ha : s.eng.awaiting = false) (hp : s.eng.phase = .gen) :
      EngineEffect s ans (complete .ok (add32 s.eng.ctr0 1) 0 0
        { s with regs := { s.regs with ks := blockWords s.eng.key s.eng.nonce s.eng.ctr0 } })
  | aborted {ans : MemAnswer} (ha : s.eng.awaiting = false) (hp : s.eng.phase = .blk) (hab : s.eng.abortPend = true) :
      EngineEffect s ans (complete .aborted s.eng.runCtr (blockBase s.eng) 0 s)
  | blk {ans : MemAnswer} (ha : s.eng.awaiting = false) (hp : s.eng.phase = .blk) (hab : s.eng.abortPend = false) :
      EngineEffect s ans { s with eng := { s.eng with
        ks := blockBytes s.eng.key s.eng.nonce s.eng.runCtr, runCtr := add32 s.eng.runCtr 1, n := blockLength s.eng,
        i := 0, phase := .rd } }
  | noResponse (ha : s.eng.awaiting = false) (hp : s.eng.phase = .rd ∨ s.eng.phase = .wr)
      (hr : s.eng.phase = .rd → rdAddress s.eng < 2 ^ 32) (hw : s.eng.phase = .wr → wrAddress s.eng < 2 ^ 32) :
      EngineEffect s .noResponse (engineWaits s)
  | rdError (ha : s.eng.awaiting = false) (hp : s.eng.phase = .rd) (hlt : rdAddress s.eng < 2 ^ 32) :
      EngineEffect s .busError
        (complete .bus s.eng.runCtr (blockBase s.eng) (BitVec.ofNat 32 (rdAddress s.eng)) s)
  | rdMore (ha : s.eng.awaiting = false) (hp : s.eng.phase = .rd) (hlt : rdAddress s.eng < 2 ^ 32) (i' : Fin 64)
      (hi : i'.val = s.eng.i.val + 1) (hn : s.eng.i.val + 1 ≠ s.eng.n.val) :
      EngineEffect s .ok { (dmaRead (rdAddress s.eng) s).2 with
        eng := readMore (dmaRead (rdAddress s.eng) s).1 i' s.eng }
  | rdLast (ha : s.eng.awaiting = false) (hp : s.eng.phase = .rd) (hlt : rdAddress s.eng < 2 ^ 32)
      (hn : s.eng.i.val + 1 = s.eng.n.val) :
      EngineEffect s .ok { (dmaRead (rdAddress s.eng) s).2 with
        eng := readLast (dmaRead (rdAddress s.eng) s).1 s.eng }
  | wrError (ha : s.eng.awaiting = false) (hp : s.eng.phase = .wr) (hlt : wrAddress s.eng < 2 ^ 32) :
      EngineEffect s .busError
        (complete .bus s.eng.runCtr (BitVec.ofNat 32 (byteIndex s.eng)) (BitVec.ofNat 32 (wrAddress s.eng))
          (storeFree (wrAddress s.eng) s))
  | wrMore (ha : s.eng.awaiting = false) (hp : s.eng.phase = .wr) (hlt : wrAddress s.eng < 2 ^ 32) (i' : Fin 64)
      (hi : i'.val = s.eng.i.val + 1) (hn : s.eng.i.val + 1 ≠ s.eng.n.val) :
      EngineEffect s .ok { dmaWrite (wrAddress s.eng) (wrByte s.eng) s with eng := { s.eng with i := i' } }
  | wrNextBlock (ha : s.eng.awaiting = false) (hp : s.eng.phase = .wr) (hlt : wrAddress s.eng < 2 ^ 32)
      (hn : s.eng.i.val + 1 = s.eng.n.val) (hl : 64 * (s.eng.j.toNat + 1) < s.eng.len.toNat) :
      EngineEffect s .ok { dmaWrite (wrAddress s.eng) (wrByte s.eng) s with
        eng := { s.eng with j := s.eng.j + 1, i := 0, phase := .blk } }
  | wrDone (ha : s.eng.awaiting = false) (hp : s.eng.phase = .wr) (hlt : wrAddress s.eng < 2 ^ 32)
      (hn : s.eng.i.val + 1 = s.eng.n.val) (hl : s.eng.len.toNat ≤ 64 * (s.eng.j.toNat + 1)) :
      EngineEffect s .ok (complete .ok s.eng.runCtr s.eng.len 0 (dmaWrite (wrAddress s.eng) (wrByte s.eng) s))

@[simp] theorem dmaRead_eng (a : Nat) (s : State) : (dmaRead a s).2.eng = s.eng := by
  unfold dmaRead; split <;> rfl
@[simp] theorem dmaRead_regs (a : Nat) (s : State) : (dmaRead a s).2.regs = s.regs := by
  unfold dmaRead; split <;> rfl
@[simp] theorem dmaRead_status (a : Nat) (s : State) : (dmaRead a s).2.status = s.status := by
  unfold dmaRead; split <;> rfl
@[simp] theorem dmaRead_doneIe (a : Nat) (s : State) : (dmaRead a s).2.doneIe = s.doneIe := by
  unfold dmaRead; split <;> rfl
@[simp] theorem dmaRead_mem (a : Nat) (s : State) : (dmaRead a s).2.mem = s.mem := by
  unfold dmaRead; split <;> rfl
@[simp] theorem dmaRead_plat (a : Nat) (s : State) : (dmaRead a s).2.env.plat = s.env.plat := by
  unfold dmaRead; split <;> rfl
@[simp] theorem dmaRead_script (a : Nat) (s : State) : (dmaRead a s).2.env.script = s.env.script := by
  unfold dmaRead; split <;> rfl
@[simp] theorem dmaRead_reply (a : Nat) (s : State) : (dmaRead a s).2.env.reply = s.env.reply := by
  unfold dmaRead; split <;> rfl
@[simp] theorem dmaRead_owned (a : Nat) (s : State) : (dmaRead a s).2.env.owned = s.env.owned := by
  unfold dmaRead; split <;> rfl
@[simp] theorem dmaRead_raced (a : Nat) (s : State) : (dmaRead a s).2.env.raced = s.env.raced := by
  unfold dmaRead; split <;> rfl

@[simp] theorem dmaWrite_eng (a : Nat) (v : Byte) (s : State) : (dmaWrite a v s).eng = s.eng := by
  unfold dmaWrite; split <;> rfl
@[simp] theorem dmaWrite_regs (a : Nat) (v : Byte) (s : State) : (dmaWrite a v s).regs = s.regs := by
  unfold dmaWrite; split <;> rfl
@[simp] theorem dmaWrite_status (a : Nat) (v : Byte) (s : State) : (dmaWrite a v s).status = s.status := by
  unfold dmaWrite; split <;> rfl
@[simp] theorem dmaWrite_doneIe (a : Nat) (v : Byte) (s : State) : (dmaWrite a v s).doneIe = s.doneIe := by
  unfold dmaWrite; split <;> rfl
@[simp] theorem dmaWrite_plat (a : Nat) (v : Byte) (s : State) : (dmaWrite a v s).env.plat = s.env.plat := by
  unfold dmaWrite; split <;> rfl
@[simp] theorem dmaWrite_script (a : Nat) (v : Byte) (s : State) : (dmaWrite a v s).env.script = s.env.script := by
  unfold dmaWrite; split <;> rfl
@[simp] theorem dmaWrite_reply (a : Nat) (v : Byte) (s : State) : (dmaWrite a v s).env.reply = s.env.reply := by
  unfold dmaWrite; split <;> rfl
@[simp] theorem dmaWrite_owned (a : Nat) (v : Byte) (s : State) : (dmaWrite a v s).env.owned = s.env.owned := by
  unfold dmaWrite; split <;> rfl
@[simp] theorem dmaWrite_raced (a : Nat) (v : Byte) (s : State) : (dmaWrite a v s).env.raced = s.env.raced := by
  unfold dmaWrite; split <;> rfl

/-- Where no agent raced, a DMA read returns memory's byte and changes nothing. -/
theorem dmaRead_unraced {a : Nat} {s : State} (h : isRaced s a = false) : dmaRead a s = (memRead s.mem a, s) := by
  simp [dmaRead, h]

/-- Where no agent raced, a DMA write stores the byte. -/
theorem dmaWrite_unraced {a : Nat} {s : State} (v : Byte) (h : isRaced s a = false) :
    dmaWrite a v s = storeByte a v s := by
  simp [dmaWrite, h]

/-- Where an agent raced, a DMA read returns a free byte. -/
theorem dmaRead_isRaced {a : Nat} {s : State} (h : isRaced s a = true) : dmaRead a s = (freshByte s, drawn s) := by
  simp [dmaRead, h]

/-- Where an agent raced, a DMA write leaves a free byte. -/
theorem dmaWrite_isRaced {a : Nat} {s : State} (v : Byte) (h : isRaced s a = true) :
    dmaWrite a v s = storeFree a s := by
  simp [dmaWrite, h]

/-- A DMA write writes some byte at its address, and no other. -/
theorem dmaWrite_mem (a : Nat) (v : Byte) (s : State) : ∃ b, (dmaWrite a v s).mem = memWrite s.mem a b := by
  unfold dmaWrite
  split
  · exact ⟨freshByte s, rfl⟩
  · exact ⟨v, rfl⟩

theorem isLastByte_iff {e : Eng} : isLastByte e = true ↔ e.i.val + 1 = e.n.val := by
  simp [isLastByte]

theorem isLastBlock_iff {e : Eng} : isLastBlock e = true ↔ e.len.toNat ≤ 64 * (e.j.toNat + 1) := by
  simp [isLastBlock]

theorem afterRead_effect {b : Byte} {s t : State} (h : afterRead b s = .next t) :
    (s.eng.i.val + 1 = s.eng.n.val ∧ t = { s with eng := readLast b s.eng }) ∨
    (s.eng.i.val + 1 ≠ s.eng.n.val ∧
      ∃ i' : Fin 64, i'.val = s.eng.i.val + 1 ∧ t = { s with eng := readMore b i' s.eng }) := by
  simp only [afterRead] at h
  split at h
  · cases h
    exact .inl ⟨isLastByte_iff.1 ‹_›, rfl⟩
  · next hn =>
    split at h <;> cases h
    exact .inr ⟨fun he => hn (isLastByte_iff.2 he), _, rfl, rfl⟩

theorem afterWrite_effect {s t : State} (h : afterWrite s = .next t) :
    (s.eng.i.val + 1 = s.eng.n.val ∧ s.eng.len.toNat ≤ 64 * (s.eng.j.toNat + 1) ∧
      t = complete .ok s.eng.runCtr s.eng.len 0 s) ∨
    (s.eng.i.val + 1 = s.eng.n.val ∧ 64 * (s.eng.j.toNat + 1) < s.eng.len.toNat ∧
      t = { s with eng := { s.eng with j := s.eng.j + 1, i := 0, phase := .blk } }) ∨
    (s.eng.i.val + 1 ≠ s.eng.n.val ∧
      ∃ i' : Fin 64, i'.val = s.eng.i.val + 1 ∧ t = { s with eng := { s.eng with i := i' } }) := by
  simp only [afterWrite] at h
  split at h
  · have hn := isLastByte_iff.1 ‹_›
    split at h
    · cases h
      exact .inl ⟨hn, isLastBlock_iff.1 ‹_›, rfl⟩
    · next hl =>
      cases h
      exact .inr (.inl ⟨hn, not_le.1 fun hle => hl (isLastBlock_iff.2 hle), rfl⟩)
  · next hn =>
    split at h <;> cases h
    exact .inr (.inr ⟨fun he => hn (isLastByte_iff.2 he), _, rfl, rfl⟩)

theorem engineStep_effect {s t : State} {ans : MemAnswer} (h : engineStep ans s = .next t) :
    EngineEffect s ans t := by
  unfold engineStep at h
  split at h
  · cases h; exact .waiting ‹_›
  · have ha : s.eng.awaiting = false := by simpa using ‹¬s.eng.awaiting = true›
    split at h
    · cases h; exact .idle ha ‹_›
    · cases h; exact .gen ha ‹_›
    · next hp =>
      unfold blkStep at h
      split at h <;> cases h
      · exact .aborted ha hp ‹_›
      · exact .blk ha hp (by simpa using ‹¬s.eng.abortPend = true›)
    · next hp =>
      simp only [rdStep] at h
      split at h
      · cases h
      · have hlt := not_le.1 ‹¬2 ^ 32 ≤ rdAddress s.eng›
        split at h
        · rcases afterRead_effect h with ⟨hn, rfl⟩ | ⟨hn, i', hi, rfl⟩
          · simp only [dmaRead_eng] at hn ⊢
            exact .rdLast ha hp hlt hn
          · simp only [dmaRead_eng] at hn hi ⊢
            exact .rdMore ha hp hlt i' hi hn
        · cases h; exact .rdError ha hp hlt
        · cases h; exact .noResponse ha (.inl hp) (fun _ => hlt) (by simp [hp])
    · next hp =>
      simp only [wrStep] at h
      split at h
      · cases h
      · have hlt := not_le.1 ‹¬2 ^ 32 ≤ wrAddress s.eng›
        split at h
        · rcases afterWrite_effect h with ⟨hn, hl, rfl⟩ | ⟨hn, hl, rfl⟩ | ⟨hn, i', hi, rfl⟩
          · simp only [dmaWrite_eng] at hn hl ⊢
            exact .wrDone ha hp hlt hn hl
          · simp only [dmaWrite_eng] at hn hl ⊢
            exact .wrNextBlock ha hp hlt hn hl
          · simp only [dmaWrite_eng] at hn hi ⊢
            exact .wrMore ha hp hlt i' hi hn
        · cases h; exact .wrError ha hp hlt
        · cases h; exact .noResponse ha (.inr hp) (by simp [hp]) (fun _ => hlt)

/-! ### The engine step in each phase, as an equation -/

theorem engineStep_gen {s : State} (ans : MemAnswer) (ha : s.eng.awaiting = false) (hp : s.eng.phase = .gen) :
    engineStep ans s = genStep s := by
  simp [engineStep, ha, hp]

theorem engineStep_blk {s : State} (ans : MemAnswer) (ha : s.eng.awaiting = false) (hp : s.eng.phase = .blk) :
    engineStep ans s = blkStep s := by
  simp [engineStep, ha, hp]

theorem engineStep_rd {s : State} (ans : MemAnswer) (ha : s.eng.awaiting = false) (hp : s.eng.phase = .rd) :
    engineStep ans s = rdStep ans s := by
  simp [engineStep, ha, hp]

theorem engineStep_wr {s : State} (ans : MemAnswer) (ha : s.eng.awaiting = false) (hp : s.eng.phase = .wr) :
    engineStep ans s = wrStep ans s := by
  simp [engineStep, ha, hp]

theorem rdStep_noResponse {s : State} (hlt : rdAddress s.eng < 2 ^ 32) :
    rdStep .noResponse s = .next (engineWaits s) := if_neg (not_le.2 hlt)

theorem wrStep_noResponse {s : State} (hlt : wrAddress s.eng < 2 ^ 32) :
    wrStep .noResponse s = .next (engineWaits s) := if_neg (not_le.2 hlt)

theorem rdStep_busError {s : State} (hlt : rdAddress s.eng < 2 ^ 32) :
    rdStep .busError s =
      .next (complete .bus s.eng.runCtr (blockBase s.eng) (BitVec.ofNat 32 (rdAddress s.eng)) s) :=
  if_neg (not_le.2 hlt)

theorem wrStep_busError {s : State} (hlt : wrAddress s.eng < 2 ^ 32) :
    wrStep .busError s =
      .next (complete .bus s.eng.runCtr (BitVec.ofNat 32 (byteIndex s.eng)) (BitVec.ofNat 32 (wrAddress s.eng))
        (storeFree (wrAddress s.eng) s)) :=
  if_neg (not_le.2 hlt)

theorem rdStep_ok {s : State} (hlt : rdAddress s.eng < 2 ^ 32) :
    rdStep .ok s = afterRead (dmaRead (rdAddress s.eng) s).1 (dmaRead (rdAddress s.eng) s).2 :=
  if_neg (not_le.2 hlt)

theorem wrStep_ok {s : State} (hlt : wrAddress s.eng < 2 ^ 32) :
    wrStep .ok s = afterWrite (dmaWrite (wrAddress s.eng) (wrByte s.eng) s) :=
  if_neg (not_le.2 hlt)

theorem afterRead_last {b : Byte} {s : State} (hn : s.eng.i.val + 1 = s.eng.n.val) :
    afterRead b s = .next { s with eng := readLast b s.eng } :=
  if_pos (isLastByte_iff.2 hn)

theorem afterRead_more {b : Byte} {s : State} (hn : s.eng.i.val + 1 ≠ s.eng.n.val) (hi : s.eng.i.val + 1 < 64) :
    afterRead b s = .next { s with eng := readMore b ⟨s.eng.i.val + 1, hi⟩ s.eng } :=
  (if_neg fun h => hn (isLastByte_iff.1 h)).trans (dif_pos hi)

theorem afterWrite_done {s : State} (hn : s.eng.i.val + 1 = s.eng.n.val)
    (hl : s.eng.len.toNat ≤ 64 * (s.eng.j.toNat + 1)) :
    afterWrite s = .next (complete .ok s.eng.runCtr s.eng.len 0 s) :=
  (if_pos (isLastByte_iff.2 hn)).trans (if_pos (isLastBlock_iff.2 hl))

theorem afterWrite_nextBlock {s : State} (hn : s.eng.i.val + 1 = s.eng.n.val)
    (hl : 64 * (s.eng.j.toNat + 1) < s.eng.len.toNat) :
    afterWrite s = .next { s with eng := { s.eng with j := s.eng.j + 1, i := 0, phase := .blk } } :=
  (if_pos (isLastByte_iff.2 hn)).trans (if_neg fun h => not_le.2 hl (isLastBlock_iff.1 h))

theorem afterWrite_more {s : State} (hn : s.eng.i.val + 1 ≠ s.eng.n.val) (hi : s.eng.i.val + 1 < 64) :
    afterWrite s = .next { s with eng := { s.eng with i := ⟨s.eng.i.val + 1, hi⟩ } } :=
  (if_neg fun h => hn (isLastByte_iff.1 h)).trans (dif_pos hi)

/-! ### Events -/

/-- What a host register access can do. -/
inductive AccessEffect (s : State) (a : Access) : State → Prop where
  | notSelected (hw : inWindow s.env.plat a.addr = false) : AccessEffect s a (withReply .notSelected s)
  | busError (hw : inWindow s.env.plat a.addr = true) (hd : decodeAccess a = none) :
      AccessEffect s a (withReply .busError s)
  | read {r : Reg} (hw : inWindow s.env.plat a.addr = true) (hd : decodeAccess a = some r) (hdir : a.dir = .read) :
      AccessEffect s a (hostRead r s)
  | write {r : Reg} {t : State} (hw : inWindow s.env.plat a.addr = true) (hd : decodeAccess a = some r)
      (hdir : a.dir = .write) (h : WriteEffect (withReply .okay s) r a.wdata t) : AccessEffect s a t

theorem hostAccess_effect {a : Access} {s t : State} (h : hostAccess a s = .next t) : AccessEffect s a t := by
  unfold hostAccess at h
  split at h
  · split at h
    · cases h; exact .busError ‹_› ‹_›
    · split at h
      · cases h; exact .read ‹_› ‹_› ‹_›
      · exact .write ‹_› ‹_› ‹_› (writeReg_effect h)
  · cases h; exact .notSelected (by simpa using ‹¬inWindow s.env.plat a.addr = true›)

/-- What one step of one agent can do. -/
inductive EventEffect (s : State) : Event → State → Prop where
  | host {a : Access} {t : State} (h : AccessEffect s a t) : EventEffect s (.host a) t
  | loadRaces (addr : Word) (hn : normalRange s.env.plat addr.toNat 1 = true) (hr : racesLoad s addr.toNat = true) :
      EventEffect s (.memLoad addr)
        (withReply (.byte (freshByte s)) (raceOn (loadRegions s addr.toNat) (drawn s)))
  | load (addr : Word) (hn : normalRange s.env.plat addr.toNat 1 = true) (hr : racesLoad s addr.toNat = false) :
      EventEffect s (.memLoad addr) (withReply (.byte (memRead s.mem addr.toNat)) s)
  | storeRaces (addr : Word) (v : Byte) (hn : normalRange s.env.plat addr.toNat 1 = true)
      (hr : racesStore s addr.toNat = true) :
      EventEffect s (.memStore addr v) (withReply .okay (raceOn (storeRegions s addr.toNat) s))
  | store (addr : Word) (v : Byte) (hn : normalRange s.env.plat addr.toNat 1 = true)
      (hr : racesStore s addr.toNat = false) :
      EventEffect s (.memStore addr v) (withReply .okay (storeByte addr.toNat v s))
  | sampleHigh (hi : s.irq = true) : EventEffect s .sampleIrq (withReply (.level true) (observed s))
  | sampleLow (hi : s.irq = false) : EventEffect s .sampleIrq (withReply (.level false) s)
  | engine {ans : MemAnswer} {t : State} (h : EngineEffect s ans t) : EventEffect s (.engine ans) t
  | rstInFlight (b : Bool) (hf : writeInFlight b s = true) :
      EventEffect s (.rst b) (resetBlock (storeFree (wrAddress s.eng) s))
  | rst (b : Bool) (hf : writeInFlight b s = false) : EventEffect s (.rst b) (resetBlock s)

theorem runEvent_effect {ev : Event} {s t : State} (h : runEvent ev s = .next t) : EventEffect s ev t := by
  cases ev <;> simp only [runEvent] at h
  case host a => exact .host (hostAccess_effect h)
  case memLoad addr =>
    unfold hostLoad at h
    split at h
    · split at h <;> cases h
      · exact .loadRaces addr ‹_› ‹_›
      · exact .load addr ‹_› (by simpa using ‹¬racesLoad s addr.toNat = true›)
    · cases h
  case memStore addr v =>
    unfold hostStore at h
    split at h
    · split at h <;> cases h
      · exact .storeRaces addr v ‹_› ‹_›
      · exact .store addr v ‹_› (by simpa using ‹¬racesStore s addr.toNat = true›)
    · cases h
  case sampleIrq =>
    cases h
    unfold hostSampleIrq
    cases hi : s.irq
    · simpa using EventEffect.sampleLow hi
    · simpa using EventEffect.sampleHigh hi
  case engine ans => exact .engine (engineStep_effect h)
  case rst b =>
    cases h
    unfold assertReset
    split
    · exact .rstInFlight b ‹_›
    · exact .rst b (by simpa using ‹¬writeInFlight b s = true›)

/-! ### The step -/

theorem step_eq (s : State) : step s = runEvent (nextEvent s) (popScript s) := rfl

theorem nextEvent_of_head {s : State} {ev : Event} (h : s.env.script.head? = some ev) : nextEvent s = ev := by
  unfold nextEvent
  cases hs : s.env.script <;> simp_all

/-- The script's next event is the step's. -/
theorem step_of_head {s : State} {ev : Event} (h : s.env.script.head? = some ev) :
    step s = runEvent ev (popScript s) := by
  rw [step_eq, nextEvent_of_head h]

/-- At the end of the script the engine goes on, with the memory's standing answer. -/
theorem step_of_nil {s : State} (h : s.env.script = []) :
    step s = engineStep s.env.standing (popScript s) := by
  simp [step_eq, nextEvent, h, runEvent]

/-- A step's answer is what its event can do. -/
theorem step_effect {s t : State} (h : step s = .next t) : EventEffect (popScript s) (nextEvent s) t :=
  runEvent_effect (by rw [← step_eq, h])

/-- An event that is not an engine step comes from the script. -/
theorem head_of_nextEvent {s : State} {ev : Event} (h : nextEvent s = ev) (he : ∀ ans, ev ≠ .engine ans) :
    s.env.script.head? = some ev := by
  unfold nextEvent at h
  split at h
  · exact absurd h.symm (he _)
  · next hs => simp [hs, h]

/-- A read of a register at its address. -/
theorem runEvent_read (s : State) (p : Platform) (r : Reg) (w : Word) (hp : s.env.plat = p) :
    runEvent (.host { dir := .read, addr := regAddress p r, size := 4, wdata := w }) s = .next (hostRead r s) := by
  have := (decodeAccess_iff (p := p) (a := { dir := .read, addr := regAddress p r, size := 4, wdata := w }) rfl).2 rfl
  simp [runEvent, hostAccess, hp, this.2]

/-- A write of a register at its address. -/
theorem runEvent_write (s : State) (p : Platform) (r : Reg) (w : Word) (hp : s.env.plat = p) :
    runEvent (.host { dir := .write, addr := regAddress p r, size := 4, wdata := w }) s =
      writeReg r w (withReply .okay s) := by
  have := (decodeAccess_iff (p := p) (a := { dir := .write, addr := regAddress p r, size := 4, wdata := w }) rfl).2 rfl
  simp [runEvent, hostAccess, hp, this.2]

@[simp] theorem popScript_scheduleCommand (w : Word) (s : State) : popScript (scheduleCommand w s) = s := rfl

/-- The step after `withFetchWord` runs exactly the instruction placed. -/
theorem step_withFetchWord (s : State) (i : Instr) :
    step (s.withFetchWord 32 (encode i).toNat) = exec i (withReply .okay s) := by
  have hw : BitVec.ofNat 32 ((encode i).toNat % 2 ^ 32) = encode i := by
    rw [Nat.mod_eq_of_lt (encode i).isLt, BitVec.ofNat_toNat, BitVec.setWidth_eq]
  rw [State.withFetchWord, hw,
    step_of_head (ev := .host (cmdWriteAccess s.env.plat (encode i))) (by simp), popScript_scheduleCommand,
    cmdWriteAccess, runEvent_write _ _ _ _ rfl, writeReg, writeCmd, decode_encode]

/-- Running `k + 1` steps is a step and then `k` steps. -/
theorem run_succ {k : Nat} {s t : State} (h : step s = .next t) :
    Host.Core.run core (k + 1) s = Host.Core.run core k t := by
  have h' : core.step s = .next t := h
  simp only [Host.Core.run, h']

/-- Running `a + b` steps is running `a` and then `b`. -/
theorem run_add {a b : Nat} {s t : State} (h : Host.Core.run core a s = .next t) :
    Host.Core.run core (a + b) s = Host.Core.run core b t := by
  induction a generalizing s with
  | zero => cases h; rw [Nat.zero_add]
  | succ a ih =>
    rw [Nat.succ_add]
    cases hs : step s with
    | next u => rw [run_succ hs] at h ⊢; exact ih h
    | fault f => have hs' : core.step s = .fault f := hs; simp [Host.Core.run, hs'] at h
    | refused r => have hs' : core.step s = .refused r := hs; simp [Host.Core.run, hs'] at h

/-- What every step keeps holds after any number of steps. -/
theorem run_keeps {P : State → Prop} (hstep : ∀ s t : State, P s → step s = .next t → P t) {k : Nat} {s t : State}
    (h0 : P s) (h : Host.Core.run core k s = .next t) : P t := by
  induction k generalizing s with
  | zero => cases h; exact h0
  | succ k ih =>
    cases hs : step s with
    | next u => rw [run_succ hs] at h; exact ih (hstep s u h0 hs) h
    | fault f => have hs' : core.step s = .fault f := hs; simp [Host.Core.run, hs'] at h
    | refused r => have hs' : core.step s = .refused r := hs; simp [Host.Core.run, hs'] at h

end Sys2Proof.Machine
end

