-- ==== Sys2Proof/Laws/Memory.lean ====
section
/-! SUPPORT. The laws of memory: a read after a write, and that every write keeps the canonical form. -/

namespace Sys2Proof.Machine

/-! ### The canonical form -/

theorem Mem.wf_nil : Mem.wf [] := by simp [Mem.wf]

theorem Mem.wf_cons {k : Nat} {b : Byte} {m : Mem} :
    Mem.wf ((k, b) :: m) ↔ (∀ c ∈ m, k < c.1) ∧ k < 2 ^ 32 ∧ b ≠ unlistedByte ∧ Mem.wf m := by
  simp only [Mem.wf, List.pairwise_cons, List.forall_mem_cons]
  tauto

theorem Mem.wf_memCons {a : Nat} {v : Byte} {m : Mem} (ha : a < 2 ^ 32) (h : Mem.wf m)
    (hlt : ∀ c ∈ m, a < c.1) : Mem.wf (memCons a v m) := by
  unfold memCons
  split
  · exact h
  · next hv => exact Mem.wf_cons.2 ⟨hlt, ha, hv, h⟩

/-- An address listed after a write is the one written or was listed before. -/
theorem mem_memWrite {m : Mem} {a : Nat} {v : Byte} {c : Host.Cell} (h : c ∈ memWrite m a v) :
    c.1 = a ∨ c ∈ m := by
  induction m with
  | nil =>
    simp only [memWrite, memCons] at h
    split at h <;> simp_all
  | cons d m ih =>
    simp only [memWrite, memCons] at h
    split_ifs at h <;> simp only [List.mem_cons] at h ⊢
    · tauto
    · rcases h with rfl | h <;> tauto
    · tauto
    · rcases h with rfl | h <;> tauto
    · rcases h with rfl | h
      · tauto
      · rcases ih h with h | h <;> tauto

/-- A write keeps the canonical form. -/
theorem memWrite_wf {m : Mem} {a : Nat} {v : Byte} (ha : a < 2 ^ 32) (h : Mem.wf m) :
    Mem.wf (memWrite m a v) := by
  induction m with
  | nil => exact Mem.wf_memCons ha h (by simp)
  | cons d m ih =>
    obtain ⟨k, b⟩ := d
    obtain ⟨hk, hk32, hb, hm⟩ := Mem.wf_cons.1 h
    simp only [memWrite]
    split_ifs with h1 h2
    · refine Mem.wf_memCons ha h ?_
      intro c hc
      rcases List.mem_cons.1 hc with rfl | hc
      · exact h1
      · exact lt_trans h1 (hk c hc)
    · exact Mem.wf_memCons ha hm (by rw [h2]; exact hk)
    · refine Mem.wf_cons.2 ⟨?_, hk32, hb, ih hm⟩
      intro c hc
      rcases mem_memWrite hc with hc | hc
      · omega
      · exact hk c hc

/-! ### Reading -/

theorem memRead_cons (k : Nat) (b : Byte) (m : Mem) (a : Nat) :
    memRead ((k, b) :: m) a = if a < k then unlistedByte else if a = k then b else memRead m a := rfl

/-- Below every listed address memory is unlisted. -/
theorem memRead_below {m : Mem} {a : Nat} (h : ∀ c ∈ m, a < c.1) : memRead m a = unlistedByte := by
  cases m with
  | nil => rfl
  | cons d m =>
    obtain ⟨k, b⟩ := d
    simp [memRead, h (k, b) (by simp)]

theorem memRead_memCons {a : Nat} {v : Byte} {m : Mem} (hlt : ∀ c ∈ m, a < c.1) (x : Nat) :
    memRead (memCons a v m) x = if x = a then v else memRead m x := by
  unfold memCons
  split
  · next hv =>
    split
    · next hx => rw [hx, memRead_below hlt, hv]
    · rfl
  · rw [memRead_cons]
    split_ifs with h1 h2 h3
    · omega
    · exact (memRead_below fun c hc => lt_trans h1 (hlt c hc)).symm
    · rfl
    · rfl

/-- A read after a write: the byte written at its address, the byte before at every other. -/
theorem memRead_memWrite {m : Mem} (h : Mem.wf m) (a : Nat) (v : Byte) (x : Nat) :
    memRead (memWrite m a v) x = if x = a then v else memRead m x := by
  induction m with
  | nil => exact memRead_memCons (by simp) x
  | cons d m ih =>
    obtain ⟨k, b⟩ := d
    obtain ⟨hk, -, -, hm⟩ := Mem.wf_cons.1 h
    by_cases h1 : a < k
    · have hlt : ∀ c ∈ (k, b) :: m, a < c.1 := by
        intro c hc
        rcases List.mem_cons.1 hc with rfl | hc
        · exact h1
        · exact lt_trans h1 (hk c hc)
      rw [memWrite, if_pos h1, memRead_memCons hlt]
    · by_cases h2 : a = k
      · subst h2
        rw [memWrite, if_neg h1, if_pos rfl, memRead_memCons hk, memRead_cons]
        by_cases h3 : x < a
        · rw [if_pos h3, memRead_below fun c hc => lt_trans h3 (hk c hc)]
        · split_ifs <;> rfl
      · rw [memWrite, if_neg h1, if_neg h2, memRead_cons, memRead_cons, ih hm]
        split_ifs <;> first | rfl | omega

theorem memRead_memWrite_same {m : Mem} (h : Mem.wf m) (a : Nat) (v : Byte) :
    memRead (memWrite m a v) a = v := by simp [memRead_memWrite h]

theorem memRead_memWrite_other {m : Mem} (h : Mem.wf m) {a x : Nat} (v : Byte) (hx : x ≠ a) :
    memRead (memWrite m a v) x = memRead m x := by simp [memRead_memWrite h, hx]

/-- Canonical memories that read alike are equal: equal memories are equal data. -/
theorem Mem.ext_of_wf {m m' : Mem} (h : Mem.wf m) (h' : Mem.wf m')
    (hr : ∀ a, memRead m a = memRead m' a) : m = m' := by
  induction m generalizing m' with
  | nil =>
    cases m' with
    | nil => rfl
    | cons d m' =>
      obtain ⟨k, b⟩ := d
      have := hr k
      simp only [memRead, lt_irrefl, if_false, if_true] at this
      exact absurd this.symm (Mem.wf_cons.1 h').2.2.1
  | cons d m ih =>
    obtain ⟨k, b⟩ := d
    obtain ⟨hk, -, hb, hm⟩ := Mem.wf_cons.1 h
    cases m' with
    | nil =>
      have := hr k
      simp only [memRead, lt_irrefl, if_false, if_true] at this
      exact absurd this hb
    | cons d' m' =>
      obtain ⟨k', b'⟩ := d'
      obtain ⟨hk', -, hb', hm'⟩ := Mem.wf_cons.1 h'
      have hkk : k = k' := by
        rcases lt_trichotomy k k' with hlt | heq | hgt
        · have := hr k
          simp only [memRead, lt_irrefl, if_false, if_true, if_pos hlt] at this
          exact absurd this hb
        · exact heq
        · have := hr k'
          simp only [memRead, lt_irrefl, if_false, if_true, if_pos hgt] at this
          exact absurd this.symm hb'
      subst hkk
      have hbb : b = b' := by
        have := hr k
        simpa [memRead] using this
      subst hbb
      congr 1
      refine ih hm hm' fun a => ?_
      rcases lt_or_ge k a with hlt | hge
      · have := hr a
        simpa [memRead, Nat.not_lt.2 hlt.le, Nat.ne_of_gt hlt] using this
      · rw [memRead_below fun c hc => lt_of_le_of_lt hge (hk c hc),
          memRead_below fun c hc => lt_of_le_of_lt hge (hk' c hc)]

/-! ### The memory operations of the machine keep the form -/

theorem storeByte_wf {a : Nat} {v : Byte} {s : State} (ha : a < 2 ^ 32) (h : Mem.wf s.mem) :
    Mem.wf (storeByte a v s).mem := memWrite_wf ha h

theorem storeFree_wf {a : Nat} {s : State} (ha : a < 2 ^ 32) (h : Mem.wf s.mem) :
    Mem.wf (storeFree a s).mem := memWrite_wf ha h

theorem memFree_wf {base a n : Nat} {m : Mem} (h : a + n ≤ 2 ^ 32) (hm : Mem.wf m) : Mem.wf (memFree base a n m) := by
  induction n with
  | zero => exact hm
  | succ n ih => exact memWrite_wf (by omega) (ih (by omega))

theorem memFreeAll_wf {base : Nat} {rs : List Region} {m : Mem} (h : ∀ r ∈ rs, r.start + r.size ≤ 2 ^ 32) (hm : Mem.wf m) :
    Mem.wf (memFreeAll base rs m) := by
  induction rs with
  | nil => exact hm
  | cons r rs ih =>
    exact memFree_wf (h r (by simp)) (ih fun q hq => h q (by simp [hq]))

theorem inRegion_iff {r : Region} {a : Nat} : inRegion r a = true ↔ r.start ≤ a ∧ a < r.start + r.size := by
  simp [inRegion]

/-- A read after `memFree`: the free byte of the address in the freed run, the byte before elsewhere. -/
theorem memRead_memFree {base a n : Nat} {m : Mem} (h : a + n ≤ 2 ^ 32) (hm : Mem.wf m) (x : Nat) :
    memRead (memFree base a n m) x = if a ≤ x ∧ x < a + n then Config.freeByte (base + x) else memRead m x := by
  induction n with
  | zero => rw [memFree, if_neg (by omega)]
  | succ n ih =>
    rw [memFree, memRead_memWrite (memFree_wf (by omega) hm), ih (by omega)]
    by_cases hx : x = a + n
    · rw [if_pos hx, if_pos (by omega), hx]
    · rw [if_neg hx]
      exact if_congr (by omega) rfl rfl

/-- A read after `memFreeAll`: the free byte of the address in a freed region, the byte before elsewhere. -/
theorem memRead_memFreeAll {base : Nat} {rs : List Region} {m : Mem} (h : ∀ r ∈ rs, r.start + r.size ≤ 2 ^ 32)
    (hm : Mem.wf m) (x : Nat) :
    memRead (memFreeAll base rs m) x =
      if (rs.any fun r => inRegion r x) = true then Config.freeByte (base + x) else memRead m x := by
  induction rs with
  | nil => rfl
  | cons r rs ih =>
    have hrs : ∀ q ∈ rs, q.start + q.size ≤ 2 ^ 32 := fun q hq => h q (by simp [hq])
    rw [memFreeAll, memRead_memFree (h r (by simp)) (memFreeAll_wf hrs hm), ih hrs]
    simp only [List.any_cons, Bool.or_eq_true, inRegion_iff]
    split_ifs <;> first | rfl | tauto

theorem raceOn_wf {rs : List Region} {s : State} (h : ∀ r ∈ rs, r.start + r.size ≤ 2 ^ 32) (hm : Mem.wf s.mem) :
    Mem.wf (raceOn rs s).mem := memFreeAll_wf h hm

theorem reset_mem_wf : Mem.wf State.reset.mem := Mem.wf_nil

end Sys2Proof.Machine
end

