-- ==== Sys2Proof/Laws/Operands.lean ====
section
/-! SUPPORT. The laws of APPLY's operands: when the checks at issue pass, what normal memory and a race mean in numbers,
and the addresses and counts inside a running APPLY. -/

namespace Sys2Proof.Machine

/-! ### The checks at issue -/

/-- The checks at issue pass exactly on equal nonzero lengths and ranges inside the address space that are equal or
apart. -/
theorem issueResult_eq_none {r : Regs} :
    issueResult r = none ↔ r.srcLen = r.dstLen ∧ 0 < r.srcLen.toNat ∧
      r.srcAddr.toNat + r.srcLen.toNat ≤ 2 ^ 32 ∧ r.dstAddr.toNat + r.srcLen.toNat ≤ 2 ^ 32 ∧
      (r.srcAddr = r.dstAddr ∨ r.srcAddr.toNat + r.srcLen.toNat ≤ r.dstAddr.toNat ∨
        r.dstAddr.toNat + r.srcLen.toNat ≤ r.srcAddr.toNat) := by
  have hz : r.srcLen = 0 ↔ r.srcLen.toNat = 0 := by rw [BitVec.toNat_eq]; rfl
  constructor
  · intro h
    unfold issueResult at h
    split_ifs at h with h1 h2 h3 h4
    rw [hz] at h2
    refine ⟨not_not.1 h1, by omega, by omega, by omega, ?_⟩
    by_cases he : r.srcAddr = r.dstAddr
    · exact .inl he
    · right
      by_contra hc
      exact h4 ⟨he, by omega, by omega⟩
  · rintro ⟨h1, h2, h3, h4, h5⟩
    unfold issueResult
    rw [if_neg (not_not.2 h1), if_neg (by rw [hz]; omega), if_neg (by omega), if_neg]
    rintro ⟨ha, hb, hc⟩
    rcases h5 with h | h | h
    · exact ha h
    · omega
    · omega

/-- Under the conditions of acceptance no check at issue applies. -/
theorem ApplyLegal.issueResult {s : State} (h : ApplyLegal s) : issueResult s.regs = none :=
  issueResult_eq_none.2 ⟨h.lengths, Nat.pos_of_ne_zero fun hz => h.nonzero (BitVec.eq_of_toNat_eq hz), h.src_fits,
    h.dst_fits, h.apart⟩

/-! ### Normal memory and races, in numbers -/

theorem regionMeets_iff {r : Region} {a len : Nat} :
    regionMeets r a len = true ↔ 0 < r.size ∧ r.start < a + len ∧ a < r.start + r.size := by
  simp [regionMeets, and_assoc]

theorem normalRange_iff {p : Platform} {a len : Nat} :
    normalRange p a len = true ↔ ∀ r ∈ nonNormal p, ¬(0 < r.size ∧ r.start < a + len ∧ a < r.start + r.size) := by
  simp only [normalRange, List.all_eq_true, Bool.not_eq_true', ← Bool.not_eq_true, regionMeets_iff]

theorem Buffers.inInput_iff {b : Buffers} {a : Nat} : b.inInput a = true ↔ b.src ≤ a ∧ a < b.src + b.len := inRegion_iff

theorem Buffers.inOutput_iff {b : Buffers} {a : Nat} : b.inOutput a = true ↔ b.dst ≤ a ∧ a < b.dst + b.len := inRegion_iff

theorem racesLoad_iff {s : State} {a : Nat} :
    racesLoad s a = true ↔ ∃ b ∈ s.env.owned, b.dst ≤ a ∧ a < b.dst + b.len := by
  simp only [racesLoad, List.any_eq_true, Buffers.inOutput_iff]

theorem racesStore_iff {s : State} {a : Nat} :
    racesStore s a = true ↔
      ∃ b ∈ s.env.owned, (b.src ≤ a ∧ a < b.src + b.len) ∨ (b.dst ≤ a ∧ a < b.dst + b.len) := by
  simp only [racesStore, List.any_eq_true, Bool.or_eq_true, Buffers.inInput_iff, Buffers.inOutput_iff]

theorem Buffers.mem_loadInvolves {b : Buffers} {a : Nat} {r : Region} :
    r ∈ b.loadInvolves a ↔ b.inOutput a = true ∧ r = b.output := by
  unfold Buffers.loadInvolves
  split <;> simp_all

theorem Buffers.mem_storeInvolves {b : Buffers} {a : Nat} {r : Region} :
    r ∈ b.storeInvolves a ↔
      (b.inInput a = true ∧ (r = b.input ∨ r = b.output)) ∨ (b.inOutput a = true ∧ r = b.output) := by
  unfold Buffers.storeInvolves
  split_ifs <;> simp_all

/-- The addresses a racing load frees: the output ranges that hold its address. -/
theorem any_loadRegions {s : State} {a x : Nat} :
    ((loadRegions s a).any fun r => inRegion r x) = true ↔
      ∃ b ∈ s.env.owned, (b.dst ≤ a ∧ a < b.dst + b.len) ∧ (b.dst ≤ x ∧ x < b.dst + b.len) := by
  simp only [loadRegions, List.any_eq_true, List.mem_flatMap, Buffers.mem_loadInvolves, Buffers.inOutput_iff]
  constructor
  · rintro ⟨_, ⟨b, hb, ha, rfl⟩, hx⟩
    exact ⟨b, hb, ha, inRegion_iff.1 hx⟩
  · rintro ⟨b, hb, ha, hx⟩
    exact ⟨_, ⟨b, hb, ha, rfl⟩, inRegion_iff.2 hx⟩

/-- The addresses a racing store frees: the output ranges that hold its address, and both ranges of an APPLY whose input range
holds it. -/
theorem any_storeRegions {s : State} {a x : Nat} :
    ((storeRegions s a).any fun r => inRegion r x) = true ↔
      ∃ b ∈ s.env.owned,
        ((b.src ≤ a ∧ a < b.src + b.len) ∧ ((b.src ≤ x ∧ x < b.src + b.len) ∨ (b.dst ≤ x ∧ x < b.dst + b.len))) ∨
        ((b.dst ≤ a ∧ a < b.dst + b.len) ∧ (b.dst ≤ x ∧ x < b.dst + b.len)) := by
  simp only [storeRegions, List.any_eq_true, List.mem_flatMap, Buffers.mem_storeInvolves, Buffers.inInput_iff,
    Buffers.inOutput_iff]
  constructor
  · rintro ⟨_, ⟨b, hb, ⟨ha, rfl | rfl⟩ | ⟨ha, rfl⟩⟩, hx⟩
    · exact ⟨b, hb, .inl ⟨ha, .inl (inRegion_iff.1 hx)⟩⟩
    · exact ⟨b, hb, .inl ⟨ha, .inr (inRegion_iff.1 hx)⟩⟩
    · exact ⟨b, hb, .inr ⟨ha, inRegion_iff.1 hx⟩⟩
  · rintro ⟨b, hb, ⟨ha, hx | hx⟩ | ⟨ha, hx⟩⟩
    · exact ⟨_, ⟨b, hb, .inl ⟨ha, .inl rfl⟩⟩, inRegion_iff.2 hx⟩
    · exact ⟨_, ⟨b, hb, .inl ⟨ha, .inr rfl⟩⟩, inRegion_iff.2 hx⟩
    · exact ⟨_, ⟨b, hb, .inr ⟨ha, rfl⟩⟩, inRegion_iff.2 hx⟩

/-- Every range a load or store involves in a race is a range of an APPLY's buffers. -/
theorem mem_loadRegions {s : State} {a : Nat} {r : Region} (h : r ∈ loadRegions s a) :
    ∃ b ∈ s.env.owned, r = b.input ∨ r = b.output := by
  obtain ⟨b, hb, hr⟩ := List.mem_flatMap.1 h
  exact ⟨b, hb, .inr (Buffers.mem_loadInvolves.1 hr).2⟩

theorem mem_storeRegions {s : State} {a : Nat} {r : Region} (h : r ∈ storeRegions s a) :
    ∃ b ∈ s.env.owned, r = b.input ∨ r = b.output := by
  obtain ⟨b, hb, hr⟩ := List.mem_flatMap.1 h
  exact ⟨b, hb, by have := Buffers.mem_storeInvolves.1 hr; tauto⟩

theorem isRaced_nil {s : State} (h : s.env.raced = []) (a : Nat) : isRaced s a = false := by
  simp [isRaced, h]

/-- Where nothing has raced yet, the record holds what the buffers' bounds say. -/
theorem RacesOk.of_none {s : State} (h : ∀ b ∈ s.env.owned, b.src + b.len ≤ 2 ^ 32 ∧ b.dst + b.len ≤ 2 ^ 32)
    (hr : s.env.raced = []) : RacesOk s :=
  ⟨h, by simp [hr], fun x hx => by simp [isRaced_nil hr] at hx⟩

theorem mem_foldr_insert {rs old : List Region} {r : Region} : r ∈ rs.foldr List.insert old ↔ r ∈ rs ∨ r ∈ old := by
  induction rs with
  | nil => simp
  | cons q rs ih => simp [List.mem_insert_iff, ih, or_assoc]

/-- After a race the addresses of its ranges are raced on, and those that were. -/
theorem isRaced_raceOn {rs : List Region} {s : State} {x : Nat} :
    isRaced (raceOn rs s) x = true ↔ (rs.any fun r => inRegion r x) = true ∨ isRaced s x = true := by
  simp only [isRaced, raceOn_env, List.any_eq_true, mem_foldr_insert]
  constructor
  · rintro ⟨r, hr | hr, hx⟩
    · exact .inl ⟨r, hr, hx⟩
    · exact .inr ⟨r, hr, hx⟩
  · rintro (⟨r, hr, hx⟩ | ⟨r, hr, hx⟩)
    · exact ⟨r, .inl hr, hx⟩
    · exact ⟨r, .inr hr, hx⟩

/-! ### Inside a running APPLY -/

theorem blockLength_val (e : Eng) : (blockLength e).val = min 64 (e.len.toNat - 64 * e.j.toNat) := rfl

/-- The block index of an accepted APPLY never wraps. -/
theorem block_succ_toNat {e : Eng} (h : ApplyOk e) : (e.j + 1).toNat = e.j.toNat + 1 := by
  have hb := h.block
  have hl := e.len.isLt
  rw [BitVec.toNat_add, show (1 : Word).toNat = 1 from rfl, Nat.mod_eq_of_lt]
  omega

/-- The engine's byte index is below the length. -/
theorem byteIndex_lt {e : Eng} (h : ApplyOk e) (hb : InBlock e) : byteIndex e < e.len.toNat := by
  have h1 := h.block
  have h2 := hb.index
  rw [hb.length, blockLength_val] at h2
  unfold byteIndex
  omega

theorem rdAddress_lt {e : Eng} (h : ApplyOk e) (hb : InBlock e) : rdAddress e < 2 ^ 32 := by
  have h1 := byteIndex_lt h hb
  have h2 := h.src_fits
  unfold rdAddress
  omega

theorem wrAddress_lt {e : Eng} (h : ApplyOk e) (hb : InBlock e) : wrAddress e < 2 ^ 32 := by
  have h1 := byteIndex_lt h hb
  have h2 := h.dst_fits
  unfold wrAddress
  omega

theorem stepsLeft_zero : stepsLeft Eng.zero = 0 := rfl

end Sys2Proof.Machine
end

