-- ==== Sys2Proof/Laws/PerInstr.lean ====
section
/-! SUPPORT. What holds of every command as syntax, one lemma for each constructor of `Instr`. -/

namespace Sys2Proof.Laws.Encoding

/-- A command is well formed, and so are the fields of its word: RSV is 0 and OP names it (30_encoding.md R101, R104);
its word is one of 32 bits in four byte lanes (30_encoding.md R108), and both decode to it and to nothing else. -/
def Statement (i : Instr) : Prop :=
  i.wf = true ∧ (cmdFields (encode i)).wf = true ∧ (cmdFields (encode i)).rsv = 0 ∧
    commandOfOpcode (cmdFields (encode i)).op = some i ∧ (encodeBytes i).length = 4 ∧
    decode (encode i) = .instr i ∧ decodeBytes (encodeBytes i) = .instr i ∧
    ∀ w, decode w = .instr i → w = encode i

theorem gen : Statement .gen :=
  ⟨by decide, by decide, by decide, by decide, by decide, by decide, by decide, fun _ h => (Machine.decode_eq_instr.1 h).symm⟩

theorem apply : Statement .apply :=
  ⟨by decide, by decide, by decide, by decide, by decide, by decide, by decide, fun _ h => (Machine.decode_eq_instr.1 h).symm⟩

theorem abort : Statement .abort :=
  ⟨by decide, by decide, by decide, by decide, by decide, by decide, by decide, fun _ h => (Machine.decode_eq_instr.1 h).symm⟩

end Sys2Proof.Laws.Encoding
end

