-- ==== Sys2Proof/Tests/Slice0.lean ====
section
/-! SUPPORT. The tests: the well-formedness smoke, command words written out from 30_encoding.md R101 and R104, vectors of
95_test_vectors.md, and for every statement with hypotheses a state that meets them (`witness_<Name>`). -/

namespace Sys2Proof.Tests

open Sys2Proof.Machine

/-! ### Small states -/

/-- After reset, with COUNTER = 7 and the arguments of an APPLY (the start state of 95_test_vectors.md V-X). -/
def ready (src dst srcLen dstLen : Word) : State :=
  { State.reset with regs := { Regs.reset with counter := 7, srcAddr := src, dstAddr := dst, srcLen := srcLen,
                                               dstLen := dstLen } }

/-- A GEN waits for its step. -/
def genRuns : State := { State.reset with eng := { Eng.zero with phase := .gen } }

/-- An APPLY of `len` bytes, key and nonce 0, initial counter 5, is in phase `p` of block `j`. -/
def runs (p : Phase) (src dst len j : Word) (i : Fin 64) (n : Fin 65) : State :=
  { State.reset with
    eng := { Eng.zero with phase := p, ctr0 := 5, src := src, dst := dst, len := len, j := j, i := i, n := n,
                           runCtr := if p = .blk then 5 + j else 5 + j + 1,
                           ks := blockBytes Eng.zero.key Eng.zero.nonce (5 + j) },
    env := { Env.reset with owned := [{ src := src.toNat, dst := dst.toNat, len := len.toNat }] } }

/-- The state with an abort pending. -/
def aborting (s : State) : State := { s with eng := { s.eng with abortPend := true } }

/-- The state with a DMA access that is never answered. -/
def unanswered (s : State) : State := { s with eng := { s.eng with awaiting := true } }

/-- The state in which an access has raced on a range. -/
def racedOn (start size : Nat) (s : State) : State :=
  { s with env := { s.env with raced := [{ start := start, size := size }] } }

/-- The state with the given events next. -/
def scripted (evs : List Event) (s : State) : State := { s with env := { s.env with script := evs } }

/-- A host write of a register. -/
def wr (r : Reg) (w : Word) : Event := .host (regAccess Env.reset.plat .write r w)

/-- A host read of a register. -/
def rd (r : Reg) (w : Word) : Event := .host (regAccess Env.reset.plat .read r w)

/-- STATUS, NEXT_CTR, DONE_BYTES and ERR_ADDR of a next state. -/
def results (o : Host.Outcome State Fault Refusal) : Option (Word × Word × Word × Word) :=
  match o with
  | .next t => some (t.statusWord, t.regs.nextCtr, t.regs.doneBytes, t.regs.errAddr)
  | .fault _ => none
  | .refused _ => none

/-! ### Well-formedness: ill-formed terms are refused -/

theorem test_wf_reserved_bits : CmdFields.wf { rsv := 1, op := 1 } = false := by decide
theorem test_wf_opcode_zero : CmdFields.wf { rsv := 0, op := 0 } = false := by decide
theorem test_wf_opcode_four : CmdFields.wf { rsv := 0, op := 4 } = false := by decide
theorem test_wf_size : Access.wf { dir := .write, addr := 0x40000004, size := 2, wdata := 1 } = false := by decide
theorem test_wf_alignment : Access.wf { dir := .write, addr := 0x40000006, size := 4, wdata := 1 } = false := by decide
theorem test_wf_access : Access.wf { dir := .write, addr := 0x40000004, size := 4, wdata := 1 } = true := by decide

/-! ### Command words, bit 31 first: RSV [31:4], OP [3:0] -/

theorem test_decode_gen : decode 0b00000000000000000000000000000001 = .instr .gen := by decide
theorem test_decode_apply : decode 0b00000000000000000000000000000010 = .instr .apply := by decide
theorem test_decode_abort : decode 0b00000000000000000000000000000011 = .instr .abort := by decide
/-- 30_encoding.md R105: a word with RSV != 0. -/
theorem test_decode_reserved_bits : decode 0b00000000000000000000000000010001 = .reserved .reservedBits := by decide
theorem test_decode_reserved_top_bit : decode 0b10000000000000000000000000000001 = .reserved .reservedBits := by decide
/-- Byte lane 0 carries bits 7..0 (20_memory.md R81). -/
theorem test_decode_lanes : decodeBytes [0x02, 0x00, 0x00, 0x00] = .instr .apply := by decide
theorem test_decode_lanes_swapped : decodeBytes [0x00, 0x00, 0x00, 0x02] = .reserved .reservedBits := by decide
theorem test_decode_short : decodeBytes [0x02, 0x00] = .reserved .notOneWord := by decide
theorem test_decode_table_rows :
    (decodeTableWord 32 1, decodeTableWord 32 2, decodeTableWord 32 3, decodeTableWord 32 4) =
      (some .gen, some .apply, some .abort, none) := by decide

/-- The step after reset with the row's word placed runs it. -/
theorem test_fetch_gen : results (step (State.reset.withFetchWord 32 1)) = some (0x00000001, 0, 0, 0) := by decide
theorem test_fetch_apply : results (step (State.reset.withFetchWord 32 2)) = some (0x00000002, 0, 0, 0) := by decide
theorem test_fetch_abort : results (step (State.reset.withFetchWord 32 3)) = some (0, 0, 0, 0) := by decide

/-! ### GEN, APPLY, ABORT, and reserved words (95_test_vectors.md 2.6, 2.7) -/

set_option maxRecDepth 20000 in
/-- V-C11: the GEN step for key 0, nonce 0, counter 0. -/
theorem test_gen_step :
    (match engineStep .ok genRuns with
      | .next t => some (t.statusWord, t.regs.nextCtr, t.regs.ks[0], t.regs.ks[15])
      | .fault _ => none
      | .refused _ => none) = some (0x00000002, 1, 0xade0b876, 0x8665eeb2) := by decide

/-- V-C12: a second GEN is dropped. -/
theorem test_gen_busy : results (exec .gen genRuns) = some (0x00000009, 0, 0, 0) := by decide

/-- V-X10: INVALID_ARG before RANGE. -/
theorem test_apply_order : results (exec .apply (ready 0xFFFFFFF0 0x2000 0x20 0x10)) = some (0x00000026, 7, 0, 0) := by
  decide

/-- V-X6: a range that ends exactly at 0xFFFFFFFF is accepted. -/
theorem test_apply_top : results (exec .apply (ready 0xFFFFFFE0 0x2000 0x20 0x20)) = some (0x00000001, 0, 0, 0) := by
  decide

/-- 42_commands.md R185: ABORT while idle changes nothing, not even a set DONE. -/
theorem test_abort_idle :
    results (exec .abort { State.reset with status := Status.reset.completed .overlap }) = some (0x00000046, 0, 0, 0) := by
  decide

/-- 95_test_vectors.md 2.7: ABORT while an APPLY runs, STATUS 0x00000101. -/
theorem test_abort_busy : results (exec .abort (runs .rd 0x1000 0x2000 70 0 0 64)) = some (0x00000101, 0, 0, 0) := by decide

/-- 42_commands.md R186: `wr CMD, 0x00000012` while idle. -/
theorem test_badcmd : results (writeCmd 0x12 (ready 0 0 0 0)) = some (0x00000016, 0, 0, 0) := by decide

/-! ### Engine steps -/

/-- V-X13: a read error at 0x1040, COUNTER = 5. -/
theorem test_rd_bus_error :
    results (engineStep .busError (runs .rd 0x1000 0x2000 100 1 0 36)) = some (0x00000056, 7, 0x40, 0x1040) := by decide

/-- V-X14: a write error at 0x2046. -/
theorem test_wr_bus_error :
    results (engineStep .busError (runs .wr 0x1000 0x2000 100 1 6 36)) = some (0x00000056, 7, 0x46, 0x2046) := by decide

/-- V-X18: an abort pending at block 2, from COUNTER = 5 instead of 0. -/
theorem test_blk_abort :
    results (engineStep .ok (aborting (runs .blk 0x5000 0x5000 256 2 0 0))) = some (0x00000066, 7, 0x80, 0) := by decide

/-- 41_stream_engine.md R159's example: buf[0] = 0x4c, ks[0] = 0x22 writes 0x6e at 0x2000. -/
theorem test_wr_example :
    (let s := runs .wr 0x1000 0x2000 70 0 0 64
     match engineStep .ok { s with eng := { s.eng with buf := s.eng.buf.set 0 0x4c, ks := Eng.zero.ks.set 0 0x22 } } with
      | .next t => some t.mem
      | .fault _ => none
      | .refused _ => none) = some [(0x2000, 0x6e)] := by decide

/-! ### The datapath (95_test_vectors.md 2.1 to 2.3) -/

/-- V-A6, V-A10. -/
theorem test_rotl : (rotl32 0x80000001 16, rotl32 0x12345678 8) = (0x00018000, 0x34567812) := by decide

/-- V-Q1. -/
theorem test_quarter_round :
    quarterRound { a := 0x11111111, b := 0x01020304, c := 0x9b8d6f43, d := 0x01234567 } =
      { a := 0xea2a92f4, b := 0xcb1cf8ce, c := 0x4581472e, d := 0x5881c4bb } := by decide

/-- V-Q3: the first addition wraps. -/
theorem test_quarter_round_wraps :
    quarterRound { a := 0xffffffff, b := 0x00000001, c := 0, d := 0 } =
      { a := 0x00001000, b := 0x08080000, c := 0x00100000, d := 0x00100000 } := by decide

set_option maxRecDepth 20000 in
/-- V-P3: a double round of (0, 1, ..., 15). -/
theorem test_double_round :
    dround #v[0, 1, 2, 3, 4, 5, 6, 7, 8, 9, 10, 11, 12, 13, 14, 15] =
      #v[0xa9295c6a, 0xb471be7a, 0x38e65ec4, 0x74348b87, 0xf1ad76c6, 0x7b44627b, 0x946682b0, 0xf12f4910,
         0xd7e22f80, 0x3232ddd4, 0xb5b3b74d, 0xc0240444, 0xc8a5de45, 0xe417e1d3, 0x1a392478, 0x983c4ebf] := by decide

/-! ### Registers and reset -/

/-- V-C9: IRQ_EN keeps bit 0 alone. -/
theorem test_irq_en :
    (match writeReg .irqEn 0xFFFFFFFF State.reset with
      | .next t => some (readReg .irqEn t)
      | .fault _ => none
      | .refused _ => none) = some 0x00000001 := by decide

/-- 42_commands.md R187's example: STATUS 0x0000000a, `wr STATUS, 0x0000000a`. -/
theorem test_status_write :
    (acknowledge 0x0000000a { State.reset with status := { Status.reset with done := true, ovr := true } }).statusWord = 0 := by
  decide

/-- V-C7: a 16-bit write of 0x0001 to CMD gets a bus error and issues no command. -/
theorem test_narrow_write :
    (match hostAccess { dir := .write, addr := 0x40000004, size := 2, wdata := 1 } State.reset with
      | .next t => some (t.env.reply, t.busy)
      | .fault _ => none
      | .refused _ => none) = some (.busError, false) := by decide

/-- 93_implementation_defined.md I3: a store to the input range of a running APPLY involves both its ranges. -/
theorem test_input_store_races_on_both_ranges :
    (match hostStore 0x1000 1 (runs .rd 0x1000 0x2000 70 1 0 6) with
      | .next t => ([0x0FFF, 0x1000, 0x1045, 0x1046, 0x2000, 0x2045, 0x2046] : List Nat).map (isRaced t)
      | .fault _ => []
      | .refused _ => []) = [false, true, true, false, true, true, false] := by decide

/-- 70_reset_and_hazards.md R246: a load of the output range races, and leaves the input range. -/
theorem test_output_load_races_on_output_range :
    (match hostLoad 0x2045 (runs .rd 0x1000 0x2000 70 1 0 6) with
      | .next t => ([0x1000, 0x1045, 0x2000, 0x2045, 0x2046] : List Nat).map (isRaced t)
      | .fault _ => []
      | .refused _ => []) = [false, false, true, true, false] := by decide

/-! ### States that meet the invariant -/

theorem inv_idle (r : Regs) (evs : List Event) : Inv (scripted evs { State.reset with regs := r }) :=
  ⟨⟨by simp [scripted, State.reset, Status.reset], (fun h => nomatch h), fun _ => rfl⟩, rfl, (fun h => nomatch h),
    RacesOk.of_none (fun _ hb => nomatch hb) rfl, Mem.wf_nil⟩

theorem inv_ready (src dst srcLen dstLen : Word) (evs : List Event) : Inv (scripted evs (ready src dst srcLen dstLen)) :=
  inv_idle (ready src dst srcLen dstLen).regs evs

theorem inv_genRuns : Inv genRuns :=
  ⟨⟨by decide, fun _ => ⟨rfl, rfl, rfl⟩, (fun h => nomatch h)⟩, rfl, (fun h => nomatch h), RacesOk.of_none (fun _ hb => nomatch hb) rfl, Mem.wf_nil⟩

/-- The buffers of a running APPLY that passed the checks are in the DMA space. -/
theorem races_runs {p : Phase} {src dst len j : Word} {i : Fin 64} {n : Fin 65} {evs : List Event}
    (h : ApplyOk (runs p src dst len j i n).eng) : RacesOk (scripted evs (runs p src dst len j i n)) :=
  RacesOk.of_none (fun _ hb => by cases List.mem_singleton.1 hb; exact ⟨h.src_fits, h.dst_fits⟩) rfl

theorem inv_runs (p : Phase) (src dst len j : Word) (i : Fin 64) (n : Fin 65) (hp : p = .blk ∨ p = .rd ∨ p = .wr)
    (h : ApplyOk (runs p src dst len j i n).eng) (hn : n = blockLength (runs p src dst len j i n).eng) (hi : i.val < n.val) :
    Inv (runs p src dst len j i n) := by
  rcases hp with rfl | rfl | rfl
  · exact ⟨⟨by simp [runs, State.reset, Status.reset], fun _ => ⟨rfl, rfl, rfl⟩, (fun h => nomatch h)⟩, ⟨h, rfl, rfl⟩,
      fun _ => List.mem_singleton.2 rfl, races_runs (evs := []) h, Mem.wf_nil⟩
  · exact ⟨⟨by simp [runs, State.reset, Status.reset], fun _ => ⟨rfl, rfl, rfl⟩, (fun h => nomatch h)⟩,
      ⟨h, ⟨hn, hi, rfl, rfl⟩⟩, fun _ => List.mem_singleton.2 rfl, races_runs (evs := []) h, Mem.wf_nil⟩
  · exact ⟨⟨by simp [runs, State.reset, Status.reset], fun _ => ⟨rfl, rfl, rfl⟩, (fun h => nomatch h)⟩,
      ⟨h, ⟨hn, hi, rfl, rfl⟩⟩, fun _ => List.mem_singleton.2 rfl, races_runs (evs := []) h, Mem.wf_nil⟩

/-- Block 1 of 70 bytes, of 6 bytes, at any byte. -/
theorem inv_runs_small (p : Phase) (i : Fin 64) (hp : p = .blk ∨ p = .rd ∨ p = .wr) (hi : i.val < 6) :
    Inv (runs p 0x1000 0x2000 70 1 i 6) :=
  inv_runs p _ _ _ _ _ _ hp ⟨by show 0x1000 + 70 ≤ 2 ^ 32; decide, by show 0x2000 + 70 ≤ 2 ^ 32; decide,
    .inr (.inl (by show 0x1000 + 70 ≤ 0x2000; decide)), by show 64 * 1 < 70; decide⟩ rfl hi

/-- In place, at the top of the address space: the last byte is at 0xFFFFFFFF. -/
theorem inv_runs_top (p : Phase) (hp : p = .blk ∨ p = .rd ∨ p = .wr) : Inv (runs p 0xFFFFFFBA 0xFFFFFFBA 70 1 5 6) :=
  inv_runs p _ _ _ _ _ _ hp ⟨by show 0xFFFFFFBA + 70 ≤ 2 ^ 32; decide, by show 0xFFFFFFBA + 70 ≤ 2 ^ 32; decide,
    .inl rfl, by show 64 * 1 < 70; decide⟩ rfl (by decide)

theorem legal_ready (src dst len : Word) (h0 : len ≠ 0) (h1 : src.toNat + len.toNat ≤ 2 ^ 32)
    (h2 : dst.toNat + len.toNat ≤ 2 ^ 32)
    (h3 : src = dst ∨ src.toNat + len.toNat ≤ dst.toNat ∨ dst.toNat + len.toNat ≤ src.toNat)
    (hn : applyNormal Env.reset.plat (ready src dst len len).regs = true) (evs : List Event) :
    ApplyLegal (scripted evs (ready src dst len len)) :=
  ⟨rfl, h0, h1, h2, h3, hn⟩

/-! ### A witness for the hypotheses of every statement that has some, at the edges of their ranges -/

/-- The first and the last reserved OP. -/
theorem witness_OpcodeMapWithZeroReservedBits : (4 : BitVec 4) ≤ 4 ∧ (4 : BitVec 4) ≤ 15 := by decide

theorem witness_EncodingsRoundTrip :
    (regAccess Env.reset.plat .read .id 0).size = 4 ∧ (regAccess Env.reset.plat .write (.ks 15) 0).size = 4 := by decide

/-- The offsets on both sides of each hole. -/
theorem witness_ReservedOffsetsHoldNoRegister :
    [0x2C, 0x30, 0x3C, 0x40, 0x68, 0x6C, 0x7C, 0x80, 0xBC, 0xC0, 0xFC, 0x01].map
        (fun n => (decide (n < 0x100), (decodeOffset (BitVec.ofNat 8 n)).isNone)) =
      [(true, false), (true, true), (true, true), (true, false), (true, false), (true, true), (true, true), (true, false),
       (true, false), (true, true), (true, true), (true, true)] := by decide

theorem witness_StepRunsDecodedCommand (i : Instr) :
    let s := State.reset.withFetchWord 32 (encode i).toNat
    let a := cmdWriteAccess Env.reset.plat (encode i)
    s.env.script = .host a :: [] ∧ inWindow s.env.plat a.addr = true ∧ decodeAccess a = some .cmd ∧ a.dir = .write ∧
      decode a.wdata = .instr i := by
  cases i <;> decide

theorem witness_ReservedWordWhileIdleIsBadCommand :
    let s := scripted [wr .cmd 0x12] State.reset
    s.env.script.head? = some (.host (regAccess s.env.plat .write .cmd 0x12)) ∧
      decode 0x12 = .reserved .reservedBits ∧ decode 0x4 = .reserved .reservedOpcode ∧ s.busy = false := by decide

theorem witness_WhileBusyOnlyAbortIsActedOn :
    genRuns.busy = true ∧ (runs .wr 0x1000 0x2000 70 0 0 64).busy = true ∧ decode 0 = .reserved .reservedOpcode := by decide

theorem witness_GenStartsWhenIdle : State.reset.busy = false := by decide

theorem witness_GenStepDeliversBlockWords : genRuns.eng.phase = .gen ∧ genRuns.eng.awaiting = false := by decide

theorem witness_GenIsNeverAborted :
    let s := scripted [wr .cmd 1, wr .cmd 3, wr .cmd 3, .engine .ok] State.reset
    Inv s ∧ s.busy = false ∧
      s.env.script = .host (regAccess s.env.plat .write .cmd 1) ::
        (List.replicate 2 (.host (regAccess s.env.plat .write .cmd 3)) ++ .engine .ok :: []) :=
  ⟨inv_idle _ _, rfl, rfl⟩

/-- One state for each check, with its number at the edge: lengths 16 and 15; L = 0; L = 2 at 0xFFFFFFFF; ranges that share
one byte. -/
theorem witness_ApplyIssueChecksInOrder :
    (∀ src dst sl dl, (ready src dst sl dl).busy = false) ∧
      (ready 0x1000 0x2000 16 15).regs.srcLen ≠ (ready 0x1000 0x2000 16 15).regs.dstLen ∧
      (ready 0x1000 0x2000 0 0).regs.srcLen.toNat = 0 ∧
      2 ^ 32 < (0xFFFFFFFF : Word).toNat + (2 : Word).toNat ∧
      (¬2 ^ 32 < (0x1000 : Word).toNat + (0x20 : Word).toNat ∧ ¬2 ^ 32 < (0x101F : Word).toNat + (0x20 : Word).toNat ∧
        (0x1000 : Word).toNat ≠ (0x101F : Word).toNat ∧ (0x1000 : Word).toNat < (0x101F : Word).toNat + (0x20 : Word).toNat ∧
        (0x101F : Word).toNat < (0x1000 : Word).toNat + (0x20 : Word).toNat) :=
  ⟨fun _ _ _ _ => rfl, by decide⟩

/-- Ranges that end at 0xFFFFFFFF and are adjacent; and one range, in place. -/
theorem witness_ApplyAcceptedStartsEngine :
    ApplyLegal (ready 0xFFFFFFC0 0xFFFFFFE0 0x20 0x20) ∧ (ready 0xFFFFFFC0 0xFFFFFFE0 0x20 0x20).busy = false ∧
      ApplyLegal (ready 0 0 1 1) ∧ (ready 0 0 1 1).busy = false :=
  ⟨legal_ready _ _ _ (by decide) (by decide) (by decide) (by decide) (by decide) [], rfl,
    legal_ready _ _ _ (by decide) (by decide) (by decide) (by decide) (by decide) [], rfl⟩

/-- The last byte of the input is the first of the window at BASE. -/
theorem witness_ApplyRefusesExactlyNonNormalMemory :
    exec .apply (ready 0x3FFFFFF1 0x2000 0x10 0x10) = .refused .applyNotNormalMemory := rfl

theorem witness_AbortSetsRequestOnlyWhileBusy : genRuns.busy = true ∧ State.reset.busy = false := by decide

theorem witness_AbortEndsApplyBeforeNextBlock :
    let s := aborting (runs .blk 0x1000 0x2000 70 1 0 6)
    Inv s ∧ s.eng.phase = .blk ∧ s.eng.abortPend = true :=
  have h : ApplyOk (runs .blk 0x1000 0x2000 70 1 0 6).eng := (inv_runs_small .blk 0 (.inl rfl) (by decide)).eng.1
  ⟨⟨⟨by simp [aborting, runs, State.reset, Status.reset], fun _ => ⟨rfl, rfl, rfl⟩, (fun h => nomatch h)⟩,
    ⟨⟨h.src_fits, h.dst_fits, h.apart, h.block⟩, rfl, rfl⟩, fun _ => List.mem_singleton.2 rfl,
      RacesOk.of_none (races_runs (evs := []) h).fits rfl, Mem.wf_nil⟩,
    rfl, rfl⟩

theorem witness_CommandWriteFrame :
    (∃ t, exec .gen State.reset = .next t) ∧ (∃ t, exec .gen genRuns = .next t) ∧
      (∃ t, exec .apply (ready 0x1000 0x2000 1 1) = .next t ∧ t.busy = true) ∧
      (∃ t, exec .apply (ready 0x1000 0x2000 1 2) = .next t) ∧ (∃ t, exec .abort genRuns = .next t) :=
  ⟨⟨_, rfl⟩, ⟨_, rfl⟩, ⟨_, rfl, rfl⟩, ⟨_, rfl⟩, ⟨_, rfl⟩⟩

theorem witness_BlkStepGeneratesBlock :
    let s := runs .blk 0x1000 0x2000 70 1 0 0
    s.eng.phase = .blk ∧ s.eng.awaiting = false ∧ s.eng.abortPend = false ∧ (aborting s).eng.phase = .blk ∧
      (aborting s).eng.awaiting = false ∧ (aborting s).eng.abortPend = true := by decide

/-- A byte with more to follow, and the last of a block, at 0xFFFFFFFF. -/
theorem witness_RdStepReadsInputByte :
    (let s := runs .rd 0x1000 0x2000 70 1 4 6
     s.eng.phase = .rd ∧ s.eng.awaiting = false ∧ s.eng.i.val < s.eng.n.val ∧ s.eng.i.val + 1 ≠ s.eng.n.val ∧
       s.eng.src.toNat + 64 * s.eng.j.toNat + s.eng.i.val < 2 ^ 32 ∧ isRaced s 0x1044 = false) ∧
    (let s := runs .rd 0xFFFFFFBA 0xFFFFFFBA 70 1 5 6
     s.eng.phase = .rd ∧ s.eng.awaiting = false ∧ s.eng.i.val < s.eng.n.val ∧ s.eng.i.val + 1 = s.eng.n.val ∧
       s.eng.src.toNat + 64 * s.eng.j.toNat + s.eng.i.val = 0xFFFFFFFF ∧ isRaced s 0xFFFFFFFF = false) := by decide

/-- A byte with more to follow, the last of a block that is not the last, and the last of all. -/
theorem witness_WrStepWritesOutputByte :
    (let s := runs .wr 0x1000 0x2000 70 1 4 6
     s.eng.phase = .wr ∧ s.eng.awaiting = false ∧ s.eng.i.val < s.eng.n.val ∧ Mem.wf s.mem ∧ wrAddress s.eng < 2 ^ 32 ∧
       isRaced s (wrAddress s.eng) = false ∧ s.eng.i.val + 1 ≠ s.eng.n.val) ∧
    (let s := runs .wr 0x1000 0x2000 65 0 63 64
     s.eng.phase = .wr ∧ s.eng.awaiting = false ∧ s.eng.i.val < s.eng.n.val ∧ Mem.wf s.mem ∧ wrAddress s.eng < 2 ^ 32 ∧
       isRaced s (wrAddress s.eng) = false ∧ s.eng.i.val + 1 = s.eng.n.val ∧
       64 * (s.eng.j.toNat + 1) < s.eng.len.toNat) ∧
    (let s := runs .wr 0x1000 0x2000 64 0 63 64
     s.eng.phase = .wr ∧ s.eng.awaiting = false ∧ s.eng.i.val < s.eng.n.val ∧ Mem.wf s.mem ∧ wrAddress s.eng < 2 ^ 32 ∧
       isRaced s (wrAddress s.eng) = false ∧ s.eng.i.val + 1 = s.eng.n.val ∧
       s.eng.len.toNat ≤ 64 * (s.eng.j.toNat + 1)) := by decide

theorem witness_BusErrorEndsApply :
    (let s := runs .rd 0xFFFFFFBA 0xFFFFFFBA 70 1 5 6
     Inv s ∧ s.eng.awaiting = false ∧ s.eng.phase = .rd) ∧
    (let s := runs .wr 0xFFFFFFBA 0xFFFFFFBA 70 1 5 6
     Inv s ∧ s.eng.awaiting = false ∧ s.eng.phase = .wr) :=
  ⟨⟨inv_runs_top _ (.inr (.inl rfl)), rfl, rfl⟩, ⟨inv_runs_top _ (.inr (.inr rfl)), rfl, rfl⟩⟩

theorem witness_NoResponseLeavesEngineStuck :
    (let s := runs .rd 0x1000 0x2000 70 1 0 6
     s.eng.phase = .rd ∧ s.eng.awaiting = false ∧ rdAddress s.eng < 2 ^ 32) ∧
    (let s := runs .wr 0x1000 0x2000 70 1 0 6
     s.eng.phase = .wr ∧ s.eng.awaiting = false ∧ wrAddress s.eng < 2 ^ 32) ∧
    (let s := scripted [wr .cmd 3] (unanswered (runs .rd 0x1000 0x2000 70 1 0 6))
     s.busy = true ∧ s.eng.awaiting = true ∧ s.env.script.head? = some (wr .cmd 3) ∧ (∀ b, wr .cmd 3 ≠ .rst b) ∧
       ∃ t, step s = .next t) ∧
    (scripted [.rst false] (unanswered (runs .rd 0x1000 0x2000 70 1 0 6))).env.script.head? = some (.rst false) :=
  ⟨by decide, by decide, ⟨rfl, rfl, rfl, by decide, _, rfl⟩, rfl⟩

theorem witness_EngineStepFrame :
    (∃ t, Mem.wf genRuns.mem ∧ engineStep .ok genRuns = .next t) ∧
      (∃ t, engineStep .ok (runs .rd 0x1000 0x2000 70 1 0 6) = .next t ∧ t.busy = true) ∧
      (∃ t, engineStep .ok (runs .wr 0x1000 0x2000 70 1 0 6) = .next t ∧ t.busy = true) :=
  ⟨⟨_, Mem.wf_nil, rfl⟩, ⟨_, rfl, rfl⟩, ⟨_, rfl, rfl⟩⟩

/-- The last address of the DMA space, in place. -/
theorem witness_DmaAddressesStayInBuffers :
    Inv (runs .rd 0xFFFFFFBA 0xFFFFFFBA 70 1 5 6) ∧ rdAddress (runs .rd 0xFFFFFFBA 0xFFFFFFBA 70 1 5 6).eng = 0xFFFFFFFF ∧
      Inv (runs .wr 0xFFFFFFBA 0xFFFFFFBA 70 1 5 6) ∧ wrAddress (runs .wr 0xFFFFFFBA 0xFFFFFFBA 70 1 5 6).eng = 0xFFFFFFFF :=
  ⟨inv_runs_top _ (.inr (.inl rfl)), by decide, inv_runs_top _ (.inr (.inr rfl)), by decide⟩

theorem witness_FlagInvariantsKeptByEveryStep : ∃ t, FlagsOk genRuns ∧ step genRuns = .next t :=
  ⟨_, inv_genRuns.flags, rfl⟩

theorem witness_MachineInvariantKeptByEveryStep :
    (∃ t, Inv genRuns ∧ step genRuns = .next t) ∧
      ∃ t, Inv (runs .rd 0x1000 0x2000 70 1 0 6) ∧ step (runs .rd 0x1000 0x2000 70 1 0 6) = .next t :=
  ⟨⟨_, inv_genRuns, rfl⟩, _, inv_runs_small .rd 0 (.inr (.inl rfl)) (by decide), rfl⟩

theorem witness_NoFaultFromInvariant : Inv (runs .wr 0xFFFFFFBA 0xFFFFFFBA 70 1 5 6) := inv_runs_top _ (.inr (.inr rfl))

theorem witness_RefusalsOnlyForNonNormalMemory :
    step (scripted [wr .cmd 2] (ready 0x40000000 0x2000 1 1)) = .refused .applyNotNormalMemory ∧
      step (scripted [.memLoad 0x400000FF] State.reset) = .refused (.hostNotNormalMemory 0x400000FF) := ⟨rfl, rfl⟩

theorem witness_OverrunSetOnlyByDroppedWrite :
    (∃ t, step (scripted [wr .counter 0x55] genRuns) = .next t ∧ genRuns.status.ovr = false ∧ t.status.ovr = true) ∧
      ∃ t, step (scripted [wr .cmd 2] genRuns) = .next t ∧ t.status.ovr = true :=
  ⟨⟨_, rfl, rfl, rfl⟩, _, rfl, rfl⟩

theorem witness_ArgumentsChangeOnlyByIdleHostWrites :
    (∃ t, step (scripted [wr .counter 0x55] State.reset) = .next t ∧ ¬SameArguments t.regs State.reset.regs) ∧
      ∃ t, step (scripted [.rst false] (ready 0 0 0 0)) = .next t ∧ ¬SameArguments t.regs (ready 0 0 0 0).regs :=
  ⟨⟨_, rfl, fun h => absurd h.1 (by decide)⟩, _, rfl, fun h => absurd h.1 (by decide)⟩

/-- KS0 is no 0 after a GEN (`test_gen_step`). -/
theorem witness_KeystreamRegistersChangeOnlyByGen :
    (∃ t, step genRuns = .next t ∧ t.regs.ks ≠ genRuns.regs.ks) ∧
      ∃ s t, step s = .next t ∧ t.regs.ks ≠ s.regs.ks ∧ s.env.script.head? = some (.rst false) := by
  refine ⟨⟨_, rfl, fun h => ?_⟩,
    scripted [.rst false] { State.reset with regs := { Regs.reset with ks := Vector.replicate 16 1 } }, _, rfl, ?_, rfl⟩
  · have h0 := test_gen_step
    simp only [engineStep_gen (s := genRuns) .ok rfl rfl, genStep, Option.some.injEq, Prod.mk.injEq] at h0
    have h1 : (blockWords Eng.zero.key Eng.zero.nonce 0)[0] = 0 := congrArg (fun v : Words16 => v[0]) h
    have h2 : (blockWords Eng.zero.key Eng.zero.nonce 0)[0] = 0xade0b876 := h0.2.2.1
    exact absurd (h1.symm.trans h2) (by decide)
  · decide

theorem witness_ResultsChangeOnlyAtCompletion :
    (∃ t, step genRuns = .next t ∧ ¬SameResults t.regs genRuns.regs) ∧
    (∃ t, step (scripted [wr .cmd 2] (ready 0x1000 0x2000 16 15)) = .next t ∧
      ¬SameResults t.regs (ready 0x1000 0x2000 16 15).regs) ∧
    ∃ s t, step s = .next t ∧ ¬SameResults t.regs s.regs ∧ s.env.script.head? = some (.rst false) :=
  ⟨⟨_, rfl, fun h => absurd h.1 (by decide)⟩, ⟨_, rfl, fun h => absurd h.1 (by decide)⟩,
    scripted [.rst false] { State.reset with regs := { Regs.reset with nextCtr := 1 } }, _, rfl,
    fun h => absurd h.1 (by decide), rfl⟩

theorem witness_EngineClearedWhenCommandEnds : ∃ t, step genRuns = .next t ∧ genRuns.busy = true ∧ t.busy = false :=
  ⟨_, rfl, rfl, rfl⟩

/-- An accepted APPLY; the last WR step of an APPLY of one byte, on memory that is all 0; an ABORT before its BLK step. -/
theorem witness_ApplyProgressKeptUnderAnySchedule :
    (let s := ready 0x1000 0x2000 1 1
     s.busy = false ∧ ApplyLegal s ∧ ∃ t, exec .apply s = .next t) ∧
    (let s := runs .wr 0x1000 0x2000 1 0 0 1
     Inv s ∧ s.env.raced = [] ∧ Progress [] s ∧ Undisturbed s (nextEvent s) ∧ ∃ t, step s = .next t) ∧
    (let s := scripted [wr .cmd 3] (runs .blk 0x1000 0x2000 1 0 0 0)
     s.env.raced = [] ∧ Progress [] s ∧ Undisturbed s (nextEvent s) ∧ ∃ t, step s = .next t) := by
  refine ⟨⟨rfl, legal_ready 0x1000 0x2000 1 (by decide) (by decide) (by decide) (by decide) (by decide) [], _, rfl⟩,
    ⟨?_, rfl, ⟨rfl, ⟨fun x hx => ?_, fun a _ => rfl⟩, fun q _ => ?_⟩, rfl, _, rfl⟩,
    ⟨rfl, ⟨rfl, ⟨fun x hx => ?_, fun a _ => rfl⟩, fun q hq => ?_⟩, trivial, _, rfl⟩⟩
  · exact inv_runs .wr _ _ _ _ _ _ (.inr (.inr rfl)) ⟨by show 0x1000 + 1 ≤ 2 ^ 32; decide,
      by show 0x2000 + 1 ≤ 2 ^ 32; decide, .inr (.inl (by show 0x1000 + 1 ≤ 0x2000; decide)), by show 64 * 0 < 1; decide⟩
      rfl (by decide)
  · exact absurd hx (Nat.not_lt_zero x)
  · exact Vector.getElem_replicate q.isLt
  · exact absurd hx (Nat.not_lt_zero x)
  · exact absurd hq (Nat.not_lt_zero q.val)

/-- One byte; and 65 bytes, a block and a byte, in place up to 0xFFFFFFFF. -/
theorem witness_ApplyComputesCounterModeStream :
    (let s := scripted (wr .cmd 2 :: (List.replicate 3 (.engine .ok) ++ [])) (ready 0x1000 0x2000 1 1)
     Inv s ∧ s.busy = false ∧ s.env.raced = [] ∧ ApplyLegal s ∧
       s.env.script = .host (regAccess s.env.plat .write .cmd 2) ::
         (List.replicate (blockCount 1 + 2 * 1) (.engine .ok) ++ [])) ∧
    (let s := scripted (wr .cmd 2 :: (List.replicate 132 (.engine .ok) ++ [])) (ready 0xFFFFFFBF 0xFFFFFFBF 65 65)
     Inv s ∧ s.busy = false ∧ s.env.raced = [] ∧ ApplyLegal s ∧
       s.env.script = .host (regAccess s.env.plat .write .cmd 2) ::
         (List.replicate (blockCount 65 + 2 * 65) (.engine .ok) ++ [])) :=
  ⟨⟨inv_ready 0x1000 0x2000 1 1 _, rfl, rfl, legal_ready 0x1000 0x2000 1 (by decide) (by decide) (by decide) (by decide) (by decide) _, rfl⟩,
    ⟨inv_ready 0xFFFFFFBF 0xFFFFFFBF 65 65 _, rfl, rfl, legal_ready 0xFFFFFFBF 0xFFFFFFBF 65 (by decide) (by decide) (by decide) (by decide) (by decide) _, rfl⟩⟩

theorem witness_InPlaceApplyTwiceRestoresMemory :
    let once := wr .cmd 2 :: List.replicate 3 (.engine .ok)
    let s := scripted (once ++ (once ++ [])) (ready 0x1000 0x1000 1 1)
    Inv s ∧ s.busy = false ∧ s.env.raced = [] ∧ ApplyLegal s ∧ s.regs.srcAddr = s.regs.dstAddr ∧
      s.env.script =
        (.host (regAccess s.env.plat .write .cmd 2) :: List.replicate (blockCount 1 + 2 * 1) (.engine .ok)) ++
          ((.host (regAccess s.env.plat .write .cmd 2) :: List.replicate (blockCount 1 + 2 * 1) (.engine .ok)) ++ []) :=
  ⟨inv_ready 0x1000 0x1000 1 1 _, rfl, rfl, legal_ready 0x1000 0x1000 1 (by decide) (by decide) (by decide) (by decide) (by decide) _, rfl, rfl⟩

theorem witness_EngineStepsLeftAlwaysDecrease :
    (let s := ready 0x1000 0x2000 1 1
     Inv s ∧ s.busy = false ∧ ApplyLegal s ∧ ∃ t, exec .apply s = .next t) ∧
    (let s := runs .wr 0x1000 0x2000 70 1 5 6
     Inv s ∧ s.busy = true ∧ s.eng.awaiting = false ∧ s.eng.abortPend = false) ∧
    (let s := scripted [wr .cmd 3] genRuns
     Inv s ∧ s.busy = true ∧ s.env.script.head? = some (wr .cmd 3) ∧ (∀ ans, wr .cmd 3 ≠ .engine ans) ∧
       (∀ b, wr .cmd 3 ≠ .rst b) ∧ ∃ t, step s = .next t) :=
  ⟨⟨inv_ready 0x1000 0x2000 1 1 [], rfl, legal_ready 0x1000 0x2000 1 (by decide) (by decide) (by decide) (by decide) (by decide) [], _, rfl⟩,
    ⟨inv_runs_small .wr 5 (.inr (.inr rfl)) (by decide), rfl, rfl, rfl⟩,
    ⟨⟨⟨by simp [scripted, genRuns, State.reset, Status.reset], fun _ => ⟨rfl, rfl, rfl⟩, (fun h => nomatch h)⟩, rfl,
      (fun h => nomatch h), RacesOk.of_none (fun _ hb => nomatch hb) rfl, Mem.wf_nil⟩, rfl, rfl, (fun _ h => nomatch h), (fun _ h => nomatch h), _, rfl⟩⟩

theorem witness_StreamContinuesAtBlockBoundary :
    64 ∣ ([] : List Byte).length ∧ 64 ∣ (List.replicate 64 (0 : Byte)).length := by decide

theorem witness_RotationMovesEveryBit : 0 < 1 ∧ 1 < 32 ∧ 0 < 31 ∧ 31 < 32 := by decide

theorem witness_QuarterRoundsOfAPassCommute :
    columnGroups.reverse.Perm columnGroups ∧ diagonalGroups.reverse.Perm diagonalGroups :=
  ⟨List.reverse_perm _, List.reverse_perm _⟩

theorem witness_BlockIsRoundsFeedForwardSerial : 0 < 8 ∧ 7 < 8 := by decide

theorem witness_RegisterReadsReturnValuesWithoutSideEffect (r : Reg) :
    let s := scripted [.host (regAccess Env.reset.plat .read r 0)] State.reset
    s.env.script.head? = some (.host (regAccess s.env.plat .read r 0)) := rfl

theorem witness_StatusWordFields : 9 ≤ 9 ∧ 9 ≤ 31 := by decide

theorem witness_StatusWriteClearsNamedFlags :
    let s := scripted [wr .status 0xFFFFFFFF] genRuns
    s.env.script.head? = some (.host (regAccess s.env.plat .write .status 0xFFFFFFFF)) := rfl

theorem witness_InterruptEnableWrite :
    let s := scripted [wr .irqEn 0xFFFFFFFF] genRuns
    s.env.script.head? = some (.host (regAccess s.env.plat .write .irqEn 0xFFFFFFFF)) := rfl

/-- Each of the argument registers, with its highest index. -/
theorem witness_ArgumentWriteWhileIdleSetsRegister (w : Word) :
    (∀ r, let s := scripted [wr r w] State.reset
      s.busy = false ∧ s.env.script.head? = some (.host (regAccess s.env.plat .write r w))) ∧
    ∀ r ∈ [Reg.counter, .srcAddr, .dstAddr, .srcLen, .dstLen, .key 7, .nonce 2], ∃ regs', LockedWrite Regs.reset w r regs' := by
  refine ⟨fun r => ⟨rfl, rfl⟩, fun r hr => ?_⟩
  simp only [List.mem_cons, List.not_mem_nil, or_false] at hr
  rcases hr with rfl | rfl | rfl | rfl | rfl | rfl | rfl
  exacts [⟨_, .counter⟩, ⟨_, .srcAddr⟩, ⟨_, .dstAddr⟩, ⟨_, .srcLen⟩, ⟨_, .dstLen⟩, ⟨_, .key 7⟩, ⟨_, .nonce 2⟩]

theorem witness_ArgumentWriteWhileBusyIsDropped (r : Reg) :
    let s := scripted [wr r 0x55] genRuns
    s.busy = true ∧ s.env.script.head? = some (.host (regAccess s.env.plat .write r 0x55)) := ⟨rfl, rfl⟩

theorem witness_ReadOnlyWritesIgnored (r : Reg) :
    let s := scripted [wr r 5] State.reset
    s.env.script.head? = some (.host (regAccess s.env.plat .write r 5)) := rfl

/-- A narrow access, a misaligned one, and one to the first reserved offset. -/
theorem witness_BadRegisterAccessGetsBusError :
    (∀ a : Access, (scripted [.host a] State.reset).env.script.head? = some (.host a)) ∧
      (inWindow Env.reset.plat 0x40000004 = true ∧ 2 ≠ 4) ∧
      (inWindow Env.reset.plat 0x40000006 = true ∧ (0x40000006 : Word).toNat % 4 ≠ 0) ∧
      (inWindow Env.reset.plat 0x40000030 = true ∧ decodeOffset ((0x40000030 : Word).extractLsb' 0 8) = none) ∧
      (inWindow Env.reset.plat 0x400000FC = true ∧ decodeOffset ((0x400000FC : Word).extractLsb' 0 8) = none) :=
  ⟨fun _ => rfl, by decide⟩

/-- Two running APPLYs with other keys, shadows and buffers. -/
theorem witness_ReadsRevealNothingOfKeysOrEngine :
    let a := regAccess Env.reset.plat .read (.key 0) 0
    let s := scripted [.host a] (runs .rd 0x1000 0x2000 70 0 0 64)
    let s' := { s with regs := { s.regs with key := Vector.replicate 8 1 },
                       eng := { s.eng with key := Vector.replicate 8 1, len := 71, ks := Vector.replicate 64 1 } }
    a.dir = .read ∧ s.env.script.head? = some (.host a) ∧
      s' = { s with regs := { s.regs with key := s'.regs.key },
                    eng := { s'.eng with phase := s.eng.phase, abortPend := s.eng.abortPend } } ∧
      (∃ t, step s = .next t) ∧ ∃ t', step s' = .next t' :=
  ⟨rfl, rfl, rfl, ⟨_, rfl⟩, _, rfl⟩

theorem witness_EngineStepsReadOnlyShadows :
    (∃ t, engineStep .ok (runs .rd 0x1000 0x2000 70 1 0 6) = .next t) ∧
      ∃ t, engineStep .busError (runs .wr 0x1000 0x2000 70 1 0 6) = .next t := ⟨⟨_, rfl⟩, _, rfl⟩

theorem witness_InterruptFollowsDoneAndEnable :
    (scripted [.sampleIrq] State.reset).env.script.head? = some .sampleIrq ∧ (2 : Word).getLsbD 1 = true ∧
      (scripted [wr .status 2] State.reset).env.script.head? = some (.host (regAccess Env.reset.plat .write .status 2)) :=
  ⟨rfl, by decide, rfl⟩

/-- A reset in a WR stage, with a write in flight, and with none. -/
theorem witness_ResetAbandonsCommandAndKeepsMemory :
    (let s := scripted [.rst true] (runs .wr 0x1000 0x2000 70 1 0 6)
     Mem.wf s.mem ∧ s.env.script.head? = some (.rst true) ∧ s.eng.phase = .wr) ∧
    (let s := scripted [.rst false] (unanswered (runs .wr 0x1000 0x2000 70 1 0 6))
     Mem.wf s.mem ∧ s.env.script.head? = some (.rst false) ∧ s.eng.phase = .wr ∧ s.eng.awaiting = true) ∧
    (let s := scripted [.rst false] (runs .wr 0x1000 0x2000 70 1 0 6)
     Mem.wf s.mem ∧ s.env.script.head? = some (.rst false) ∧ s.eng.awaiting = false) :=
  ⟨⟨Mem.wf_nil, rfl, rfl⟩, ⟨Mem.wf_nil, rfl, rfl, rfl⟩, ⟨Mem.wf_nil, rfl, rfl⟩⟩

/-- A load and a store at the first and the last byte of the ranges of a running APPLY; an RD and a WR step after a race on the
range. -/
theorem witness_RacingAccessesYieldFreeBytes :
    (∀ a ∈ ([0x2000, 0x2045] : List Word),
      let s := scripted [.memLoad a] (runs .rd 0x1000 0x2000 70 1 0 6)
      s.env.script.head? = some (.memLoad a) ∧ normalRange s.env.plat a.toNat 1 = true ∧ RacesOk s ∧ Mem.wf s.mem ∧
        ∃ b ∈ s.env.owned, b.dst ≤ a.toNat ∧ a.toNat < b.dst + b.len) ∧
    (∀ a ∈ ([0x1000, 0x1045, 0x2000, 0x2045] : List Word),
      let s := scripted [.memStore a 1] (runs .rd 0x1000 0x2000 70 1 0 6)
      s.env.script.head? = some (.memStore a 1) ∧ normalRange s.env.plat a.toNat 1 = true ∧ RacesOk s ∧ Mem.wf s.mem ∧
        ∃ b ∈ s.env.owned, (b.src ≤ a.toNat ∧ a.toNat < b.src + b.len) ∨ (b.dst ≤ a.toNat ∧ a.toNat < b.dst + b.len)) ∧
    (let s := racedOn 0x1000 70 (runs .rd 0x1000 0x2000 70 1 5 6)
     s.eng.phase = .rd ∧ s.eng.awaiting = false ∧ s.eng.i.val < s.eng.n.val ∧ rdAddress s.eng = 0x1045 ∧
       isRaced s (rdAddress s.eng) = true) ∧
    (let s := racedOn 0x2000 70 (runs .wr 0x1000 0x2000 70 1 5 6)
     s.eng.phase = .wr ∧ s.eng.awaiting = false ∧ s.eng.i.val < s.eng.n.val ∧ wrAddress s.eng = 0x2045 ∧
       isRaced s (wrAddress s.eng) = true ∧ Mem.wf s.mem) := by
  have h : ApplyOk (runs .rd 0x1000 0x2000 70 1 0 6).eng :=
    (inv_runs_small .rd 0 (.inr (.inl rfl)) (by decide)).eng.1
  have hl : ∀ a ∈ ([0x2000, 0x2045] : List Word), normalRange Env.reset.plat a.toNat 1 = true ∧
      0x2000 ≤ a.toNat ∧ a.toNat < 0x2000 + 70 := by
    have hall : ([0x2000, 0x2045] : List Word).all (fun a => normalRange Env.reset.plat a.toNat 1 &&
        (decide (0x2000 ≤ a.toNat) && decide (a.toNat < 0x2000 + 70))) = true := rfl
    simpa only [List.all_eq_true, Bool.and_eq_true, decide_eq_true_eq] using hall
  have hs : ∀ a ∈ ([0x1000, 0x1045, 0x2000, 0x2045] : List Word), normalRange Env.reset.plat a.toNat 1 = true ∧
      ((0x1000 ≤ a.toNat ∧ a.toNat < 0x1000 + 70) ∨ (0x2000 ≤ a.toNat ∧ a.toNat < 0x2000 + 70)) := by
    have hall : ([0x1000, 0x1045, 0x2000, 0x2045] : List Word).all (fun a => normalRange Env.reset.plat a.toNat 1 &&
        ((decide (0x1000 ≤ a.toNat) && decide (a.toNat < 0x1000 + 70)) ||
          (decide (0x2000 ≤ a.toNat) && decide (a.toNat < 0x2000 + 70)))) = true := rfl
    simpa only [List.all_eq_true, Bool.and_eq_true, Bool.or_eq_true, decide_eq_true_eq] using hall
  exact ⟨fun a ha => ⟨rfl, (hl a ha).1, races_runs h, Mem.wf_nil, _, List.mem_singleton.2 rfl, (hl a ha).2⟩,
    fun a ha => ⟨rfl, (hs a ha).1, races_runs h, Mem.wf_nil, _, List.mem_singleton.2 rfl, (hs a ha).2⟩, by decide, by decide⟩

/-- The byte before and after each range of a running APPLY, and, for a load, the input range itself; the observations while idle. -/
theorem witness_HostMemoryAccessesOutsideOwnedBuffers :
    (∀ a ∈ ([0, 0x0FFF, 0x1000, 0x1045, 0x1046, 0x1FFF, 0x2046, 0xFFFFFFFF] : List Word),
      let s := scripted [.memLoad a] (runs .rd 0x1000 0x2000 70 1 0 6)
      s.env.script.head? = some (.memLoad a) ∧ normalRange s.env.plat a.toNat 1 = true ∧
        ∀ b ∈ s.env.owned, ¬(b.dst ≤ a.toNat ∧ a.toNat < b.dst + b.len)) ∧
    (∀ a ∈ ([0, 0x0FFF, 0x1046, 0x1FFF, 0x2046, 0xFFFFFFFF] : List Word),
      let s := scripted [.memStore a 1] (runs .rd 0x1000 0x2000 70 1 0 6)
      s.env.script.head? = some (.memStore a 1) ∧ normalRange s.env.plat a.toNat 1 = true ∧ Mem.wf s.mem ∧
        ∀ b ∈ s.env.owned, ¬(b.src ≤ a.toNat ∧ a.toNat < b.src + b.len) ∧ ¬(b.dst ≤ a.toNat ∧ a.toNat < b.dst + b.len)) ∧
    (let s := scripted [rd .status 0] State.reset
     s.env.script.head? = some (.host (regAccess s.env.plat .read .status 0)) ∧ s.busy = false) ∧
    (let s := scripted [.sampleIrq] { State.reset with doneIe := true, status := { Status.reset with done := true } }
     s.env.script.head? = some .sampleIrq ∧ s.irq = true) ∧
    ∃ t, step (scripted [.memLoad 0] (runs .rd 0x1000 0x2000 70 1 0 6)) = .next t := by
  have hl : ∀ a ∈ ([0, 0x0FFF, 0x1000, 0x1045, 0x1046, 0x1FFF, 0x2046, 0xFFFFFFFF] : List Word),
      normalRange Env.reset.plat a.toNat 1 = true ∧ ¬(0x2000 ≤ a.toNat ∧ a.toNat < 0x2000 + 70) := by
    have hall : ([0, 0x0FFF, 0x1000, 0x1045, 0x1046, 0x1FFF, 0x2046, 0xFFFFFFFF] : List Word).all (fun a =>
        normalRange Env.reset.plat a.toNat 1 && decide (¬(0x2000 ≤ a.toNat ∧ a.toNat < 0x2000 + 70))) = true := rfl
    simpa only [List.all_eq_true, Bool.and_eq_true, decide_eq_true_eq] using hall
  have hs : ∀ a ∈ ([0, 0x0FFF, 0x1046, 0x1FFF, 0x2046, 0xFFFFFFFF] : List Word),
      normalRange Env.reset.plat a.toNat 1 = true ∧
        ¬(0x1000 ≤ a.toNat ∧ a.toNat < 0x1000 + 70) ∧ ¬(0x2000 ≤ a.toNat ∧ a.toNat < 0x2000 + 70) := by
    have hall : ([0, 0x0FFF, 0x1046, 0x1FFF, 0x2046, 0xFFFFFFFF] : List Word).all (fun a =>
        normalRange Env.reset.plat a.toNat 1 && (decide (¬(0x1000 ≤ a.toNat ∧ a.toNat < 0x1000 + 70)) &&
          decide (¬(0x2000 ≤ a.toNat ∧ a.toNat < 0x2000 + 70)))) = true := rfl
    simpa only [List.all_eq_true, Bool.and_eq_true, decide_eq_true_eq] using hall
  exact ⟨fun a ha => ⟨rfl, (hl a ha).1, fun b hb => by cases List.mem_singleton.1 hb; exact (hl a ha).2⟩,
    fun a ha => ⟨rfl, (hs a ha).1, Mem.wf_nil, fun b hb => by cases List.mem_singleton.1 hb; exact (hs a ha).2⟩,
    ⟨rfl, rfl⟩, ⟨rfl, rfl⟩, _, rfl⟩

end Sys2Proof.Tests
end

section
/-! PROOF. Little-endian packing (00_scope.md R12) and its inverse, the serialisation (40_block_generator.md R130). Both are
read as numbers: byte `n` is the word divided by `2 ^ (8 * n)`, and `le32` adds the bytes up at those weights. -/

namespace Sys2Proof.Machine

/-- The number a byte of a word holds. -/
theorem byteOfWord_toNat (w : Word) (n : Nat) : (byteOfWord w n).toNat = w.toNat / 2 ^ (8 * n) % 2 ^ 8 := by
  rw [byteOfWord, BitVec.extractLsb'_toNat, Nat.shiftRight_eq_div_pow]

/-- The number `le32` packs; four bytes fit a word, so no addition and no shift overflows. -/
theorem le32_toNat (b0 b1 b2 b3 : Byte) :
    (le32 b0 b1 b2 b3).toNat = b0.toNat + 2 ^ 8 * b1.toNat + 2 ^ 16 * b2.toNat + 2 ^ 24 * b3.toNat := by
  have h0 := b0.isLt
  have h1 := b1.isLt
  have h2 := b2.isLt
  have h3 := b3.isLt
  simp only [le32, BitVec.toNat_add, BitVec.toNat_shiftLeft, BitVec.toNat_setWidth, Nat.shiftLeft_eq]
  omega

/-- A word is `le32` of its four bytes. -/
theorem le32_byteOfWord (w : Word) :
    le32 (byteOfWord w 0) (byteOfWord w 1) (byteOfWord w 2) (byteOfWord w 3) = w := by
  have hw := w.isLt
  apply BitVec.eq_of_toNat_eq
  simp only [le32_toNat, byteOfWord_toNat]
  omega

/-- Word `i` of a block is serialised at bytes `4 * i` to `4 * i + 3`. -/
theorem serial_getElem!_of_word (w : Words16) (i : Fin 16) (n : Nat) (hn : n < 4) :
    (serial w)[4 * i.val + n]! = byteOfWord w[i] n := by
  have hdiv : (4 * i.val + n) / 4 = i.val := by omega
  have hmod : (4 * i.val + n) % 4 = n := by omega
  rw [getElem!_pos (serial w) _ (by omega), serial_getElem w _ (by omega)]
  simp only [hdiv, hmod, Fin.getElem_fin]

/-- Settles O44: packing is a sum of weighted bytes, and the serialised bytes of a word are that word's bytes in order. -/
theorem littleEndianPackingInvertsSerialisation : Obligations.LittleEndianPackingInvertsSerialisation := by
  refine ⟨le32_toNat, fun w i => ?_⟩
  have h0 : (serial w)[4 * i.val]! = byteOfWord w[i] 0 := serial_getElem!_of_word w i 0 (by decide)
  rw [h0, serial_getElem!_of_word w i 1 (by decide), serial_getElem!_of_word w i 2 (by decide),
    serial_getElem!_of_word w i 3 (by decide), le32_byteOfWord]

end Sys2Proof.Machine
end

section
/-! PROOF. Every step keeps the invariant of the machine (10_state.md R42, R47, R50). Each part of it has one rule for each
shared operation: the flags by what becomes of STATUS and of the phase, the engine by the stage it moves to, the memory side
by the bytes that are written. A kind of effect is then a case analysis that cites these rules. -/

namespace Sys2Proof

open Machine

variable {s t : State} {e : Eng}

/-! ### The flags (10_state.md R50) -/

theorem Machine.busy_congr (he : t.eng = s.eng) : t.busy = s.busy := by rw [State.busy, State.busy, he]

theorem Machine.busy_of_rest (he : t.eng = Eng.zero) : t.busy = false := by rw [State.busy, he]; rfl

/-- An operation that leaves the engine, ERR and RESULT, and does not set DONE, keeps the flags' invariants. -/
theorem FlagsOk.of_same_eng (h : FlagsOk s) (he : t.eng = s.eng) (herr : t.status.err = s.status.err)
    (hres : t.status.result = s.status.result) (hdone : s.status.done = false → t.status.done = false) : FlagsOk t where
  err_iff := by rw [herr, hres]; exact h.err_iff
  busy_clear hb := by
    obtain ⟨hd, hr⟩ := h.busy_clear (by rwa [busy_congr he] at hb)
    rw [herr, hres]
    exact ⟨hdone hd, hr⟩
  idle_no_abort hb := by
    rw [State.abortPending, he]
    exact h.idle_no_abort (by rwa [busy_congr he] at hb)

/-- An operation of a running command that leaves STATUS, and the command running, keeps the flags' invariants. -/
theorem FlagsOk.of_still_busy (h : FlagsOk s) (hs : s.busy = true) (ht : t.busy = true) (hst : t.status = s.status) :
    FlagsOk t where
  err_iff := by rw [hst]; exact h.err_iff
  busy_clear _ := by rw [hst]; exact h.busy_clear hs
  idle_no_abort hb := by rw [ht] at hb; cases hb

theorem FlagsOk.of_rest (he : t.eng = Eng.zero) (herr : t.status.err = true ↔ t.status.result ≠ .ok) : FlagsOk t where
  err_iff := herr
  busy_clear hb := by rw [busy_of_rest he] at hb; cases hb
  idle_no_abort _ := by rw [State.abortPending, he]; rfl

theorem FlagsOk.of_completed {st : Status} {res : Result} (he : t.eng = Eng.zero) (hst : t.status = st.completed res) :
    FlagsOk t :=
  .of_rest he (by simp [hst])

theorem FlagsOk.of_started {st : Status} (hb : t.busy = true) (hst : t.status = st.started) : FlagsOk t where
  err_iff := by simp [hst]
  busy_clear _ := by simp [hst]
  idle_no_abort hf := by rw [hb] at hf; cases hf

theorem FlagsOk.resetBlock (s : State) : FlagsOk (resetBlock s) := .of_rest rfl (by simp [Status.reset])

theorem Machine.CommandEffect.flagsOk {i : Instr} (h : CommandEffect s i t) (hf : FlagsOk s) : FlagsOk t := by
  cases h with
  | genDropped | applyDropped => exact hf.of_same_eng rfl rfl rfl id
  | genStarts | applyStarts => exact .of_started rfl rfl
  | applyCompletes => exact .of_completed rfl rfl
  | abortRequests hb => exact hf.of_still_busy hb hb rfl
  | abortIdle => exact hf

theorem Machine.WriteEffect.flagsOk {r : Reg} {w : Word} (h : WriteEffect s r w t) (hf : FlagsOk s) : FlagsOk t := by
  cases h with
  | command _ hc => exact hc.flagsOk hf
  | reservedBad => exact .of_completed rfl rfl
  | reservedDropped | lockedDropped | irqEn | lockedSet => exact hf.of_same_eng rfl rfl rfl id
  | status => exact hf.of_same_eng rfl rfl rfl (by simp +contextual)
  | ignored => exact hf

theorem FlagsOk.withReply (hf : FlagsOk s) (r : Reply) : FlagsOk (withReply r s) := hf.of_same_eng rfl rfl rfl id

theorem FlagsOk.observed (hf : FlagsOk s) : FlagsOk (observed s) := hf.of_same_eng rfl rfl rfl id

theorem FlagsOk.hostRead (hf : FlagsOk s) (r : Reg) : FlagsOk (hostRead r s) := by
  unfold Machine.hostRead
  split
  · exact hf.observed.withReply _
  · exact hf.withReply _

theorem Machine.AccessEffect.flagsOk {a : Access} (h : AccessEffect s a t) (hf : FlagsOk s) : FlagsOk t := by
  cases h with
  | notSelected | busError => exact hf.withReply _
  | read => exact hf.hostRead _
  | write _ _ _ hw => exact hw.flagsOk (hf.withReply _)

theorem Machine.EngineEffect.flagsOk {ans : MemAnswer} (h : EngineEffect s ans t) (hf : FlagsOk s) : FlagsOk t := by
  cases h with
  | waiting | idle => exact hf
  | gen | aborted | rdError | wrError | wrDone => exact .of_completed rfl rfl
  | blk _ hp => exact hf.of_still_busy (by simp [State.busy, hp]) rfl rfl
  | noResponse _ hp =>
    have hb : s.busy = true := by rcases hp with hp | hp <;> simp [State.busy, hp]
    exact hf.of_still_busy hb hb rfl
  | rdMore _ hp | rdLast _ hp =>
    exact hf.of_still_busy (by simp [State.busy, hp]) (by simp [State.busy, hp, readMore, readLast]) (by simp)
  | wrMore _ hp | wrNextBlock _ hp =>
    exact hf.of_still_busy (by simp [State.busy, hp]) (by simp [State.busy, hp]) (by simp)

theorem Machine.EventEffect.flagsOk {ev : Event} (h : EventEffect s ev t) (hf : FlagsOk s) : FlagsOk t := by
  cases h with
  | host ha => exact ha.flagsOk hf
  | loadRaces | load | storeRaces | store => exact hf.of_same_eng rfl rfl rfl id
  | sampleHigh => exact hf.observed.withReply _
  | sampleLow => exact hf.withReply _
  | engine he => exact he.flagsOk hf
  | rstInFlight | rst => exact .resetBlock _

theorem FlagsOk.popScript (hf : FlagsOk s) : FlagsOk (popScript s) := hf.of_same_eng rfl rfl rfl id

/-- Settles O24: taking the event off the script touches no flag, and every effect keeps the flags' invariants. -/
theorem flagInvariantsKeptByEveryStep : Obligations.FlagInvariantsKeptByEveryStep :=
  fun _ _ hf h => (step_effect h).flagsOk hf.popScript

/-! ### The memory side: the canonical form, and the record of buffers and races -/

/-- What the invariant says of memory and of the record of buffers and races. -/
structure MemoryOk (s : State) : Prop where
  races : RacesOk s
  wf : Mem.wf s.mem

theorem Inv.memoryOk (h : Inv s) : MemoryOk s := ⟨h.races, h.mem⟩

theorem Machine.isRaced_congr (hr : t.env.raced = s.env.raced) (x : Nat) : isRaced t x = isRaced s x := by
  rw [isRaced, isRaced, hr]

/-- Free bytes may be passed over; nothing else that the memory side speaks of changes. -/
theorem MemoryOk.of_frame (h : MemoryOk s) (hm : t.mem = s.mem) (ho : t.env.owned = s.env.owned)
    (hr : t.env.raced = s.env.raced) (hc : s.env.freeCtr ≤ t.env.freeCtr) : MemoryOk t where
  races :=
    { fits := by rw [ho]; exact h.races.fits
      owned := by rw [ho, hr]; exact h.races.owned
      free := fun x hx => by
        rw [isRaced_congr hr] at hx
        obtain ⟨n, hn, hf⟩ := h.races.free x hx
        exact ⟨n, hn.trans_le hc, by rw [hm, hf]⟩ }
  wf := by rw [hm]; exact h.wf

theorem MemoryOk.congr (h : MemoryOk s) (hm : t.mem = s.mem) (he : t.env = s.env) : MemoryOk t :=
  h.of_frame hm (by rw [he]) (by rw [he]) (by rw [he])

theorem MemoryOk.drawn (h : MemoryOk s) : MemoryOk (drawn s) := h.of_frame rfl rfl rfl (Nat.le_succ _)

theorem MemoryOk.withReply (h : MemoryOk s) (r : Reply) : MemoryOk (withReply r s) := h.of_frame rfl rfl rfl le_rfl

/-- A byte that no one raced on may be written with any value. -/
theorem MemoryOk.storeByte (h : MemoryOk s) {a : Nat} (v : Byte) (ha : a < 2 ^ 32) (hr : isRaced s a = false) :
    MemoryOk (storeByte a v s) where
  races :=
    { fits := h.races.fits
      owned := h.races.owned
      free := fun x hx => by
        have hx' : isRaced s x = true := hx
        have hne : x ≠ a := fun he => by rw [he, hr] at hx'; cases hx'
        rw [storeByte_mem, memRead_memWrite_other h.wf v hne]
        exact h.races.free x hx' }
  wf := storeByte_wf ha h.wf

/-- Any byte may be written with a free byte. -/
theorem MemoryOk.storeFree (h : MemoryOk s) {a : Nat} (ha : a < 2 ^ 32) : MemoryOk (storeFree a s) where
  races :=
    { fits := h.races.fits
      owned := h.races.owned
      free := fun x hx => by
        by_cases hxa : x = a
        · exact ⟨s.env.freeCtr, Nat.lt_succ_self _, by rw [hxa, storeFree_mem, memRead_memWrite_same h.wf]; rfl⟩
        · obtain ⟨n, hn, hf⟩ := h.races.free x hx
          exact ⟨n, hn.trans (Nat.lt_succ_self _), by rw [storeFree_mem, memRead_memWrite_other h.wf _ hxa, hf]⟩ }
  wf := storeFree_wf ha h.wf

/-- The ranges of the buffers in the record lie in the DMA space. -/
theorem RacesOk.range_fits (h : RacesOk s) {r : Region} (hr : ∃ b ∈ s.env.owned, r = b.input ∨ r = b.output) :
    r.start + r.size ≤ 2 ^ 32 := by
  obtain ⟨b, hb, rfl | rfl⟩ := hr
  · exact (h.fits b hb).1
  · exact (h.fits b hb).2

/-- A race on ranges of the record: its draws are the numbers of the DMA addresses, which it passes over. -/
theorem MemoryOk.raceOn (h : MemoryOk s) {rs : List Region}
    (hrs : ∀ r ∈ rs, ∃ b ∈ s.env.owned, r = b.input ∨ r = b.output) : MemoryOk (raceOn rs s) where
  races :=
    { fits := h.races.fits
      owned := fun r hr => (mem_foldr_insert.1 hr).elim (hrs r) (h.races.owned r)
      free := fun x hx => by
        rw [raceOn_mem, memRead_memFreeAll (fun r hr => h.races.range_fits (hrs r hr)) h.wf]
        split
        · next hany =>
          obtain ⟨r, hr, hin⟩ := List.any_eq_true.1 hany
          have hlt : x < 2 ^ 32 := (inRegion_iff.1 hin).2.trans_le (h.races.range_fits (hrs r hr))
          exact ⟨s.env.freeCtr + x, Nat.add_lt_add_left hlt _, rfl⟩
        · next hany =>
          obtain ⟨n, hn, hf⟩ := h.races.free x ((isRaced_raceOn.1 hx).resolve_left hany)
          exact ⟨n, hn.trans_le (Nat.le_add_right _ _), hf⟩ }
  wf := raceOn_wf (fun r hr => h.races.range_fits (hrs r hr)) h.wf

/-- The observation of completion empties the record. -/
theorem MemoryOk.observed (h : MemoryOk s) : MemoryOk (observed s) where
  races := RacesOk.of_none (fun _ hb => nomatch hb) rfl
  wf := h.wf

/-- Buffers inside the DMA space may be added to the record. -/
theorem MemoryOk.acceptApply (h : MemoryOk s) (hsrc : s.regs.srcAddr.toNat + s.regs.srcLen.toNat ≤ 2 ^ 32)
    (hdst : s.regs.dstAddr.toNat + s.regs.srcLen.toNat ≤ 2 ^ 32) : MemoryOk (acceptApply s) where
  races :=
    { fits := List.forall_mem_cons.2 ⟨⟨hsrc, hdst⟩, h.races.fits⟩
      owned := fun r hr =>
        let ⟨b, hb, hrb⟩ := h.races.owned r hr
        ⟨b, List.mem_cons_of_mem _ hb, hrb⟩
      free := h.races.free }
  wf := h.wf

theorem MemoryOk.dmaRead (h : MemoryOk s) (a : Nat) : MemoryOk (dmaRead a s).2 := by
  unfold Machine.dmaRead
  split
  · exact h.drawn
  · exact h

theorem MemoryOk.dmaWrite (h : MemoryOk s) {a : Nat} (v : Byte) (ha : a < 2 ^ 32) : MemoryOk (dmaWrite a v s) := by
  unfold Machine.dmaWrite
  split
  · exact h.storeFree ha
  · next hr => exact h.storeByte v ha (by simpa using hr)

/-- A store that does not race is to a byte that no one raced on: the ranges raced on are ranges of the record's buffers. -/
theorem RacesOk.not_isRaced (h : RacesOk s) {a : Nat} (hr : racesStore s a = false) : isRaced s a = false := by
  rw [← Bool.not_eq_true] at hr ⊢
  intro hx
  obtain ⟨r, hmem, hin⟩ := List.any_eq_true.1 hx
  obtain ⟨b, hb, hrb⟩ := h.owned r hmem
  rw [inRegion_iff] at hin
  refine hr (racesStore_iff.2 ⟨b, hb, ?_⟩)
  rcases hrb with rfl | rfl
  · exact .inl hin
  · exact .inr hin

/-! ### The engine by its phase (10_state.md R42 to R47) -/

theorem EngOk.of_idle (h : EngOk e) (hp : e.phase = .idle) : e = Eng.zero := by simpa only [EngOk, hp] using h

theorem EngOk.of_gen (h : EngOk e) (hp : e.phase = .gen) : e.awaiting = false := by simpa only [EngOk, hp] using h

theorem EngOk.of_blk (h : EngOk e) (hp : e.phase = .blk) :
    ApplyOk e ∧ e.awaiting = false ∧ e.runCtr = e.ctr0 + e.j := by
  simpa only [EngOk, hp] using h

theorem EngOk.of_rd (h : EngOk e) (hp : e.phase = .rd) : ApplyOk e ∧ InBlock e := by simpa only [EngOk, hp] using h

theorem EngOk.of_wr (h : EngOk e) (hp : e.phase = .wr) : ApplyOk e ∧ InBlock e := by simpa only [EngOk, hp] using h

theorem EngOk.gen (hp : e.phase = .gen) (haw : e.awaiting = false) : EngOk e := by simpa only [EngOk, hp] using haw

theorem EngOk.blk (hp : e.phase = .blk) (ha : ApplyOk e) (haw : e.awaiting = false) (hc : e.runCtr = e.ctr0 + e.j) :
    EngOk e := by
  simpa only [EngOk, hp] using ⟨ha, haw, hc⟩

theorem EngOk.rd (hp : e.phase = .rd) (ha : ApplyOk e) (hb : InBlock e) : EngOk e := by
  simpa only [EngOk, hp] using And.intro ha hb

theorem EngOk.wr (hp : e.phase = .wr) (ha : ApplyOk e) (hb : InBlock e) : EngOk e := by
  simpa only [EngOk, hp] using And.intro ha hb

/-- The shadows of an APPLY speak of its ranges and its block index alone. -/
theorem ApplyOk.congr {e' : Eng} (h : ApplyOk e) (hsrc : e'.src = e.src) (hdst : e'.dst = e.dst) (hlen : e'.len = e.len)
    (hj : e'.j = e.j) : ApplyOk e' where
  src_fits := by rw [hsrc, hlen]; exact h.src_fits
  dst_fits := by rw [hdst, hlen]; exact h.dst_fits
  apart := by rw [hsrc, hdst, hlen]; exact h.apart
  block := by rw [hj, hlen]; exact h.block

/-- The next block of an APPLY that has one. -/
theorem ApplyOk.nextBlock {e' : Eng} (h : ApplyOk e) (hsrc : e'.src = e.src) (hdst : e'.dst = e.dst)
    (hlen : e'.len = e.len) (hj : e'.j = e.j + 1) (hl : 64 * (e.j.toNat + 1) < e.len.toNat) : ApplyOk e' where
  src_fits := by rw [hsrc, hlen]; exact h.src_fits
  dst_fits := by rw [hdst, hlen]; exact h.dst_fits
  apart := by rw [hsrc, hdst, hlen]; exact h.apart
  block := by rw [hj, hlen, block_succ_toNat h]; exact hl

/-- An abort request changes nothing that is said of a running engine. -/
theorem EngOk.abortRequest (h : EngOk e) (hp : e.phase ≠ .idle) : EngOk { e with abortPend := true } := by
  cases hph : e.phase with
  | idle => exact absurd hph hp
  | gen => exact .gen rfl (h.of_gen hph)
  | blk =>
    obtain ⟨ha, haw, hc⟩ := h.of_blk hph
    exact .blk rfl (ha.congr rfl rfl rfl rfl) haw hc
  | rd =>
    obtain ⟨ha, hb⟩ := h.of_rd hph
    exact .rd rfl (ha.congr rfl rfl rfl rfl) ⟨hb.length, hb.index, hb.stream, hb.counter⟩
  | wr =>
    obtain ⟨ha, hb⟩ := h.of_wr hph
    exact .wr rfl (ha.congr rfl rfl rfl rfl) ⟨hb.length, hb.index, hb.stream, hb.counter⟩

/-- A DMA access without a response leaves the engine in its stage. -/
theorem EngOk.waits (h : EngOk e) (hp : e.phase = .rd ∨ e.phase = .wr) : EngOk { e with awaiting := true } := by
  rcases hp with hp | hp
  · obtain ⟨ha, hb⟩ := h.of_rd hp
    exact .rd hp (ha.congr rfl rfl rfl rfl) ⟨hb.length, hb.index, hb.stream, hb.counter⟩
  · obtain ⟨ha, hb⟩ := h.of_wr hp
    exact .wr hp (ha.congr rfl rfl rfl rfl) ⟨hb.length, hb.index, hb.stream, hb.counter⟩

/-- A BLK step enters block `eng.j`, which has a byte, with its keystream and the counter one up. -/
theorem EngOk.generates (h : EngOk e) (hp : e.phase = .blk) :
    EngOk { e with ks := blockBytes e.key e.nonce e.runCtr, runCtr := add32 e.runCtr 1, n := blockLength e, i := 0,
                   phase := .rd } := by
  obtain ⟨ha, -, hc⟩ := h.of_blk hp
  have hpos : 0 < (blockLength e).val := by
    have := ha.block
    rw [blockLength_val]
    omega
  exact .rd rfl (ha.congr rfl rfl rfl rfl) ⟨rfl, hpos, by rw [hc], by rw [hc]; rfl⟩

theorem EngOk.readMore (h : EngOk e) (hp : e.phase = .rd) (b : Byte) {i' : Fin 64} (hi : i'.val = e.i.val + 1)
    (hn : e.i.val + 1 ≠ e.n.val) : EngOk (readMore b i' e) := by
  obtain ⟨ha, hb⟩ := h.of_rd hp
  have hlt : i'.val < e.n.val := by have := hb.index; omega
  exact .rd hp (ha.congr rfl rfl rfl rfl) ⟨hb.length, hlt, hb.stream, hb.counter⟩

theorem EngOk.readLast (h : EngOk e) (hp : e.phase = .rd) (b : Byte) : EngOk (readLast b e) := by
  obtain ⟨ha, hb⟩ := h.of_rd hp
  exact .wr rfl (ha.congr rfl rfl rfl rfl) ⟨hb.length, Nat.zero_lt_of_lt hb.index, hb.stream, hb.counter⟩

theorem EngOk.writeMore (h : EngOk e) (hp : e.phase = .wr) {i' : Fin 64} (hi : i'.val = e.i.val + 1)
    (hn : e.i.val + 1 ≠ e.n.val) : EngOk { e with i := i' } := by
  obtain ⟨ha, hb⟩ := h.of_wr hp
  have hlt : i'.val < e.n.val := by have := hb.index; omega
  exact .wr hp (ha.congr rfl rfl rfl rfl) ⟨hb.length, hlt, hb.stream, hb.counter⟩

/-- The running counter is one past block `eng.j`'s, so it is the next block's. -/
theorem EngOk.nextBlock (h : EngOk e) (hp : e.phase = .wr) (haw : e.awaiting = false)
    (hl : 64 * (e.j.toNat + 1) < e.len.toNat) : EngOk { e with j := e.j + 1, i := 0, phase := .blk } := by
  obtain ⟨ha, hb⟩ := h.of_wr hp
  exact .blk rfl (ha.nextBlock rfl rfl rfl rfl hl) haw (by rw [hb.counter, BitVec.add_assoc])

/-- An APPLY whose checks at issue pass starts with shadows that fit, at block 0 with its counter. -/
theorem EngOk.accepts {r : Regs} (hr : issueResult r = none) (haw : e.awaiting = false) :
    EngOk { latch r e with runCtr := r.counter, j := 0, phase := .blk } := by
  obtain ⟨-, hpos, hsrc, hdst, hapart⟩ := issueResult_eq_none.1 hr
  exact .blk rfl ⟨hsrc, hdst, hapart, hpos⟩ haw (BitVec.add_zero _).symm

/-! ### The invariant -/

theorem Inv.of_memoryOk (hf : FlagsOk t) (he : EngOk t.eng) (ho : OwnsBuffers t) (hm : MemoryOk t) : Inv t :=
  ⟨hf, he, ho, hm.races, hm.wf⟩

/-- With the engine at rest the flags and the memory side make the invariant. -/
theorem Inv.of_rest (hf : FlagsOk t) (he : t.eng = Eng.zero) (hm : MemoryOk t) : Inv t :=
  .of_memoryOk hf (by rw [he]; rfl) (fun hp => by rw [he] at hp; cases hp) hm

/-- The engine and its buffers stay. -/
theorem Inv.of_same_eng (h : Inv s) (hf : FlagsOk t) (he : t.eng = s.eng) (hm : MemoryOk t)
    (ho : t.env.owned = s.env.owned) : Inv t :=
  .of_memoryOk hf (by rw [he]; exact h.eng) (by unfold OwnsBuffers; rw [he, ho]; exact h.owns) hm

/-- The running APPLY goes on, on the same buffers. -/
theorem Inv.of_apply_continues (h : Inv s) (hf : FlagsOk t) (he : EngOk t.eng) (hm : MemoryOk t)
    (hp : isApplyPhase s.eng.phase = true) (hsrc : t.eng.src = s.eng.src) (hdst : t.eng.dst = s.eng.dst)
    (hlen : t.eng.len = s.eng.len) (ho : t.env.owned = s.env.owned) : Inv t :=
  .of_memoryOk hf he (fun _ => by rw [hsrc, hdst, hlen, ho]; exact h.owns hp) hm

theorem Inv.idle_eng (h : Inv s) (hb : s.busy = false) : s.eng = Eng.zero := h.eng.of_idle (busy_eq_false.1 hb)

theorem Machine.CommandEffect.inv {i : Instr} (hc : CommandEffect s i t) (h : Inv s) : Inv t := by
  have hf : FlagsOk t := hc.flagsOk h.flags
  have hm : MemoryOk s := h.memoryOk
  cases hc with
  | genDropped | applyDropped => exact h.of_same_eng hf rfl (hm.congr rfl rfl) rfl
  | genStarts hb =>
    have haw : s.eng.awaiting = false := by rw [h.idle_eng hb]; rfl
    exact .of_memoryOk hf (.gen rfl haw) (fun hp => nomatch hp) (hm.congr rfl rfl)
  | applyCompletes => exact .of_rest hf rfl (hm.congr rfl rfl)
  | applyStarts hb hr =>
    have haw : s.eng.awaiting = false := by rw [h.idle_eng hb]; rfl
    obtain ⟨-, -, hsrc, hdst, -⟩ := issueResult_eq_none.1 hr
    exact .of_memoryOk hf (.accepts hr haw) (fun _ => List.mem_cons_self) (hm.acceptApply hsrc hdst)
  | abortRequests hb =>
    exact .of_memoryOk hf (h.eng.abortRequest (busy_eq_true.1 hb)) h.owns (hm.congr rfl rfl)
  | abortIdle => exact h

theorem Machine.WriteEffect.inv {r : Reg} {w : Word} (hw : WriteEffect s r w t) (h : Inv s) : Inv t := by
  have hf : FlagsOk t := hw.flagsOk h.flags
  have hm : MemoryOk s := h.memoryOk
  cases hw with
  | command _ hc => exact hc.inv h
  | reservedBad => exact .of_rest hf rfl (hm.congr rfl rfl)
  | reservedDropped | lockedDropped | irqEn | lockedSet | status =>
    exact h.of_same_eng hf rfl (hm.congr rfl rfl) rfl
  | ignored => exact h

theorem Inv.withReply (h : Inv s) (r : Reply) : Inv (withReply r s) :=
  h.of_same_eng (h.flags.withReply r) rfl (h.memoryOk.withReply r) rfl

/-- The record may be emptied once no command runs: it then holds no buffers of the engine. -/
theorem Inv.observed (h : Inv s) (hb : s.busy = false) : Inv (observed s) :=
  .of_rest h.flags.observed (h.idle_eng hb) h.memoryOk.observed

/-- DONE is 0 while a command runs, so a completion that shows leaves the block idle. -/
theorem FlagsOk.idle_of_done (h : FlagsOk s) (hd : s.status.done = true) : s.busy = false := by
  rw [← Bool.not_eq_true]
  intro hb
  rw [(h.busy_clear hb).1] at hd
  cases hd

theorem FlagsOk.idle_of_showsCompletion (h : FlagsOk s) {r : Reg} (hs : showsCompletion r s = true) :
    s.busy = false := by
  simp only [showsCompletion, Bool.and_eq_true, Bool.or_eq_true, Bool.not_eq_true'] at hs
  exact hs.2.elim id h.idle_of_done

theorem FlagsOk.idle_of_irq (h : FlagsOk s) (hi : s.irq = true) : s.busy = false :=
  h.idle_of_done (Bool.and_eq_true _ _ ▸ hi).1

theorem Inv.hostRead (h : Inv s) (r : Reg) : Inv (hostRead r s) := by
  unfold Machine.hostRead
  split
  · next hs => exact (h.observed (h.flags.idle_of_showsCompletion hs)).withReply _
  · exact h.withReply _

theorem Machine.AccessEffect.inv {a : Access} (ha : AccessEffect s a t) (h : Inv s) : Inv t := by
  cases ha with
  | notSelected | busError => exact h.withReply _
  | read => exact h.hostRead _
  | write _ _ _ hw => exact hw.inv (h.withReply _)

theorem Machine.EngineEffect.inv {ans : MemAnswer} (he : EngineEffect s ans t) (h : Inv s) : Inv t := by
  have hf : FlagsOk t := he.flagsOk h.flags
  have hm : MemoryOk s := h.memoryOk
  cases he with
  | waiting | idle => exact h
  | gen | aborted | rdError => exact .of_rest hf rfl (hm.congr rfl rfl)
  | blk _ hp =>
    exact h.of_apply_continues hf (h.eng.generates hp) (hm.congr rfl rfl) (by rw [hp]; rfl) rfl rfl rfl rfl
  | noResponse _ hp =>
    have hap : isApplyPhase s.eng.phase = true := by rcases hp with hp | hp <;> rw [hp] <;> rfl
    exact h.of_apply_continues hf (h.eng.waits hp) (hm.congr rfl rfl) hap rfl rfl rfl rfl
  | rdMore _ hp _ i' hi hn =>
    exact h.of_apply_continues hf (h.eng.readMore hp _ hi hn) ((hm.dmaRead _).congr rfl rfl)
      (by rw [hp]; rfl) rfl rfl rfl (by simp)
  | rdLast _ hp =>
    exact h.of_apply_continues hf (h.eng.readLast hp _) ((hm.dmaRead _).congr rfl rfl)
      (by rw [hp]; rfl) rfl rfl rfl (by simp)
  | wrError _ _ hlt => exact .of_rest hf rfl ((hm.storeFree hlt).congr rfl rfl)
  | wrMore _ hp hlt i' hi hn =>
    exact h.of_apply_continues hf (h.eng.writeMore hp hi hn) ((hm.dmaWrite _ hlt).congr rfl rfl)
      (by rw [hp]; rfl) rfl rfl rfl (by simp)
  | wrNextBlock haw hp hlt _ hl =>
    exact h.of_apply_continues hf (h.eng.nextBlock hp haw hl) ((hm.dmaWrite _ hlt).congr rfl rfl)
      (by rw [hp]; rfl) rfl rfl rfl (by simp)
  | wrDone _ _ hlt => exact .of_rest hf rfl ((hm.dmaWrite _ hlt).congr rfl rfl)

/-- A write in flight is to an address of the DMA space. -/
theorem Inv.writeInFlight_lt (h : Inv s) {b : Bool} (hw : writeInFlight b s = true) : wrAddress s.eng < 2 ^ 32 := by
  simp only [writeInFlight, Bool.and_eq_true, beq_iff_eq] at hw
  obtain ⟨ha, hb⟩ := h.eng.of_wr hw.1
  exact wrAddress_lt ha hb

theorem MemoryOk.resetBlock (hm : MemoryOk s) : MemoryOk (resetBlock s) := hm.congr rfl rfl

theorem Machine.EventEffect.inv {ev : Event} (hev : EventEffect s ev t) (h : Inv s) : Inv t := by
  have hf : FlagsOk t := hev.flagsOk h.flags
  have hm : MemoryOk s := h.memoryOk
  cases hev with
  | host ha => exact ha.inv h
  | loadRaces => exact h.of_same_eng hf rfl ((hm.drawn.raceOn fun _ => mem_loadRegions).withReply _) rfl
  | storeRaces => exact h.of_same_eng hf rfl ((hm.raceOn fun _ => mem_storeRegions).withReply _) rfl
  | store addr v _ hr =>
    exact h.of_same_eng hf rfl ((hm.storeByte v addr.isLt (h.races.not_isRaced hr)).withReply _) rfl
  | load | sampleLow => exact h.withReply _
  | sampleHigh hi => exact (h.observed (h.flags.idle_of_irq hi)).withReply _
  | engine he => exact he.inv h
  | rstInFlight b hw => exact .of_rest hf rfl (hm.storeFree (h.writeInFlight_lt hw)).resetBlock
  | rst => exact .of_rest hf rfl hm.resetBlock

theorem Inv.popScript (h : Inv s) : Inv (popScript s) :=
  h.of_same_eng h.flags.popScript rfl (h.memoryOk.of_frame rfl rfl rfl le_rfl) rfl

/-- Settles O25: taking the event off the script keeps the invariant, and so does every effect. -/
theorem machineInvariantKeptByEveryStep : Obligations.MachineInvariantKeptByEveryStep :=
  fun _ _ h hs => (step_effect hs).inv h.popScript

/-- Settles O26: at reset the engine is at rest, no flag is set, and memory and the record are empty. -/
theorem machineInvariantHoldsAtReset : Obligations.MachineInvariantHoldsAtReset :=
  .of_rest (FlagsOk.resetBlock State.reset) rfl ⟨RacesOk.of_none (fun _ hb => nomatch hb) rfl, reset_mem_wf⟩

end Sys2Proof
end

section
/-! PROOF. What a step can do to the registers, the flags and the engine, one inversion for each question, from the effects:
who writes the register file (10_state.md R26 to R36), who sets OVR (R24, R49), when a command ends (R47), and the frame of an
engine step (41_stream_engine.md R157 to R159). -/

namespace Sys2Proof

open Machine

variable {s t : State}

/-! ### Who writes the register file -/

theorem SameArguments.of_eq {r r' : Regs} (h : r = r') : SameArguments r r' := by
  subst h; exact ⟨rfl, rfl, rfl, rfl, rfl, rfl, rfl⟩

theorem SameResults.of_eq {r r' : Regs} (h : r = r') : SameResults r r' := by
  subst h; exact ⟨rfl, rfl, rfl⟩

/-- The checks at issue never answer BADCMD. -/
theorem Machine.issueResult_ne_badcmd {r : Regs} {res : Result} (h : issueResult r = some res) : res ≠ .badcmd := by
  rintro rfl
  unfold issueResult at h
  split_ifs at h <;> cases h

/-- What an event can do to the register file. -/
inductive Machine.RegsEffect (s : State) : Event → State → Prop where
  | same {ev : Event} {t : State} (h : t.regs = s.regs) : RegsEffect s ev t
  | argument {a : Access} {r : Reg} {t : State} (hdir : a.dir = .write) (hb : s.busy = false)
      (hl : LockedWrite s.regs a.wdata r t.regs) : RegsEffect s (.host a) t
  | atIssue {a : Access} {u : State} {res : Result} (hw : inWindow s.env.plat a.addr = true)
      (hd : decodeAccess a = some .cmd) (hdir : a.dir = .write) (hi : decode a.wdata = .instr .apply)
      (hb : s.busy = false) (hres : res ≠ .badcmd) (hu : u.regs = s.regs) :
      RegsEffect s (.host a) (complete res s.regs.counter 0 0 u)
  | gen {ans : MemAnswer} (hp : s.eng.phase = .gen) :
      RegsEffect s (.engine ans) (complete .ok (add32 s.eng.ctr0 1) 0 0
        { s with regs := { s.regs with ks := blockWords s.eng.key s.eng.nonce s.eng.ctr0 } })
  | applyEnds {ans : MemAnswer} {u : State} {res : Result} {nc db ea : Word} (hb : s.busy = true)
      (hres : res ≠ .badcmd) (hu : u.regs = s.regs) : RegsEffect s (.engine ans) (complete res nc db ea u)
  | reset {b : Bool} {u : State} : RegsEffect s (.rst b) (resetBlock u)

/-- A command writes the register file only where an APPLY completes at issue. -/
theorem Machine.CommandEffect.regs {i : Instr} (h : CommandEffect s i t) :
    t.regs = s.regs ∨ i = .apply ∧ s.busy = false ∧ ∃ res, res ≠ .badcmd ∧ t = complete res s.regs.counter 0 0 s := by
  cases h with
  | applyCompletes hb res hr => exact .inr ⟨rfl, hb, res, issueResult_ne_badcmd hr, rfl⟩
  | genDropped | genStarts | applyDropped | applyStarts | abortRequests | abortIdle => exact .inl rfl

theorem Machine.AccessEffect.regs {a : Access} (h : AccessEffect s a t) : RegsEffect s (.host a) t := by
  cases h with
  | notSelected | busError => exact .same rfl
  | read => exact .same (by unfold hostRead; split <;> rfl)
  | write hw hd hdir h =>
    cases h with
    | command hi hc =>
      rcases hc.regs with hr | ⟨rfl, hb, res, hres, rfl⟩
      · exact .same hr
      · exact .atIssue hw hd hdir hi hb hres rfl
    | lockedSet hl hb => exact .argument hdir hb hl
    | reservedDropped | reservedBad | status | irqEn | lockedDropped | ignored => exact .same rfl

theorem Machine.EngineEffect.regs {ans : MemAnswer} (h : EngineEffect s ans t) : RegsEffect s (.engine ans) t := by
  cases h with
  | waiting | idle | blk | noResponse => exact .same rfl
  | rdMore | rdLast | wrMore | wrNextBlock => exact .same (by simp)
  | gen _ hp => exact .gen hp
  | aborted _ hp | rdError _ hp | wrError _ hp =>
    exact .applyEnds (by simp [State.busy, hp]) (by decide) rfl
  | wrDone _ hp => exact .applyEnds (by simp [State.busy, hp]) (by decide) (by simp)

theorem Machine.EventEffect.regs {ev : Event} (h : EventEffect s ev t) : RegsEffect s ev t := by
  cases h with
  | host ha => exact ha.regs
  | engine he => exact he.regs
  | loadRaces | load | storeRaces | store | sampleHigh | sampleLow => exact .same rfl
  | rstInFlight | rst => exact .reset

theorem Machine.step_regs (h : step s = .next t) : ∃ ev, nextEvent s = ev ∧ RegsEffect (popScript s) ev t :=
  ⟨_, rfl, (step_effect h).regs⟩

theorem Machine.LockedWrite.ks {regs regs' : Regs} {w : Word} {r : Reg} (h : LockedWrite regs w r regs') :
    regs'.ks = regs.ks := by
  cases h <;> rfl

theorem Machine.LockedWrite.sameResults {regs regs' : Regs} {w : Word} {r : Reg} (h : LockedWrite regs w r regs') :
    SameResults regs' regs := by
  cases h <;> exact ⟨rfl, rfl, rfl⟩

/-- A host access or a reset that is the step's event heads the script. -/
theorem Machine.head_of_nextEvent_host {a : Access} (h : nextEvent s = .host a) :
    s.env.script.head? = some (.host a) := head_of_nextEvent h (fun _ he => nomatch he)

theorem Machine.head_of_nextEvent_rst {b : Bool} (h : nextEvent s = .rst b) : s.env.script.head? = some (.rst b) :=
  head_of_nextEvent h (fun _ he => nomatch he)

theorem Machine.complete_sameArguments {res : Result} {nc db ea : Word} {u : State} (hu : SameArguments u.regs s.regs) :
    SameArguments (complete res nc db ea u).regs s.regs := hu

theorem Machine.complete_ks {res : Result} {nc db ea : Word} {u : State} (hu : u.regs = s.regs) :
    (complete res nc db ea u).regs.ks = s.regs.ks := by rw [complete_regs, hu]

/-- Settles O30: of the effects on the register file only an argument write, made while idle, and a reset change an argument. -/
theorem argumentsChangeOnlyByIdleHostWrites : Obligations.ArgumentsChangeOnlyByIdleHostWrites := by
  intro s t h hne
  obtain ⟨ev, hev, hr⟩ := step_regs h
  cases hr with
  | same heq => exact absurd (.of_eq heq) hne
  | argument hdir hb => exact .inl ⟨_, head_of_nextEvent_host hev, hdir, hb⟩
  | atIssue _ _ _ _ _ _ hu | applyEnds _ _ hu => exact absurd (complete_sameArguments (.of_eq hu)) hne
  | gen => exact absurd ⟨rfl, rfl, rfl, rfl, rfl, rfl, rfl⟩ hne
  | reset => exact .inr ⟨_, head_of_nextEvent_rst hev⟩

/-- Settles O31: of the effects on the register file only the GEN step and a reset change KS. -/
theorem keystreamRegistersChangeOnlyByGen : Obligations.KeystreamRegistersChangeOnlyByGen := by
  intro s t h hne
  obtain ⟨ev, hev, hr⟩ := step_regs h
  cases hr with
  | same heq => exact absurd (congrArg Regs.ks heq) hne
  | argument _ _ hl => exact absurd hl.ks hne
  | atIssue _ _ _ _ _ _ hu | applyEnds _ _ hu => exact absurd (complete_ks hu) hne
  | gen hp => exact .inl ⟨hp, rfl, rfl⟩
  | reset => exact .inr ⟨_, head_of_nextEvent_rst hev⟩

/-- Settles O32: of the effects on the register file only the completions and a reset change a result. -/
theorem resultsChangeOnlyAtCompletion : Obligations.ResultsChangeOnlyAtCompletion := by
  intro s t h hne
  obtain ⟨ev, hev, hr⟩ := step_regs h
  cases hr with
  | same heq => exact absurd (.of_eq heq) hne
  | argument _ _ hl => exact absurd hl.sameResults hne
  | atIssue hw hd hdir hi hb hres =>
    exact .inr (.inl ⟨hb, ⟨_, head_of_nextEvent_host hev, hw, hd, hdir, hi⟩, rfl, rfl, hres⟩)
  | gen hp => exact .inl ⟨busy_eq_true.2 (by rw [← popScript_eng, hp]; decide), ⟨_, hev⟩, rfl, rfl, by simp⟩
  | applyEnds hb hres => exact .inl ⟨hb, ⟨_, hev⟩, rfl, rfl, hres⟩
  | reset => exact .inr (.inr ⟨_, head_of_nextEvent_rst hev⟩)

/-! ### Who sets OVR -/

theorem Machine.CommandEffect.overrun {i : Instr} (h : CommandEffect s i t) (h0 : s.status.ovr = false)
    (h1 : t.status.ovr = true) : s.busy = true ∧ i ≠ .abort := by
  cases h with
  | genDropped hb | applyDropped hb => exact ⟨hb, by decide⟩
  | genStarts | applyCompletes | applyStarts | abortRequests | abortIdle =>
    exact absurd (h0.symm.trans h1) (by decide)

/-- The registers whose writes are dropped while busy (42_commands.md R188). -/
theorem Machine.LockedWrite.reg {regs regs' : Regs} {w : Word} {r : Reg} (h : LockedWrite regs w r regs') :
    r = .counter ∨ r = .srcAddr ∨ r = .dstAddr ∨ r = .srcLen ∨ r = .dstLen ∨ (∃ k, r = .key k) ∨
      (∃ k, r = .nonce k) := by
  cases h <;> simp

/-- A word that is not ABORT's is not 3. -/
theorem Machine.ne_three_of_decode {w : Word} (h : decode w ≠ .instr .abort) : w ≠ 3 := by
  rintro rfl
  exact h (by decide)

/-- A write that sets OVR is one that is dropped while busy. -/
theorem Machine.WriteEffect.overrun {r : Reg} {w : Word} (h : WriteEffect s r w t) (h0 : s.status.ovr = false)
    (h1 : t.status.ovr = true) :
    s.busy = true ∧ ((r = .cmd ∧ w ≠ 3) ∨ ∃ regs', LockedWrite s.regs w r regs') := by
  cases h with
  | command hd hc =>
    obtain ⟨hb, hi⟩ := hc.overrun h0 h1
    exact ⟨hb, .inl ⟨rfl, ne_three_of_decode (by rw [hd]; simpa using hi)⟩⟩
  | reservedDropped hd hb => exact ⟨hb, .inl ⟨rfl, ne_three_of_decode (by rw [hd]; simp)⟩⟩
  | lockedDropped hl hb => exact ⟨hb, .inr ⟨_, hl⟩⟩
  | status => simp [h0] at h1
  | reservedBad | irqEn | lockedSet | ignored => exact absurd (h0.symm.trans h1) (by decide)

theorem Machine.EngineEffect.ovr {ans : MemAnswer} (h : EngineEffect s ans t) : t.status.ovr = s.status.ovr := by
  cases h with
  | waiting | idle | gen | aborted | blk | noResponse | rdError | wrError => rfl
  | rdMore | rdLast | wrMore | wrNextBlock | wrDone => simp

theorem Machine.hostRead_status (r : Reg) (s : State) : (hostRead r s).status = s.status := by
  unfold hostRead; split <;> rfl

/-- An event that sets OVR is a host write that sets it. -/
theorem Machine.EventEffect.overrun {ev : Event} (h : EventEffect s ev t) (h0 : s.status.ovr = false)
    (h1 : t.status.ovr = true) :
    ∃ a r, ev = .host a ∧ a.dir = .write ∧ decodeAccess a = some r ∧ WriteEffect (withReply .okay s) r a.wdata t := by
  have hne : t.status.ovr ≠ s.status.ovr := by rw [h0, h1]; decide
  cases h with
  | host ha =>
    cases ha with
    | notSelected | busError => exact absurd rfl hne
    | read => exact absurd (by rw [hostRead_status]) hne
    | write _ hd hdir hw => exact ⟨_, _, rfl, hdir, hd, hw⟩
  | engine he => exact absurd he.ovr hne
  | loadRaces | load | storeRaces | store | sampleHigh | sampleLow => exact absurd rfl hne
  | rstInFlight | rst => cases h1

/-- Settles O29: the event is a host write, and a write sets OVR only where it is dropped while busy. -/
theorem overrunSetOnlyByDroppedWrite : Obligations.OverrunSetOnlyByDroppedWrite := by
  intro s t h h0 h1
  obtain ⟨a, r, hev, hdir, hd, hw⟩ := (step_effect h).overrun h0 h1
  obtain ⟨hb, hr⟩ := hw.overrun h0 h1
  exact ⟨hb, a, r, head_of_nextEvent_host hev, hdir, hd, hr.imp_right fun ⟨_, hl⟩ => hl.reg⟩

/-! ### When a command ends -/

/-- No command of the host ends the one that runs. -/
theorem Machine.CommandEffect.still_busy {i : Instr} (h : CommandEffect s i t) (hb : s.busy = true) : t.busy = true := by
  cases h with
  | genDropped | applyDropped | abortRequests | abortIdle => exact hb
  | genStarts | applyStarts => rfl
  | applyCompletes h0 => exact absurd (hb.symm.trans h0) (by decide)

theorem Machine.WriteEffect.still_busy {r : Reg} {w : Word} (h : WriteEffect s r w t) (hb : s.busy = true) :
    t.busy = true := by
  cases h with
  | command _ hc => exact hc.still_busy hb
  | reservedDropped | status | irqEn | lockedDropped | lockedSet | ignored => exact hb
  | reservedBad _ h0 => exact absurd (hb.symm.trans h0) (by decide)

theorem Machine.hostRead_eng (r : Reg) (s : State) : (hostRead r s).eng = s.eng := by
  unfold hostRead; split <;> rfl

theorem Machine.AccessEffect.still_busy {a : Access} (h : AccessEffect s a t) (hb : s.busy = true) : t.busy = true := by
  cases h with
  | notSelected | busError => exact hb
  | read => rw [busy_congr (hostRead_eng _ s)]; exact hb
  | write _ _ _ hw => exact hw.still_busy hb

/-- An engine step either goes on with its command or ends it through the completion procedure, which clears the engine. -/
theorem Machine.EngineEffect.busy_or_rest {ans : MemAnswer} (h : EngineEffect s ans t) (hb : s.busy = true) :
    t.busy = true ∨ t.eng = Eng.zero := by
  cases h with
  | waiting | idle | noResponse => exact .inl hb
  | gen | aborted | rdError | wrError | wrDone => exact .inr rfl
  | blk | rdLast | wrNextBlock => exact .inl rfl
  | rdMore _ hp | wrMore _ hp => exact .inl (by simp [State.busy, readMore, hp])

theorem Machine.EventEffect.busy_or_rest {ev : Event} (h : EventEffect s ev t) (hb : s.busy = true) :
    t.busy = true ∨ t.eng = Eng.zero := by
  cases h with
  | host ha => exact .inl (ha.still_busy hb)
  | engine he => exact he.busy_or_rest hb
  | loadRaces | load | storeRaces | store | sampleHigh | sampleLow => exact .inl hb
  | rstInFlight | rst => exact .inr rfl

/-- Settles O33: while a command runs, only its completion and a reset leave the block idle, and both clear the engine. -/
theorem engineClearedWhenCommandEnds : Obligations.EngineClearedWhenCommandEnds := by
  intro s t h hs ht
  exact ((step_effect h).busy_or_rest hs).resolve_left (by rw [ht]; decide)

/-! ### The frame of an engine step -/

theorem Machine.EngineEffect.sameArguments {ans : MemAnswer} (h : EngineEffect s ans t) :
    SameArguments t.regs s.regs := by
  cases h.regs with
  | same heq => exact .of_eq heq
  | gen => exact ⟨rfl, rfl, rfl, rfl, rfl, rfl, rfl⟩
  | applyEnds _ _ hu => exact complete_sameArguments (.of_eq hu)

theorem Machine.EngineEffect.ks {ans : MemAnswer} (h : EngineEffect s ans t) (hp : s.eng.phase ≠ .gen) :
    t.regs.ks = s.regs.ks := by
  cases h.regs with
  | same heq => rw [heq]
  | gen hg => exact absurd hg hp
  | applyEnds _ _ hu => exact complete_ks hu

/-- An engine step that leaves the command running writes no result and no flag. -/
theorem Machine.EngineEffect.status_of_busy {ans : MemAnswer} (h : EngineEffect s ans t) (hb : t.busy = true) :
    SameResults t.regs s.regs ∧ t.status = s.status := by
  cases h with
  | waiting | idle | blk | noResponse => exact ⟨.of_eq rfl, rfl⟩
  | rdMore | rdLast | wrMore | wrNextBlock => exact ⟨.of_eq (by simp), by simp⟩
  | gen | aborted | rdError | wrError | wrDone => cases hb

theorem Machine.EngineEffect.doneIe {ans : MemAnswer} (h : EngineEffect s ans t) : t.doneIe = s.doneIe := by
  cases h with
  | waiting | idle | gen | aborted | blk | noResponse | rdError | wrError => rfl
  | rdMore | rdLast | wrMore | wrNextBlock | wrDone => simp

/-- Memory is written in the phase WR alone. -/
theorem Machine.EngineEffect.mem {ans : MemAnswer} (h : EngineEffect s ans t) (hp : s.eng.phase ≠ .wr) :
    t.mem = s.mem := by
  cases h with
  | waiting | idle | gen | aborted | blk | noResponse | rdError => rfl
  | rdMore | rdLast => simp
  | wrError _ hw | wrMore _ hw | wrNextBlock _ hw | wrDone _ hw => exact absurd hw hp

/-- A WR step leaves memory, or writes a byte at the address it forms. -/
theorem Machine.EngineEffect.mem_wr {ans : MemAnswer} (h : EngineEffect s ans t) (hp : s.eng.phase = .wr) :
    t.mem = s.mem ∨ ∃ b, t.mem = memWrite s.mem (wrAddress s.eng) b := by
  cases h with
  | waiting | idle | gen | aborted | blk | noResponse | rdError => exact .inl rfl
  | rdMore _ hr | rdLast _ hr => exact absurd (hr.symm.trans hp) (by decide)
  | wrError => exact .inr ⟨_, rfl⟩
  | wrMore | wrNextBlock | wrDone => exact .inr (dmaWrite_mem _ _ _)

/-- An engine step leaves the platform, the script, the reply and the record of buffers. -/
theorem Machine.EngineEffect.env {ans : MemAnswer} (h : EngineEffect s ans t) :
    t.env.plat = s.env.plat ∧ t.env.script = s.env.script ∧ t.env.reply = s.env.reply ∧ t.env.owned = s.env.owned := by
  cases h with
  | waiting | idle | gen | aborted | blk | noResponse | rdError | wrError => exact ⟨rfl, rfl, rfl, rfl⟩
  | rdMore | rdLast | wrMore | wrNextBlock | wrDone => simp

/-- Settles O22: the frame, field by field, of what an engine step can do. -/
theorem engineStepFrame : Obligations.EngineStepFrame := by
  intro s t ans hwf h
  have he := engineStep_effect h
  refine ⟨he.sameArguments, he.doneIe, he.ovr, he.ks, he.status_of_busy, he.mem, fun hp x hx => ?_, he.env⟩
  rcases he.mem_wr hp with hm | ⟨b, hm⟩
  · rw [hm]
  · rw [hm, memRead_memWrite_other hwf b hx]

end Sys2Proof
end

section
/-! PROOF. What the host and the engine cannot see: a register read and the keys, shadows and buffers (10_state.md R34, R48),
an engine step and the argument registers (R44). Each is that the operation commutes with putting other values there. -/

namespace Sys2Proof

open Machine

/-! ### Register reads -/

/-- The state with other key registers, and with an engine that shows the same phase and abort request. -/
def withSecrets (k : KeyWords) (e : Eng) (s : State) : State :=
  { s with regs := { s.regs with key := k }, eng := { e with phase := s.eng.phase, abortPend := s.eng.abortPend } }

section Reads

variable (k : KeyWords) (e : Eng) (s : State) (r : Reg)

@[simp] theorem withSecrets_env : (withSecrets k e s).env = s.env := rfl

@[simp] theorem readReg_withSecrets : readReg r (withSecrets k e s) = readReg r s := by
  cases r <;> rfl

@[simp] theorem showsCompletion_withSecrets : showsCompletion r (withSecrets k e s) = showsCompletion r s := rfl

theorem hostRead_withSecrets : hostRead r (withSecrets k e s) = withSecrets k e (hostRead r s) := by
  unfold hostRead
  rw [readReg_withSecrets]
  cases hs : showsCompletion r s
  · rw [if_neg (by simp [hs]), if_neg (by simp)]; rfl
  · rw [if_pos (by simpa using hs), if_pos rfl]; rfl

/-- A read does the same on the state with other secrets. -/
theorem hostAccess_read_withSecrets {a : Access} {s t : State} (hdir : a.dir = .read) (h : hostAccess a s = .next t) :
    hostAccess a (withSecrets k e s) = .next (withSecrets k e t) := by
  unfold hostAccess
  rw [withSecrets_env]
  cases hostAccess_effect h with
  | notSelected hw => rw [hw]; rfl
  | busError hw hd => rw [hw, hd]; rfl
  | read hw hd => rw [hw, hd, hdir, ← hostRead_withSecrets]; rfl
  | write _ _ hwr => rw [hdir] at hwr; cases hwr

end Reads

/-- Settles O54: the read on the state with other secrets leaves the same state with other secrets, so the same reply. -/
theorem readsRevealNothingOfKeysOrEngine : Obligations.ReadsRevealNothingOfKeysOrEngine := by
  intro s s' t t' a hdir hscript hs' ht ht'
  obtain ⟨k, e, rfl⟩ : ∃ k e, s' = withSecrets k e s := ⟨_, _, hs'⟩
  rw [step_of_head hscript] at ht
  have hsame : step (withSecrets k e s) = .next (withSecrets k e t) :=
    (step_of_head (s := withSecrets k e s) hscript).trans (hostAccess_read_withSecrets k e (s := popScript s) hdir ht)
  rw [hsame] at ht'
  cases ht'
  rfl

/-! ### Engine steps -/

/-- The outcome with its next state mapped. -/
def mapNext (f : State → State) : Host.Outcome State Fault Refusal → Host.Outcome State Fault Refusal
  | .next s => .next (f s)
  | .fault r => .fault r
  | .refused r => .refused r

section Steps

variable (r : Regs) (s : State)

@[simp] theorem withArguments_eng : (withArguments r s).eng = s.eng := rfl

@[simp] theorem isRaced_withArguments (a : Nat) : isRaced (withArguments r s) a = isRaced s a := rfl

theorem dmaRead_withArguments (a : Nat) :
    dmaRead a (withArguments r s) = ((dmaRead a s).1, withArguments r (dmaRead a s).2) := by
  cases hr : isRaced s a
  · rw [dmaRead_unraced hr, dmaRead_unraced (s := withArguments r s) hr]; rfl
  · rw [dmaRead_isRaced hr, dmaRead_isRaced (s := withArguments r s) hr]; rfl

theorem dmaWrite_withArguments (a : Nat) (v : Byte) :
    dmaWrite a v (withArguments r s) = withArguments r (dmaWrite a v s) := by
  cases hr : isRaced s a
  · rw [dmaWrite_unraced v hr, dmaWrite_unraced (s := withArguments r s) v hr]; rfl
  · rw [dmaWrite_isRaced v hr, dmaWrite_isRaced (s := withArguments r s) v hr]; rfl

theorem blkStep_withArguments : blkStep (withArguments r s) = mapNext (withArguments r) (blkStep s) := by
  unfold blkStep
  rw [apply_ite (mapNext _)]
  rfl

theorem afterRead_withArguments (b : Byte) :
    afterRead b (withArguments r s) = mapNext (withArguments r) (afterRead b s) := by
  simp only [afterRead, apply_ite (mapNext _), apply_dite (mapNext _)]
  rfl

theorem afterWrite_withArguments : afterWrite (withArguments r s) = mapNext (withArguments r) (afterWrite s) := by
  simp only [afterWrite, apply_ite (mapNext _), apply_dite (mapNext _)]
  rfl

theorem rdStep_withArguments (ans : MemAnswer) :
    rdStep ans (withArguments r s) = mapNext (withArguments r) (rdStep ans s) := by
  unfold rdStep
  rw [apply_ite (mapNext _)]
  refine ite_congr rfl (fun _ => rfl) fun _ => ?_
  cases ans with
  | ok => rw [withArguments_eng, dmaRead_withArguments, afterRead_withArguments]
  | busError | noResponse => rfl

theorem wrStep_withArguments (ans : MemAnswer) :
    wrStep ans (withArguments r s) = mapNext (withArguments r) (wrStep ans s) := by
  unfold wrStep
  rw [apply_ite (mapNext _)]
  refine ite_congr rfl (fun _ => rfl) fun _ => ?_
  cases ans with
  | ok => rw [withArguments_eng, dmaWrite_withArguments, afterWrite_withArguments]
  | busError | noResponse => rfl

/-- An engine step commutes with putting other values in the argument registers, whatever its outcome. -/
theorem engineStep_withArguments (ans : MemAnswer) :
    engineStep ans (withArguments r s) = mapNext (withArguments r) (engineStep ans s) := by
  unfold engineStep
  rw [apply_ite (mapNext _)]
  refine ite_congr rfl (fun _ => rfl) fun _ => ?_
  rw [withArguments_eng]
  cases s.eng.phase with
  | idle | gen => rfl
  | blk => exact blkStep_withArguments r s
  | rd => exact rdStep_withArguments r s ans
  | wr => exact wrStep_withArguments r s ans

end Steps

/-- Settles O55: an engine step commutes with a change of the argument registers. -/
theorem engineStepsReadOnlyShadows : Obligations.EngineStepsReadOnlyShadows := by
  intro s t ans r h
  rw [engineStep_withArguments, h, mapNext]

end Sys2Proof
end

section
/-! PROOF. The register map, the STATUS word and the reset values (10_state.md R21, R24, R37, R51). -/

namespace Sys2Proof

open Machine

/-! ### Reserved offsets -/

/-- The word indices that hold no register: 0x30 to 0x3C, 0x6C to 0x7C and from 0xC0 on, divided by 4. -/
theorem registerAtIndex_eq_none {n : Nat} :
    registerAtIndex n = none ↔ (12 ≤ n ∧ n < 16) ∨ (27 ≤ n ∧ n < 32) ∨ 48 ≤ n := by
  unfold registerAtIndex
  split_ifs <;> simp <;> omega

/-- An offset selects by its word index, where its two low bits are 0. -/
theorem decodeOffset_ofNat {n : Nat} (hn : n < 0x100) :
    decodeOffset (BitVec.ofNat 8 n) = if n % 4 = 0 then registerAtIndex (n / 4) else none := by
  have hlow : (BitVec.ofNat 8 n).extractLsb' 0 2 = 0 ↔ n % 4 = 0 := by
    simp [← BitVec.toNat_inj, BitVec.extractLsb'_toNat]
  have hindex : ((BitVec.ofNat 8 n).extractLsb' 2 6).toNat = n / 4 := by
    rw [BitVec.extractLsb'_toNat, BitVec.toNat_ofNat, Nat.shiftRight_eq_div_pow]
    omega
  rw [decodeOffset, hindex]
  exact if_congr hlow rfl rfl

/-- Settles O4: a misaligned offset selects none, and an aligned one selects by its word index. -/
theorem reservedOffsetsHoldNoRegister : Obligations.ReservedOffsetsHoldNoRegister := by
  intro n hn
  rw [decodeOffset_ofNat hn]
  split
  · rw [registerAtIndex_eq_none]; omega
  · next hmis => exact iff_of_true rfl (.inl hmis)

/-! ### The STATUS word -/

theorem getLsbD_flagWord (b : Bool) (i : Nat) : (flagWord b).getLsbD i = (b && decide (i = 0)) := by
  cases b <;> simp [flagWord, BitVec.getLsbD_one]

/-- A flag shifted to place `n` is bit `n`. -/
theorem getLsbD_flagWord_shiftLeft (b : Bool) {n : Nat} (hn : n < 32) (i : Nat) :
    (flagWord b <<< n).getLsbD i = (b && decide (i = n)) := by
  rw [BitVec.getLsbD_shiftLeft, getLsbD_flagWord, Bool.eq_iff_iff]
  simp only [Bool.and_eq_true, Bool.not_eq_true', decide_eq_true_eq, decide_eq_false_iff_not]
  constructor
  · rintro ⟨⟨-, hge⟩, hb, h0⟩
    exact ⟨hb, by omega⟩
  · rintro ⟨hb, rfl⟩
    exact ⟨⟨hn, by omega⟩, hb, by omega⟩

/-- RESULT shifted to place 4: its bits are those from 4 on. -/
theorem getLsbD_code_shiftLeft (c : BitVec 4) (i : Nat) :
    (c.setWidth 32 <<< 4).getLsbD i = (decide (4 ≤ i) && c.getLsbD (i - 4)) := by
  rw [BitVec.getLsbD_shiftLeft, BitVec.getLsbD_setWidth]
  by_cases hi : i < 8
  · simp [show i < 32 by omega, show i - 4 < 32 by omega, ← decide_not]
  · simp [BitVec.getLsbD_of_ge c (i - 4) (by omega)]

/-- A bit of the STATUS word: each field is at its own place. -/
theorem getLsbD_statusWord (s : State) (i : Nat) :
    s.statusWord.getLsbD i =
      (s.busy && decide (i = 0) || s.status.done && decide (i = 1) || s.status.err && decide (i = 2) ||
        s.status.ovr && decide (i = 3) || decide (4 ≤ i) && s.status.result.code.getLsbD (i - 4) ||
        s.abortPending && decide (i = 8)) := by
  simp only [State.statusWord, BitVec.getLsbD_or, getLsbD_flagWord, getLsbD_code_shiftLeft,
    getLsbD_flagWord_shiftLeft _ (show 1 < 32 by decide), getLsbD_flagWord_shiftLeft _ (show 2 < 32 by decide),
    getLsbD_flagWord_shiftLeft _ (show 3 < 32 by decide), getLsbD_flagWord_shiftLeft _ (show 8 < 32 by decide)]

/-- Settles O46: the fields of the STATUS word, bit by bit; RESULT has no bit past its fourth. -/
theorem statusWordFields : Obligations.StatusWordFields := by
  intro s
  refine ⟨?busy, ?done, ?err, ?ovr, ?result, ?abortPend, fun b hb => ?reserved⟩
  case result =>
    ext i hi
    rw [BitVec.getElem_extractLsb', getLsbD_statusWord, Nat.add_sub_cancel_left, BitVec.getLsbD_eq_getElem hi]
    have h1 : 4 + i ≠ 1 := by omega
    have h2 : 4 + i ≠ 2 := by omega
    have h3 : 4 + i ≠ 3 := by omega
    have h8 : 4 + i ≠ 8 := by omega
    simp [h1, h2, h3, h8]
  case reserved =>
    have hcode : s.status.result.code.getLsbD (b - 4) = false := BitVec.getLsbD_of_ge _ _ (by omega)
    have h0 : ∀ n ≤ 8, b ≠ n := by omega
    rw [getLsbD_statusWord, hcode]
    simp [h0]
  all_goals
    rw [getLsbD_statusWord]
    simp

/-! ### Reset -/

/-- Settles O58: every single value is the reset state's own, and every file of words or bytes is 0 repeated. -/
theorem resetValuesOfEveryRegister : Obligations.ResetValuesOfEveryRegister := by
  refine ⟨rfl, rfl, rfl, rfl, rfl, rfl, rfl, rfl, rfl, rfl, fun k => ?_, fun k => ?_, fun k => ?_, rfl, rfl, rfl, rfl, rfl, rfl,
    rfl, rfl, rfl, rfl, fun k => ?_, fun k => ?_, fun m => ⟨?_, ?_⟩, rfl, rfl, rfl, fun _ => rfl⟩
  all_goals exact Vector.getElem_replicate _

end Sys2Proof
end

section
/-! PROOF. The memory map and who may touch memory: a range that is not normal, and every refusal (20_memory.md R87), the
addresses an APPLY forms (R85), the register accesses without effect (R74 to R76), and the loads and stores of the other agents
with the record of buffers and races (R84, R93, R96). -/

namespace Sys2Proof.Machine

variable {s t : State}

/-! ### Memory that is not normal -/

theorem normalRange_eq_false {p : Platform} {a len : Nat} :
    normalRange p a len = false ↔ ∃ r ∈ nonNormal p, 0 < r.size ∧ r.start < a + len ∧ a < r.start + r.size := by
  rw [← Bool.not_eq_true, normalRange_iff]
  push Not
  rfl

/-- One region that is not normal meets one of the two ranges. -/
theorem applyNormal_eq_false {p : Platform} {q : Regs} :
    applyNormal p q = false ↔ ∃ r ∈ nonNormal p, 0 < r.size ∧
      ((r.start < q.srcAddr.toNat + q.srcLen.toNat ∧ q.srcAddr.toNat < r.start + r.size) ∨
       (r.start < q.dstAddr.toNat + q.srcLen.toNat ∧ q.dstAddr.toNat < r.start + r.size)) := by
  rw [applyNormal, Bool.and_eq_false_iff, normalRange_eq_false, normalRange_eq_false]
  constructor
  · rintro (⟨r, hr, hpos, hmeets⟩ | ⟨r, hr, hpos, hmeets⟩)
    · exact ⟨r, hr, hpos, .inl hmeets⟩
    · exact ⟨r, hr, hpos, .inr hmeets⟩
  · rintro ⟨r, hr, hpos, hmeets | hmeets⟩
    · exact .inl ⟨r, hr, hpos, hmeets⟩
    · exact .inr ⟨r, hr, hpos, hmeets⟩

/-- The converse of `exec_refused`. -/
theorem exec_apply_of_not_normal (hb : s.busy = false) (hi : issueResult s.regs = none)
    (hn : applyNormal s.env.plat s.regs = false) : exec .apply s = .refused .applyNotNormalMemory := by
  simp [exec, execApply, hb, hi, hn]

/-- Settles O13: an APPLY refuses exactly where its checks pass and one of its ranges is not normal memory. -/
theorem applyRefusesExactlyNonNormalMemory : Obligations.ApplyRefusesExactlyNonNormalMemory := by
  intro s
  constructor
  · intro h
    obtain ⟨-, -, hb, hi, hn⟩ := exec_refused h
    exact ⟨hb, hi, applyNormal_eq_false.1 hn⟩
  · rintro ⟨hb, hi, hr⟩
    exact exec_apply_of_not_normal hb hi (applyNormal_eq_false.2 hr)

/-! ### Refusals -/

/-- Why a step may be refused: an APPLY while idle, or an access of another agent, on memory that is not normal. -/
inductive RefusalCause (s : State) : Refusal → Prop where
  | apply (hb : s.busy = false) (hn : applyNormal s.env.plat s.regs = false) : RefusalCause s .applyNotNormalMemory
  | access (a : Word) (hn : normalRange s.env.plat a.toNat 1 = false) : RefusalCause s (.hostNotNormalMemory a.toNat)

theorem afterRead_ne_refused (b : Byte) (s : State) (r : Refusal) : afterRead b s ≠ .refused r := by
  unfold afterRead
  dsimp only
  split_ifs <;> exact nofun

theorem afterWrite_ne_refused (s : State) (r : Refusal) : afterWrite s ≠ .refused r := by
  unfold afterWrite
  split_ifs <;> exact nofun

theorem rdStep_outside {ans : MemAnswer} (h : 2 ^ 32 ≤ rdAddress s.eng) :
    rdStep ans s = .fault (.dmaAddressOutsideSpace (rdAddress s.eng)) := if_pos h

theorem wrStep_outside {ans : MemAnswer} (h : 2 ^ 32 ≤ wrAddress s.eng) :
    wrStep ans s = .fault (.dmaAddressOutsideSpace (wrAddress s.eng)) := if_pos h

theorem rdStep_ne_refused (ans : MemAnswer) (s : State) (r : Refusal) : rdStep ans s ≠ .refused r := by
  by_cases hlt : rdAddress s.eng < 2 ^ 32
  · cases ans with
    | ok => rw [rdStep_ok hlt]; exact afterRead_ne_refused _ _ r
    | busError => rw [rdStep_busError hlt]; exact nofun
    | noResponse => rw [rdStep_noResponse hlt]; exact nofun
  · rw [rdStep_outside (not_lt.1 hlt)]; exact nofun

theorem wrStep_ne_refused (ans : MemAnswer) (s : State) (r : Refusal) : wrStep ans s ≠ .refused r := by
  by_cases hlt : wrAddress s.eng < 2 ^ 32
  · cases ans with
    | ok => rw [wrStep_ok hlt]; exact afterWrite_ne_refused _ r
    | busError => rw [wrStep_busError hlt]; exact nofun
    | noResponse => rw [wrStep_noResponse hlt]; exact nofun
  · rw [wrStep_outside (not_lt.1 hlt)]; exact nofun

/-- The engine never refuses. -/
theorem engineStep_ne_refused (ans : MemAnswer) (s : State) (r : Refusal) : engineStep ans s ≠ .refused r := by
  cases ha : s.eng.awaiting with
  | true => simp [engineStep, ha]
  | false =>
    cases hp : s.eng.phase with
    | idle => simp [engineStep, ha, hp]
    | gen => rw [engineStep_gen ans ha hp]; exact nofun
    | blk => rw [engineStep_blk ans ha hp, blkStep]; split <;> exact nofun
    | rd => rw [engineStep_rd ans ha hp]; exact rdStep_ne_refused ans s r
    | wr => rw [engineStep_wr ans ha hp]; exact wrStep_ne_refused ans s r

theorem writeReg_refused {reg : Reg} {w : Word} {r : Refusal} (h : writeReg reg w s = .refused r) :
    RefusalCause s r := by
  cases reg with
  | cmd =>
    rw [writeReg, writeCmd] at h
    split at h
    · obtain ⟨-, rfl, hb, -, hn⟩ := exec_refused h
      exact .apply hb hn
    · cases h
  | _ => cases h

theorem hostAccess_refused {a : Access} {r : Refusal} (h : hostAccess a s = .refused r) : RefusalCause s r := by
  unfold hostAccess at h
  split at h
  · split at h
    · cases h
    · split at h
      · cases h
      · cases writeReg_refused h with
        | apply hb hn => exact .apply hb hn
        | access a hn => exact .access a hn
  · cases h

theorem hostLoad_refused {a : Word} {r : Refusal} (h : hostLoad a s = .refused r) : RefusalCause s r := by
  unfold hostLoad at h
  split at h
  · split at h <;> cases h
  · next hn => cases h; exact .access a (by simpa using hn)

theorem hostStore_refused {a : Word} {v : Byte} {r : Refusal} (h : hostStore a v s = .refused r) :
    RefusalCause s r := by
  unfold hostStore at h
  split at h
  · split at h <;> cases h
  · next hn => cases h; exact .access a (by simpa using hn)

theorem runEvent_refused {ev : Event} {r : Refusal} (h : runEvent ev s = .refused r) : RefusalCause s r := by
  cases ev with
  | host a => exact hostAccess_refused h
  | memLoad a => exact hostLoad_refused h
  | memStore a v => exact hostStore_refused h
  | engine ans => exact absurd h (engineStep_ne_refused ans s r)
  | sampleIrq | rst => cases h

/-- Settles O28: taking the event off the script changes nothing that the cause of a refusal speaks of. -/
theorem refusalsOnlyForNonNormalMemory : Obligations.RefusalsOnlyForNonNormalMemory := by
  intro s r h
  rw [step_eq] at h
  cases runEvent_refused h with
  | apply hb hn => exact .inl ⟨rfl, hb, hn⟩
  | access a hn => exact .inr ⟨a, rfl, hn⟩

/-! ### The addresses of an APPLY -/

/-- Settles O23: the byte index is below the length, and both ranges end inside the DMA space. -/
theorem dmaAddressesStayInBuffers : Obligations.DmaAddressesStayInBuffers := by
  intro s h
  constructor
  · intro hp
    obtain ⟨ha, hb⟩ := h.eng.of_rd hp
    exact ⟨byteIndex s.eng, byteIndex_lt ha hb, rfl, rdAddress_lt ha hb⟩
  · intro hp
    obtain ⟨ha, hb⟩ := h.eng.of_wr hp
    exact ⟨byteIndex s.eng, byteIndex_lt ha hb, rfl, wrAddress_lt ha hb⟩

/-! ### Register accesses without effect -/

theorem Access.wf_iff {a : Access} : a.wf = true ↔ a.size = 4 ∧ a.addr.toNat % 4 = 0 := by
  simp [Access.wf, ← BitVec.toNat_inj, BitVec.extractLsb'_toNat]

/-- An access that is narrow, misaligned or at a reserved offset reaches no register. -/
theorem decodeAccess_eq_none {a : Access}
    (h : a.size ≠ 4 ∨ a.addr.toNat % 4 ≠ 0 ∨ decodeOffset (a.addr.extractLsb' 0 8) = none) :
    decodeAccess a = none := by
  unfold decodeAccess
  split
  · next hwf =>
    obtain ⟨hsize, halign⟩ := Access.wf_iff.1 hwf
    rcases h with h | h | h
    · exact absurd hsize h
    · exact absurd halign h
    · exact h
  · rfl

theorem hostAccess_of_decodeAccess_none {a : Access} (hw : inWindow s.env.plat a.addr = true)
    (hd : decodeAccess a = none) : hostAccess a s = .next (withReply .busError s) := by
  rw [hostAccess, if_pos hw, hd]

/-- Settles O53: such an access reaches no register, and its answer is the whole of its effect. -/
theorem badRegisterAccessGetsBusError : Obligations.BadRegisterAccessGetsBusError := by
  intro s a hs hw hbad
  have hstep : step s = .next (withReply .busError (popScript s)) :=
    (step_of_head hs).trans (hostAccess_of_decodeAccess_none (s := popScript s) hw (decodeAccess_eq_none hbad))
  exact ⟨_, hstep, rfl, rfl, rfl, rfl, rfl, rfl⟩

/-- The step that writes a register at its address. -/
theorem step_regWrite {r : Reg} {w : Word} (h : s.env.script.head? = some (.host (regAccess s.env.plat .write r w))) :
    step s = writeReg r w (withReply .okay (popScript s)) :=
  (step_of_head h).trans (runEvent_write (popScript s) _ r w rfl)

/-- The step that reads a register at its address. -/
theorem step_regRead {r : Reg} {w : Word} (h : s.env.script.head? = some (.host (regAccess s.env.plat .read r w))) :
    step s = .next (hostRead r (popScript s)) :=
  (step_of_head h).trans (runEvent_read (popScript s) _ r w rfl)

theorem writeReg_of_readOnly {r : Reg} (h : ReadOnly r) (w : Word) (s : State) : writeReg r w s = .next s := by
  cases h <;> rfl

/-- Settles O52: a write to a read-only register is answered and does nothing else. -/
theorem readOnlyWritesIgnored : Obligations.ReadOnlyWritesIgnored := by
  intro s r w hs hr
  have hro : ReadOnly r := by
    rcases hr with rfl | rfl | rfl | rfl | ⟨k, rfl⟩
    exacts [.id, .nextCtr, .doneBytes, .errAddr, .ks k]
  exact ⟨_, (step_regWrite hs).trans (writeReg_of_readOnly hro w _), rfl, rfl, rfl, rfl, rfl, rfl⟩

/-! ### Loads and stores that do not race -/

theorem hostLoad_of_not_races {a : Word} (hn : normalRange s.env.plat a.toNat 1 = true)
    (hr : racesLoad s a.toNat = false) : hostLoad a s = .next (withReply (.byte (memRead s.mem a.toNat)) s) := by
  rw [hostLoad, if_pos hn, if_neg (Bool.not_eq_true _ ▸ hr)]

theorem hostStore_of_not_races {a : Word} (v : Byte) (hn : normalRange s.env.plat a.toNat 1 = true)
    (hr : racesStore s a.toNat = false) : hostStore a v s = .next (withReply .okay (storeByte a.toNat v s)) := by
  rw [hostStore, if_pos hn, if_neg (Bool.not_eq_true _ ▸ hr)]

theorem racesLoad_eq_false {a : Nat} :
    racesLoad s a = false ↔ ∀ b ∈ s.env.owned, ¬(b.dst ≤ a ∧ a < b.dst + b.len) := by
  rw [← Bool.not_eq_true, racesLoad_iff]
  push Not
  rfl

theorem racesStore_eq_false {a : Nat} :
    racesStore s a = false ↔
      ∀ b ∈ s.env.owned, ¬(b.src ≤ a ∧ a < b.src + b.len) ∧ ¬(b.dst ≤ a ∧ a < b.dst + b.len) := by
  rw [← Bool.not_eq_true, racesStore_iff]
  simp only [not_exists, not_and, not_or]

/-! ### The record of buffers and races, and the observation of completion -/

theorem showsCompletion_iff {r : Reg} :
    showsCompletion r s = true ↔ r = .status ∧ (s.busy = false ∨ s.status.done = true) := by
  simp [showsCompletion]

theorem hostRead_of_showsCompletion {r : Reg} (h : showsCompletion r s = true) :
    hostRead r s = withReply (.data (readReg r s)) (observed s) := by
  rw [hostRead, if_pos h]

theorem hostRead_of_not_showsCompletion {r : Reg} (h : showsCompletion r s = false) :
    hostRead r s = withReply (.data (readReg r s)) s := by
  rw [hostRead, if_neg (Bool.not_eq_true _ ▸ h)]

/-- No buffer and no range is taken out of the record. -/
structure KeepsRecord (s t : State) : Prop where
  owned : ∀ b ∈ s.env.owned, b ∈ t.env.owned
  raced : ∀ r ∈ s.env.raced, r ∈ t.env.raced

theorem KeepsRecord.of_eq (ho : t.env.owned = s.env.owned) (hr : t.env.raced = s.env.raced) : KeepsRecord s t where
  owned b hb := by rwa [ho]
  raced r hr' := by rwa [hr]

theorem CommandEffect.keepsRecord {i : Instr} (h : CommandEffect s i t) : KeepsRecord s t := by
  cases h with
  | applyStarts => exact ⟨fun _ hb => List.mem_cons_of_mem _ hb, fun _ hr => hr⟩
  | genDropped | genStarts | applyDropped | applyCompletes | abortRequests | abortIdle => exact .of_eq rfl rfl

theorem WriteEffect.keepsRecord {r : Reg} {w : Word} (h : WriteEffect s r w t) : KeepsRecord s t := by
  cases h with
  | command _ hc => exact hc.keepsRecord
  | reservedDropped | reservedBad | status | irqEn | lockedDropped | lockedSet | ignored => exact .of_eq rfl rfl

theorem EngineEffect.keepsRecord {ans : MemAnswer} (h : EngineEffect s ans t) : KeepsRecord s t := by
  cases h with
  | waiting | idle | gen | aborted | blk | noResponse | rdError | wrError => exact .of_eq rfl rfl
  | rdMore | rdLast | wrMore | wrNextBlock | wrDone => exact .of_eq (by simp) (by simp)

/-- The events by which the host observes a completion (70_reset_and_hazards.md R246, R250). -/
inductive ObservesCompletion (s : State) : Event → Prop where
  | statusRead {a : Access} (hw : inWindow s.env.plat a.addr = true) (hd : decodeAccess a = some .status)
      (hdir : a.dir = .read) (hc : s.busy = false ∨ s.status.done = true) : ObservesCompletion s (.host a)
  | irqHigh (hi : s.irq = true) : ObservesCompletion s .sampleIrq

theorem AccessEffect.keepsRecord {a : Access} (h : AccessEffect s a t) :
    KeepsRecord s t ∨ ObservesCompletion s (.host a) := by
  cases h with
  | notSelected | busError => exact .inl (.of_eq rfl rfl)
  | @read r hw hd hdir =>
    cases hs : showsCompletion r s with
    | false => rw [hostRead_of_not_showsCompletion hs]; exact .inl (.of_eq rfl rfl)
    | true =>
      obtain ⟨rfl, hc⟩ := showsCompletion_iff.1 hs
      exact .inr (.statusRead hw hd hdir hc)
  | write _ _ _ hwr => exact .inl ⟨hwr.keepsRecord.owned, hwr.keepsRecord.raced⟩

/-- Only the observation of a completion takes anything out of the record. -/
theorem EventEffect.keepsRecord {ev : Event} (h : EventEffect s ev t) : KeepsRecord s t ∨ ObservesCompletion s ev := by
  cases h with
  | host ha => exact ha.keepsRecord
  | engine he => exact .inl he.keepsRecord
  | loadRaces | storeRaces => exact .inl ⟨fun _ hb => hb, fun _ hr => mem_foldr_insert.2 (.inr hr)⟩
  | load | store | sampleLow | rstInFlight | rst => exact .inl (.of_eq rfl rfl)
  | sampleHigh hi => exact .inr (.irqHigh hi)

/-- Settles O60: the step of each access that does not race and of each observation, and what any step does to the record. -/
theorem hostMemoryAccessesOutsideOwnedBuffers : Obligations.HostMemoryAccessesOutsideOwnedBuffers := by
  refine ⟨fun s a hs hn hout => ?load, fun s a v hs hn hwf hout => ?store, fun s w hs hc => ?statusRead,
    fun s hs hi => ?irqSample, fun s t h => ?record⟩
  case load =>
    have hstep : step s = .next (withReply (.byte (memRead s.mem a.toNat)) (popScript s)) :=
      (step_of_head hs).trans (hostLoad_of_not_races (s := popScript s) hn (racesLoad_eq_false.2 hout))
    exact ⟨_, hstep, rfl, rfl, rfl, rfl, rfl, rfl, rfl, rfl⟩
  case store =>
    have hstep : step s = .next (withReply .okay (storeByte a.toNat v (popScript s))) :=
      (step_of_head hs).trans (hostStore_of_not_races (s := popScript s) v hn (racesStore_eq_false.2 hout))
    exact ⟨_, hstep, rfl, memRead_memWrite_same hwf _ v, fun x hx => memRead_memWrite_other hwf v hx,
      rfl, rfl, rfl, rfl, rfl, rfl⟩
  case statusRead =>
    have hshows : showsCompletion .status (popScript s) = true := showsCompletion_iff.2 ⟨rfl, hc⟩
    rw [step_regRead hs, hostRead_of_showsCompletion hshows]
    exact ⟨_, rfl, rfl, rfl⟩
  case irqSample =>
    have hirq : (popScript s).irq = true := hi
    rw [step_of_head hs, runEvent, hostSampleIrq, if_pos hirq]
    exact ⟨_, rfl, rfl, rfl⟩
  case record =>
    rcases (step_effect h).keepsRecord with hk | ho
    · exact .inl ⟨hk.owned, hk.raced⟩
    · generalize hev : nextEvent s = ev at ho
      cases ho with
      | statusRead hw hd hdir hc =>
        exact .inr (.inl ⟨_, head_of_nextEvent hev (fun _ => nofun), hw, hd, hdir, hc⟩)
      | irqHigh hi => exact .inr (.inr ⟨head_of_nextEvent hev (fun _ => nofun), hi⟩)

end Sys2Proof.Machine
end

section
/-! PROOF. Command words, their bytes and the register addresses decode and encode alike (30_encoding.md R104, R105), and what
the write of a word to CMD runs (30_encoding.md R100, R107; 42_commands.md R180). -/

namespace Sys2Proof.Machine

/-! ### Decode and encode -/

/-- A command has four bytes; any other number of them is no command (30_encoding.md R108). -/
theorem decodeBytes_of_length_ne {bs : List Byte} (h : bs.length ≠ 4) : decodeBytes bs = .reserved .notOneWord := by
  unfold decodeBytes
  split
  · exact absurd rfl h
  · rfl

/-- Bytes decode to a command exactly when they are the command's bytes. -/
theorem decodeBytes_eq_instr {bs : List Byte} {i : Instr} : decodeBytes bs = .instr i ↔ encodeBytes i = bs := by
  constructor
  · intro h
    have hlen : bs.length = 4 := by
      by_contra hne
      rw [decodeBytes_of_length_ne hne] at h
      cases h
    obtain ⟨b0, b1, b2, b3, rfl⟩ := List.length_eq_four.1 hlen
    rw [encodeBytes, decode_eq_instr.1 h, lanesOfWord_wordOfLanes]
  · rintro rfl
    rw [encodeBytes, decodeBytes_lanesOfWord, decode_encode]

/-- An offset selects a register exactly when it is the register's offset. -/
theorem decodeOffset_eq_some {o : BitVec 8} {r : Reg} : decodeOffset o = some r ↔ encodeOffset r = o := by
  constructor
  · exact encodeOffset_of_decodeOffset
  · rintro rfl
    exact decodeOffset_encodeOffset r

/-- Settles O3: one equivalence for each pair of decoder and encoder; the lanes of a word are the bytes it was made of. -/
theorem encodingsRoundTrip : Obligations.EncodingsRoundTrip :=
  ⟨fun _ _ => decode_eq_instr, fun _ _ => decodeBytes_eq_instr, lanesOfWord_wordOfLanes, fun _ _ => decodeOffset_eq_some,
    fun _ _ _ hsize => decodeAccess_iff hsize⟩

/-! ### The opcode map -/

/-- A word is reserved exactly when it is the word of no command. -/
theorem exists_decode_eq_reserved {w : Word} : (∃ why, decode w = .reserved why) ↔ ∀ i, w ≠ encode i := by
  have hnone : (∃ why, decode w = .reserved why) ↔ ∀ i, decode w ≠ .instr i := by
    cases decode w <;> simp
  rw [hnone]
  exact forall_congr' fun i => not_congr (decode_eq_instr.trans eq_comm)

/-- Settles O2: a command's word is the only one that decodes to it, and a word of no command is reserved. -/
theorem decodeIsExactMatchOnAllBits : Obligations.DecodeIsExactMatchOnAllBits := by
  intro w
  have hexact (i : Instr) : decode w = .instr i ↔ w = encode i := decode_eq_instr.trans eq_comm
  refine ⟨hexact .gen, hexact .apply, hexact .abort, exists_decode_eq_reserved.trans ?reserved⟩
  case reserved =>
    constructor
    · intro h
      exact ⟨h .gen, h .apply, h .abort⟩
    · rintro ⟨hgen, happly, habort⟩ i
      cases i
      exacts [hgen, happly, habort]

/-- With RSV = 0, an OP that names no command is a reserved opcode. -/
theorem decode_wordOfFields_reserved {op : BitVec 4} (h : ∀ i, op ≠ opcodeOf i) :
    decode (wordOfFields { rsv := 0, op := op }) = .reserved .reservedOpcode := by
  have hnone : commandOfOpcode op = none :=
    Option.eq_none_iff_forall_ne_some.2 fun i hi => h i (commandOfOpcode_eq_some.1 hi)
  simp [decode, hnone]

/-- Settles O1: the words of the commands, and the opcodes 0 and from 4 on, which name none. -/
theorem opcodeMapWithZeroReservedBits : Obligations.OpcodeMapWithZeroReservedBits := by
  refine ⟨decode_encode .gen, decode_encode .apply, decode_encode .abort,
    decode_wordOfFields_reserved (op := 0) fun i => ?zero, fun op hop => decode_wordOfFields_reserved fun i => ?fromFour⟩
  case zero => cases i <;> decide
  case fromFour =>
    rintro rfl
    cases i <;> exact absurd hop (by decide)

/-! ### The write of a word to CMD -/

variable {s : State}

/-- A write that reaches a register of the block is answered OKAY and writes that register. -/
theorem hostAccess_write {a : Access} {r : Reg} (hw : inWindow s.env.plat a.addr = true) (hd : decodeAccess a = some r)
    (hdir : a.dir = .write) : hostAccess a s = writeReg r a.wdata (withReply .okay s) := by
  rw [hostAccess, if_pos hw, hd, hdir]

theorem writeCmd_of_instr {w : Word} {i : Instr} (h : decode w = .instr i) (s : State) : writeCmd w s = exec i s := by
  rw [writeCmd, h]

theorem writeCmd_of_reserved {w : Word} {why : ReservedWord} (h : decode w = .reserved why) (s : State) :
    writeCmd w s = .next (reservedCommand s) := by
  rw [writeCmd, h]

/-- Settles O5: the step is the access, the access is a write to CMD, and that runs the command its word decodes to. -/
theorem stepRunsDecodedCommand : Obligations.StepRunsDecodedCommand := by
  intro s a rest i hscript hw hd hdir hi
  have hhead : s.env.script.head? = some (.host a) := by rw [hscript, List.head?_cons]
  calc step s = hostAccess a (popScript s) := step_of_head hhead
    _ = writeCmd a.wdata (withReply .okay (popScript s)) := hostAccess_write (s := popScript s) hw hd hdir
    _ = exec i (withReply .okay (popScript s)) := writeCmd_of_instr hi _

/-! ### Commands while busy -/

theorem exec_gen_of_busy (hb : s.busy = true) : exec .gen s = .next (dropWrite s) := if_pos hb

theorem exec_apply_of_busy (hb : s.busy = true) : exec .apply s = .next (dropWrite s) := if_pos hb

theorem exec_abort_of_busy (hb : s.busy = true) :
    exec .abort s = .next { s with eng := { s.eng with abortPend := true } } := if_pos hb

theorem reservedCommand_of_busy (hb : s.busy = true) : reservedCommand s = dropWrite s := if_pos hb

/-- Settles O7: each command and a reserved word while busy; a dropped write is OVR set and nothing else. -/
theorem whileBusyOnlyAbortIsActedOn : Obligations.WhileBusyOnlyAbortIsActedOn := by
  intro s hb
  refine ⟨exec_gen_of_busy hb, exec_apply_of_busy hb, exec_abort_of_busy hb, fun w why hr => ?_⟩
  rw [writeCmd_of_reserved hr, reservedCommand_of_busy hb]
  rfl

end Sys2Proof.Machine
end

section
/-! PROOF. The Block Generator (40_block_generator.md R120 to R135): what ROTL32 does to a bit, why the quarter-rounds of a pass
are four lanes in any order, and what BLOCK is word by word. A pass is seen through the words its groups name: where no word
is named twice, a quarter-round reads and writes its own four words and nothing that another one reads. -/

namespace Sys2Proof.Machine

/-! ### ROTL32 -/

/-- Settles O40: the left shift moves the bits that stay below 32, the right shift those that wrap around. -/
theorem rotationMovesEveryBit : Obligations.RotationMovesEveryBit := by
  intro v n i hn hn32 hi
  rw [rotl32, BitVec.getLsbD_or, BitVec.getLsbD_shiftLeft, BitVec.getLsbD_ushiftRight]
  rcases Nat.lt_or_ge (i + n) 32 with hstay | hwrap
  · have hout : v.getLsbD (32 - n + (i + n)) = false := BitVec.getLsbD_of_ge v _ (by omega)
    simp [Nat.mod_eq_of_lt hstay, hstay, hout]
  · have hmod : (i + n) % 32 = i + n - 32 := by omega
    have hlow : i + n - 32 < n := by omega
    have hback : 32 - n + (i + n - 32) = i := by omega
    simp [hmod, hlow, hback]

/-! ### One quarter-round, by the words of its group -/

/-- The words of the array a group names. -/
def QrGroup.words (g : QrGroup) : List (Fin 16) := [g.a, g.b, g.c, g.d]

/-- The four words a quarter-round on group `g` reads. -/
def QrGroup.quad (g : QrGroup) (x : Words16) : Quad := { a := x[g.a], b := x[g.b], c := x[g.c], d := x[g.d] }

/-- The quad of a group as numbered words, the way the lane view (40_block_generator.md R135) writes it. -/
theorem QrGroup.quad_eq_getElem! (g : QrGroup) (x : Words16) :
    g.quad x = { a := x[g.a.val]!, b := x[g.b.val]!, c := x[g.c.val]!, d := x[g.d.val]! } := by
  simp [QrGroup.quad]

variable {g h : QrGroup} {gs : List QrGroup}

theorem qr_getElem_of_notMem (x : Words16) {i : Fin 16} (hi : i ∉ g.words) : (qr g x)[i] = x[i] := by
  simp only [QrGroup.words, List.mem_cons, List.not_mem_nil, or_false, not_or] at hi
  obtain ⟨ha, hb, hc, hd⟩ := hi
  exact qr_getElem_other g x i (Ne.symm ha) (Ne.symm hb) (Ne.symm hc) (Ne.symm hd)

/-- Word `i` after a quarter-round is given by the quad of its group and word `i` before. -/
theorem qr_getElem_congr {x y : Words16} {i : Fin 16} (hq : g.quad x = g.quad y) (hi : x[i] = y[i]) :
    (qr g x)[i] = (qr g y)[i] := by
  have hqr : ∀ z, qr g z = (((z.set g.a (quarterRound (g.quad z)).a).set g.b (quarterRound (g.quad z)).b).set g.c
      (quarterRound (g.quad z)).c).set g.d (quarterRound (g.quad z)).d := fun _ => rfl
  simp only [Fin.getElem_fin] at hi
  simp only [hqr, hq, Fin.getElem_fin, Vector.getElem_set, hi]

/-- A quarter-round on words that are four different ones puts its results there. -/
theorem quad_qr_self (hg : g.words.Nodup) (x : Words16) : g.quad (qr g x) = quarterRound (g.quad x) := by
  simp only [QrGroup.words, List.nodup_cons, List.mem_cons, List.not_mem_nil, or_false, not_or, Fin.ext_iff] at hg
  obtain ⟨⟨hab, hac, had⟩, ⟨hbc, hbd⟩, hcd, -⟩ := hg
  simp [QrGroup.quad, qr, Ne.symm hab, Ne.symm hac, Ne.symm had, Ne.symm hbc, Ne.symm hbd, Ne.symm hcd]

/-- A quarter-round leaves the quad of a group that shares no word with its own. -/
theorem quad_qr_of_disjoint (hd : g.words.Disjoint h.words) (x : Words16) : g.quad (qr h x) = g.quad x := by
  have hw : ∀ i ∈ g.words, (qr h x)[i] = x[i] := fun _ hi => qr_getElem_of_notMem x (hd hi)
  simp only [QrGroup.words, List.forall_mem_cons] at hw
  obtain ⟨ha, hb, hc, hd, -⟩ := hw
  simp only [QrGroup.quad, ha, hb, hc, hd]

/-- Outside the words of `h`, a quarter-round on `h` may come before or after one on `g`. -/
theorem qr_qr_getElem_of_notMem (hd : g.words.Disjoint h.words) (x : Words16) {i : Fin 16} (hi : i ∉ h.words) :
    (qr g (qr h x))[i] = (qr h (qr g x))[i] :=
  calc (qr g (qr h x))[i] = (qr g x)[i] := qr_getElem_congr (quad_qr_of_disjoint hd x) (qr_getElem_of_notMem x hi)
    _ = (qr h (qr g x))[i] := (qr_getElem_of_notMem _ hi).symm

/-- Quarter-rounds on groups that share no word commute: no word lies in both groups. -/
theorem qr_comm (hd : g.words.Disjoint h.words) (x : Words16) : qr g (qr h x) = qr h (qr g x) := by
  refine Vector.ext fun i hi => ?_
  by_cases hh : (⟨i, hi⟩ : Fin 16) ∈ h.words
  · exact (qr_qr_getElem_of_notMem hd.symm x fun hg => hd hg hh).symm
  · exact qr_qr_getElem_of_notMem hd x hh

/-! ### A pass whose groups name no word twice -/

theorem columnGroups_words_nodup : (columnGroups.flatMap QrGroup.words).Nodup := by decide

theorem diagonalGroups_words_nodup : (diagonalGroups.flatMap QrGroup.words).Nodup := by decide

theorem runPass_cons (g : QrGroup) (gs : List QrGroup) (x : Words16) : runPass (g :: gs) x = runPass gs (qr g x) := rfl

/-- Two quarter-rounds of such a pass commute, be they the same one or not. -/
theorem qr_comm_of_mem (hw : (gs.flatMap QrGroup.words).Nodup) (hg : g ∈ gs) (hh : h ∈ gs) (x : Words16) :
    qr g (qr h x) = qr h (qr g x) := by
  have hdisj := (List.nodup_flatMap.1 hw).2
  exact List.Pairwise.forall_of_forall_of_flip (R := fun g h => ∀ x, qr g (qr h x) = qr h (qr g x))
    (fun _ _ _ => rfl) (hdisj.imp qr_comm) (hdisj.imp fun hd => qr_comm hd.symm) hg hh x

/-- The order of the quarter-rounds of a pass does not change the result. -/
theorem runPass_perm {gs' : List QrGroup} (hw : (gs.flatMap QrGroup.words).Nodup) (hp : gs'.Perm gs) (x : Words16) :
    runPass gs' x = runPass gs x :=
  (hp.symm.foldl_eq' (fun _ hg _ hh => qr_comm_of_mem hw hh hg) x).symm

/-- Settles O41: no word is named twice in a pass, so its quarter-rounds commute. -/
theorem quarterRoundsOfAPassCommute : Obligations.QuarterRoundsOfAPassCommute := fun _ x =>
  ⟨fun hp => runPass_perm columnGroups_words_nodup hp x, fun hp => runPass_perm diagonalGroups_words_nodup hp x⟩

/-- A pass leaves the quad of a group that shares no word with its groups. -/
theorem quad_runPass_of_disjoint (hd : ∀ h ∈ gs, g.words.Disjoint h.words) (x : Words16) :
    g.quad (runPass gs x) = g.quad x := by
  induction gs generalizing x with
  | nil => rfl
  | cons h gs ih =>
    rw [List.forall_mem_cons] at hd
    rw [runPass_cons, ih hd.2, quad_qr_of_disjoint hd.1]

/-- A pass does one quarter-round on the quad of each of its groups. -/
theorem quad_runPass (hw : (gs.flatMap QrGroup.words).Nodup) (hg : g ∈ gs) (x : Words16) :
    g.quad (runPass gs x) = quarterRound (g.quad x) := by
  induction gs generalizing x with
  | nil => cases hg
  | cons h gs ih =>
    rw [List.flatMap_cons, List.nodup_append'] at hw
    obtain ⟨hh, hrest, hdisj⟩ := hw
    have hd : ∀ k ∈ gs, h.words.Disjoint k.words := fun k hk _ hi hik => hdisj hi (List.mem_flatMap_of_mem hk hik)
    rw [runPass_cons]
    rcases List.mem_cons.1 hg with rfl | hmem
    · rw [quad_runPass_of_disjoint hd, quad_qr_self hh]
    · rw [ih hrest hmem, quad_qr_of_disjoint (hd g hmem).symm]

/-! ### The lanes (40_block_generator.md R135) -/

/-- Lane `c` of COLPASS: column `c`, rows 0 to 3. -/
def columnLane (c : Fin 4) : QrGroup :=
  { a := ⟨c, by omega⟩, b := ⟨4 + c, by omega⟩, c := ⟨8 + c, by omega⟩, d := ⟨12 + c, by omega⟩ }

/-- Lane `c` of DIAGPASS: row `r` is rotated by `r` columns. -/
def diagonalLane (c : Fin 4) : QrGroup :=
  { a := ⟨c, by omega⟩, b := ⟨4 + (c + 1) % 4, by omega⟩, c := ⟨8 + (c + 2) % 4, by omega⟩,
    d := ⟨12 + (c + 3) % 4, by omega⟩ }

theorem columnLane_mem_columnGroups : ∀ c, columnLane c ∈ columnGroups := by decide

theorem diagonalLane_mem_diagonalGroups : ∀ c, diagonalLane c ∈ diagonalGroups := by decide

/-- A lane of a pass, word by word. -/
theorem runPass_lane (hw : (gs.flatMap QrGroup.words).Nodup) (hg : g ∈ gs) (x : Words16) :
    let q := quarterRound { a := x[g.a.val]!, b := x[g.b.val]!, c := x[g.c.val]!, d := x[g.d.val]! }
    (runPass gs x)[g.a.val]! = q.a ∧ (runPass gs x)[g.b.val]! = q.b ∧ (runPass gs x)[g.c.val]! = q.c ∧
      (runPass gs x)[g.d.val]! = q.d := by
  have hq := quad_runPass hw hg x
  rw [g.quad_eq_getElem! x] at hq
  simp only [← hq, g.quad_eq_getElem!, and_self]

/-- Settles O42: each lane is a group of its pass. -/
theorem passesAreFourLanes : Obligations.PassesAreFourLanes := fun x c =>
  ⟨runPass_lane columnGroups_words_nodup (columnLane_mem_columnGroups c) x,
    runPass_lane diagonalGroups_words_nodup (diagonalLane_mem_diagonalGroups c) x⟩

/-! ### BLOCK (40_block_generator.md R126 to R131) -/

variable (k : KeyWords) (nw : NonceWords) (ctr : Word)

theorem initState_getElem_key (i : Fin 8) : (initState k nw ctr)[4 + i.val] = k[i] := by
  fin_cases i <;> rfl

theorem initState_getElem_nonce (i : Fin 3) : (initState k nw ctr)[13 + i.val] = nw[i] := by
  fin_cases i <;> rfl

/-- ROUNDS20 is ten times the column pass and then the diagonal pass. -/
theorem rounds20_eq_iterate (x : Words16) : rounds20 x = (fun y => diagPass (colPass y))^[10] x :=
  drounds_eq_iterate 10 x

/-- Bit `b` of byte `m` of the keystream. -/
theorem blockBytes_getLsbD (m : Fin 64) (b : Nat) (hb : b < 8) :
    (blockBytes k nw ctr)[m].getLsbD b = ((blockWords k nw ctr)[m.val / 4]).getLsbD (8 * (m.val % 4) + b) := by
  rw [Fin.getElem_fin, blockBytes, serial_getElem _ _ m.isLt, byteOfWord_getLsbD _ _ _ hb]

/-- Settles O43: S word by word, the result words after the ten double rounds, the bytes of the result words. -/
theorem blockIsRoundsFeedForwardSerial : Obligations.BlockIsRoundsFeedForwardSerial := by
  intro k nw ctr
  refine ⟨⟨rfl, rfl, rfl, rfl, initState_getElem_key k nw ctr, rfl, initState_getElem_nonce k nw ctr⟩, fun i => ?_,
    blockBytes_getLsbD k nw ctr⟩
  rw [blockWords_getElem, rounds20_eq_iterate, add32]

end Sys2Proof.Machine
end

section
/-! PROOF. APPLYFN (41_stream_engine.md R150): its own inverse (R162), and continued at a block boundary (R165). -/

namespace Sys2Proof.Machine

@[simp] theorem applyFn_length (k : KeyWords) (nw : NonceWords) (c0 : Word) (input : List Byte) :
    (applyFn k nw c0 input).length = input.length := by
  simp [applyFn]

/-- Settles O38: each byte is XORed twice with the same keystream byte. -/
theorem applyFunctionIsInvolution : Obligations.ApplyFunctionIsInvolution := by
  intro k nw c0 input
  refine ⟨List.ext_getElem (by simp) fun m hm _ => ?_, applyFn_length k nw c0 input⟩
  rw [applyFn_getElem, applyFn_getElem, bxor_bxor]

/-- The keystream `b` blocks on is that of the counter `b` up (41_stream_engine.md R155). -/
theorem keystreamByte_add_blocks (k : KeyWords) (nw : NonceWords) (c0 : Word) (m b : Nat) :
    keystreamByte k nw c0 (m + 64 * b) = keystreamByte k nw (c0 + BitVec.ofNat 32 b) m := by
  refine blockBytes_getElem_congr k nw _ _ ?_ (Nat.add_mul_mod_self_left m 64 b)
  rw [Nat.add_mul_div_left m b (by decide), Nat.add_comm, BitVec.ofNat_add, add32, add32, BitVec.add_assoc]

theorem blockCount_mul (b : Nat) : blockCount (64 * b) = b := by
  unfold blockCount; omega

/-- Settles O39: after whole blocks the remaining bytes meet the keystream of the next counter. -/
theorem streamContinuesAtBlockBoundary : Obligations.StreamContinuesAtBlockBoundary := by
  intro k nw c0 l1 l2 ⟨b, hb⟩
  simp only [applyFn, List.mapIdx_append, hb, keystreamByte_add_blocks, blockCount_mul]

end Sys2Proof.Machine
end

section
/-! PROOF. The steps of an APPLY's stages, one byte at a time (41_stream_engine.md R157 to R159), from the equations of the
engine step in each phase. -/

namespace Sys2Proof.Machine

variable {s : State}

theorem rdAddress_eq (e : Eng) : rdAddress e = e.src.toNat + 64 * e.j.toNat + e.i.val := (Nat.add_assoc _ _ _).symm

theorem wrAddress_eq (e : Eng) : wrAddress e = e.dst.toNat + 64 * e.j.toNat + e.i.val := (Nat.add_assoc _ _ _).symm

theorem blkStep_of_abort (h : s.eng.abortPend = true) :
    blkStep s = .next (complete .aborted s.eng.runCtr (blockBase s.eng) 0 s) := if_pos h

theorem blkStep_of_no_abort (h : s.eng.abortPend = false) :
    blkStep s = .next { s with eng := { s.eng with
      ks := blockBytes s.eng.key s.eng.nonce s.eng.runCtr, runCtr := add32 s.eng.runCtr 1, n := blockLength s.eng,
      i := 0, phase := .rd } } := if_neg (by rw [h]; decide)

/-- Settles O17: the abort test decides, and each branch is the step's own state. -/
theorem blkStepGeneratesBlock : Obligations.BlkStepGeneratesBlock := by
  intro s ans hp ha
  rw [engineStep_blk ans ha hp]
  exact ⟨fun hab => ⟨blockLength s.eng, blockLength_val s.eng, blkStep_of_no_abort hab⟩, blkStep_of_abort⟩

/-- Where no agent raced, a successful RD step goes on with memory's byte. -/
theorem rdStep_ok_unraced (hlt : rdAddress s.eng < 2 ^ 32) (hr : isRaced s (rdAddress s.eng) = false) :
    rdStep .ok s = afterRead (memRead s.mem (rdAddress s.eng)) s := by
  rw [rdStep_ok hlt, dmaRead_unraced hr]

/-- Where no agent raced, a successful WR step goes on from memory with the output byte. -/
theorem wrStep_ok_unraced (hlt : wrAddress s.eng < 2 ^ 32) (hr : isRaced s (wrAddress s.eng) = false) :
    wrStep .ok s = afterWrite (storeByte (wrAddress s.eng) (wrByte s.eng) s) := by
  rw [wrStep_ok hlt, dmaWrite_unraced _ hr]

/-- A byte index below the block's length that is not its last byte's has a successor. -/
theorem byteIndex_succ_lt {e : Eng} (hi : e.i.val < e.n.val) (hn : e.i.val + 1 ≠ e.n.val) : e.i.val + 1 < 64 := by
  have := e.n.isLt
  omega

/-- Settles O18: a successful RD step puts memory's byte in the buffer, and is the last of its block or not; an error response
completes with BUS. -/
theorem rdStepReadsInputByte : Obligations.RdStepReadsInputByte := by
  intro s hp ha hi
  rw [← rdAddress_eq]
  intro a hlt
  rw [engineStep_rd _ ha hp, engineStep_rd _ ha hp, rdStep_busError hlt]
  refine ⟨fun hr => ?_, rfl⟩
  rw [rdStep_ok_unraced hlt hr]
  by_cases hn : s.eng.i.val + 1 = s.eng.n.val
  · refine ⟨_, afterRead_last hn, rfl, rfl, rfl, rfl, rfl, 0, ?_⟩
    rw [if_pos hn, if_pos hn]
    exact ⟨rfl, rfl⟩
  · have hi' := byteIndex_succ_lt hi hn
    refine ⟨_, afterRead_more hn hi', rfl, rfl, rfl, rfl, rfl, ⟨s.eng.i.val + 1, hi'⟩, ?_⟩
    rw [if_neg hn, if_neg hn, ← hp]
    exact ⟨rfl, rfl⟩

/-- Settles O19: a successful WR step stores the output byte, then goes on to the next byte, goes on to the next block, or
completes; an error response completes with BUS. -/
theorem wrStepWritesOutputByte : Obligations.WrStepWritesOutputByte := by
  intro s hp ha hi hwf
  rw [engineStep_wr _ ha hp, engineStep_wr _ ha hp]
  refine ⟨wrAddress_eq s.eng, fun hlt hr => ?ok, fun hlt => ?error⟩
  case ok =>
    have hsame := memRead_memWrite_same hwf (wrAddress s.eng) (wrByte s.eng)
    have hother := fun x => memRead_memWrite_other (x := x) hwf (a := wrAddress s.eng) (wrByte s.eng)
    rw [wrStep_ok_unraced hlt hr]
    by_cases hn : s.eng.i.val + 1 = s.eng.n.val
    · rcases lt_or_ge (64 * (s.eng.j.toNat + 1)) s.eng.len.toNat with hl | hl
      · exact ⟨_, afterWrite_nextBlock hn hl, rfl, rfl, hsame, hother, fun h => absurd hn h,
          fun _ _ => ⟨rfl, rfl, rfl⟩, fun _ h => absurd h (not_le.2 hl)⟩
      · exact ⟨_, afterWrite_done hn hl, rfl, rfl, hsame, hother, fun h => absurd hn h,
          fun _ h => absurd h (not_lt.2 hl), fun _ _ => ⟨rfl, rfl, rfl⟩⟩
    · exact ⟨_, afterWrite_more (s := storeByte _ _ s) hn (byteIndex_succ_lt hi hn), rfl, rfl, hsame, hother,
        fun _ => ⟨rfl, rfl, _, rfl, rfl⟩, fun h => absurd h hn, fun h => absurd h hn⟩
  case error =>
    exact ⟨_, wrStep_busError hlt, rfl, rfl, rfl, rfl, fun x hx => memRead_memWrite_other hwf _ hx⟩

end Sys2Proof.Machine
end

section
/-! PROOF. The engine steps a command still takes (41_stream_engine.md R160, R169, R170). An engine step takes one of them, or
ends its command early; no other agent's step takes any. -/

namespace Sys2Proof

open Machine

variable {s t : State} {e : Eng}

/-! ### The count by phase -/

theorem stepsLeft_idle (hp : e.phase = .idle) : stepsLeft e = 0 := by simp only [stepsLeft, hp]

theorem stepsLeft_gen (hp : e.phase = .gen) : stepsLeft e = 1 := by simp only [stepsLeft, hp]

theorem stepsLeft_blk (hp : e.phase = .blk) : stepsLeft e = stepsForBytes (e.len.toNat - 64 * e.j.toNat) := by
  simp only [stepsLeft, hp]

theorem stepsLeft_rd (hp : e.phase = .rd) :
    stepsLeft e = (e.n.val - e.i.val) + e.n.val + stepsForBytes (e.len.toNat - (64 * e.j.toNat + e.n.val)) := by
  simp only [stepsLeft, hp]

theorem stepsLeft_wr (hp : e.phase = .wr) :
    stepsLeft e = (e.n.val - e.i.val) + stepsForBytes (e.len.toNat - (64 * e.j.toNat + e.n.val)) := by
  simp only [stepsLeft, hp]

theorem stepsForBytes_zero : stepsForBytes 0 = 0 := rfl

/-- The steps of the next block, and of the bytes after it. -/
theorem stepsForBytes_block {r : Nat} (hr : 0 < r) :
    stepsForBytes r = 1 + 2 * min 64 r + stepsForBytes (r - min 64 r) := by
  unfold stepsForBytes blockCount
  omega

/-- A command that runs has a step left. -/
theorem EngOk.stepsLeft_pos (h : EngOk e) (hp : e.phase ≠ .idle) : 0 < stepsLeft e := by
  cases hph : e.phase with
  | idle => exact absurd hph hp
  | gen => rw [stepsLeft_gen hph]; exact Nat.one_pos
  | blk =>
    have hlt := (h.of_blk hph).1.block
    rw [stepsLeft_blk hph, stepsForBytes_block (by omega)]
    omega
  | rd =>
    have hi := (h.of_rd hph).2.index
    rw [stepsLeft_rd hph]
    omega
  | wr =>
    have hi := (h.of_wr hph).2.index
    rw [stepsLeft_wr hph]
    omega

theorem Inv.stepsLeft_eq_zero (h : Inv s) : stepsLeft s.eng = 0 ↔ s.busy = false := by
  rw [busy_eq_false]
  refine ⟨fun hz => ?_, stepsLeft_idle⟩
  by_contra hp
  exact absurd hz (h.eng.stepsLeft_pos hp).ne'

/-- A BLK step turns the count before a block into the count at its first read. -/
theorem EngOk.stepsLeft_generates (h : EngOk e) (hp : e.phase = .blk) (ks : Bytes64) (ctr : Word) :
    stepsLeft { e with ks := ks, runCtr := ctr, n := blockLength e, i := 0, phase := .rd } + 1 = stepsLeft e := by
  have hlt := (h.of_blk hp).1.block
  have hblock := stepsForBytes_block (r := e.len.toNat - 64 * e.j.toNat) (by omega)
  rw [stepsLeft_rd rfl, stepsLeft_blk hp]
  simp only [blockLength_val, ← Nat.sub_sub, Fin.val_zero]
  omega

/-! ### Engine steps -/

/-- Every block but the last has 64 bytes (41_stream_engine.md R152). -/
theorem InBlock.length_full (hb : InBlock e) (hl : 64 * (e.j.toNat + 1) < e.len.toNat) : e.n.val = 64 := by
  rw [hb.length, blockLength_val]
  omega

/-- The last block ends where the buffer does. -/
theorem InBlock.last_end (hb : InBlock e) (ha : ApplyOk e) (hl : e.len.toNat ≤ 64 * (e.j.toNat + 1)) :
    64 * e.j.toNat + e.n.val = e.len.toNat := by
  have hlt := ha.block
  rw [hb.length, blockLength_val]
  omega

theorem Machine.afterRead_next {b : Byte} (hi : s.eng.i.val < s.eng.n.val) : ∃ t, afterRead b s = .next t := by
  by_cases hn : s.eng.i.val + 1 = s.eng.n.val
  · exact ⟨_, afterRead_last hn⟩
  · exact ⟨_, afterRead_more hn (byteIndex_succ_lt hi hn)⟩

theorem Machine.afterWrite_next (hi : s.eng.i.val < s.eng.n.val) : ∃ t, afterWrite s = .next t := by
  by_cases hn : s.eng.i.val + 1 = s.eng.n.val
  · rcases lt_or_ge (64 * (s.eng.j.toNat + 1)) s.eng.len.toNat with hl | hl
    · exact ⟨_, afterWrite_nextBlock hn hl⟩
    · exact ⟨_, afterWrite_done hn hl⟩
  · exact ⟨_, afterWrite_more hn (byteIndex_succ_lt hi hn)⟩

/-- From the invariant an engine step neither faults nor refuses. -/
theorem Inv.engineStep_next (h : Inv s) (ans : MemAnswer) : ∃ t, engineStep ans s = .next t := by
  cases ha : s.eng.awaiting with
  | true => exact ⟨s, by simp [engineStep, ha]⟩
  | false =>
    cases hp : s.eng.phase with
    | idle => exact ⟨s, by simp [engineStep, ha, hp]⟩
    | gen => exact ⟨_, engineStep_gen ans ha hp⟩
    | blk =>
      rw [engineStep_blk ans ha hp]
      cases hab : s.eng.abortPend with
      | true => exact ⟨_, blkStep_of_abort hab⟩
      | false => exact ⟨_, blkStep_of_no_abort hab⟩
    | rd =>
      obtain ⟨hap, hib⟩ := h.eng.of_rd hp
      have hlt := rdAddress_lt hap hib
      rw [engineStep_rd ans ha hp]
      cases ans with
      | busError => exact ⟨_, rdStep_busError hlt⟩
      | noResponse => exact ⟨_, rdStep_noResponse hlt⟩
      | ok =>
        rw [rdStep_ok hlt]
        exact afterRead_next (by simpa using hib.index)
    | wr =>
      obtain ⟨hap, hib⟩ := h.eng.of_wr hp
      have hlt := wrAddress_lt hap hib
      rw [engineStep_wr ans ha hp]
      cases ans with
      | busError => exact ⟨_, wrStep_busError hlt⟩
      | noResponse => exact ⟨_, wrStep_noResponse hlt⟩
      | ok =>
        rw [wrStep_ok hlt]
        exact afterWrite_next (by simpa using hib.index)

/-- An answered engine step of a running command takes one of the steps it has left, or ends it by an abort or an error. -/
theorem Machine.EngineEffect.stepsLeft {ans : MemAnswer} (he : EngineEffect s ans t) (h : Inv s) (hb : s.busy = true)
    (ha : s.eng.awaiting = false) (hans : ans ≠ .noResponse) :
    stepsLeft t.eng + 1 = stepsLeft s.eng ∨ t.eng = Eng.zero ∧ (s.eng.abortPend = true ∨ ans = .busError) := by
  cases he with
  | waiting haw => rw [ha] at haw; cases haw
  | idle _ hp => exact absurd hp (busy_eq_true.1 hb)
  | noResponse => exact absurd rfl hans
  | aborted _ _ hab => exact .inr ⟨rfl, .inl hab⟩
  | rdError | wrError => exact .inr ⟨rfl, .inr rfl⟩
  | gen _ hp => exact .inl (stepsLeft_gen hp).symm
  | blk _ hp => exact .inl (h.eng.stepsLeft_generates hp _ _)
  | rdMore _ hp _ i' hi hn =>
    have hlt := (h.eng.of_rd hp).2.index
    rw [stepsLeft_rd hp, stepsLeft_rd (e := readMore _ i' s.eng) hp]
    simp only [readMore, hi]
    omega
  | rdLast _ hp _ hn =>
    rw [stepsLeft_rd hp, stepsLeft_wr (e := readLast _ s.eng) rfl]
    simp only [readLast, Fin.val_zero]
    omega
  | wrMore _ hp _ i' hi hn =>
    have hlt := (h.eng.of_wr hp).2.index
    rw [stepsLeft_wr hp, stepsLeft_wr (e := { s.eng with i := i' }) hp]
    simp only [hi]
    omega
  | wrNextBlock _ hp _ hn hl =>
    obtain ⟨hap, hib⟩ := h.eng.of_wr hp
    rw [stepsLeft_wr hp, stepsLeft_blk rfl]
    simp only [block_succ_toNat hap, hib.length_full hl, Nat.mul_succ] at hn ⊢
    omega
  | wrDone _ hp _ hn hl =>
    obtain ⟨hap, hib⟩ := h.eng.of_wr hp
    rw [stepsLeft_wr hp, hib.last_end hap hl, Nat.sub_self, stepsForBytes_zero, ← hn]
    simp [stepsLeft_zero]

/-! ### The other agents' steps -/

/-- A host write leaves the engine of a running command as it is, but for the abort request. -/
theorem Machine.WriteEffect.eng_of_busy {r : Reg} {w : Word} (h : WriteEffect s r w t) (hb : s.busy = true) :
    ∃ b, t.eng = { s.eng with abortPend := b } := by
  cases h with
  | command _ hc =>
    cases hc with
    | genDropped | applyDropped | abortIdle => exact ⟨s.eng.abortPend, rfl⟩
    | abortRequests => exact ⟨true, rfl⟩
    | genStarts h0 | applyCompletes h0 | applyStarts h0 => exact absurd (hb.symm.trans h0) (by decide)
  | reservedDropped | status | irqEn | lockedDropped | lockedSet | ignored => exact ⟨s.eng.abortPend, rfl⟩
  | reservedBad _ h0 => exact absurd (hb.symm.trans h0) (by decide)

/-- No agent but the engine and a reset changes the engine of a running command, but for the abort request. -/
theorem Machine.EventEffect.eng_of_busy {ev : Event} (h : EventEffect s ev t) (hb : s.busy = true)
    (he : ∀ ans, ev ≠ .engine ans) (hr : ∀ b, ev ≠ .rst b) : ∃ b, t.eng = { s.eng with abortPend := b } := by
  cases h with
  | host ha =>
    cases ha with
    | notSelected | busError => exact ⟨s.eng.abortPend, rfl⟩
    | read => exact ⟨s.eng.abortPend, hostRead_eng _ s⟩
    | write _ _ _ hw => exact hw.eng_of_busy hb
  | loadRaces | load | storeRaces | store | sampleHigh | sampleLow => exact ⟨s.eng.abortPend, rfl⟩
  | engine => exact absurd rfl (he _)
  | rstInFlight | rst => exact absurd rfl (hr _)

/-! ### From acceptance to completion -/

/-- Under the conditions of acceptance an APPLY written while idle is accepted. -/
theorem ApplyLegal.exec_apply (h : ApplyLegal s) (hb : s.busy = false) : exec .apply s = .next (acceptApply s) := by
  simp [exec, execApply, hb, Machine.ApplyLegal.issueResult h, h.normal]

theorem stepsLeft_acceptApply (s : State) :
    stepsLeft (acceptApply s).eng = blockCount s.regs.srcLen.toNat + 2 * s.regs.srcLen.toNat := rfl

/-- Settles O37: the count at acceptance, at rest, after an engine step, and after any other agent's. -/
theorem engineStepsLeftAlwaysDecrease : Obligations.EngineStepsLeftAlwaysDecrease := by
  refine ⟨fun s t _ hb hl ht => ?accepted, fun s h => h.stepsLeft_eq_zero, fun s ans h hb ha hans => ?engine,
    fun s t ev h hb hev he hr ht => ?other⟩
  case accepted =>
    cases (hl.exec_apply hb).symm.trans ht
    exact stepsLeft_acceptApply s
  case engine =>
    obtain ⟨t, ht⟩ := h.engineStep_next ans
    have hpos := h.eng.stepsLeft_pos (busy_eq_true.1 hb)
    refine ⟨t, ht, ?_⟩
    rcases (engineStep_effect ht).stepsLeft h hb ha hans with hstep | ⟨hz, hend⟩
    · exact ⟨hstep.le, fun _ _ => hstep⟩
    · rw [hz, stepsLeft_zero]
      refine ⟨hpos, fun hab hok => absurd hend ?_⟩
      rw [hab, hok]
      decide
  case other =>
    obtain ⟨b, hb'⟩ := (runEvent_effect ((step_of_head hev).symm.trans ht)).eng_of_busy hb he hr
    rw [hb']
    rfl

end Sys2Proof
end

section
/-! PROOF. The progress of a running APPLY (41_stream_engine.md R150, R164, R168). Each stage has what memory and the buffer hold
of the stream, and a rule for each of its steps; where no agent has raced, those steps are what the engine can do. -/

namespace Sys2Proof

open Machine

variable {s t : State} {e : Eng} {m0 m : Mem}

/-! ### What memory holds of the stream -/

/-- Memory holds the first `count` output bytes of the APPLY with the shadows of `e`, which began on `m0`. -/
abbrev StreamAt (m0 m : Mem) (e : Eng) (count : Nat) : Prop :=
  HoldsStream m0 m e.src.toNat e.dst.toNat count e.key e.nonce e.ctr0

theorem HoldsStream.start (m : Mem) (src dst : Nat) (k : KeyWords) (nw : NonceWords) (c0 : Word) :
    HoldsStream m m src dst 0 k nw c0 :=
  ⟨fun x hx => absurd hx (Nat.not_lt_zero x), fun _ _ => rfl⟩

/-- Writing the next output byte. -/
theorem HoldsStream.write_next {src dst count : Nat} {k : KeyWords} {nw : NonceWords} {c0 : Word} {v : Byte}
    (h : HoldsStream m0 m src dst count k nw c0) (hwf : Mem.wf m)
    (hv : v = bxor (memRead m0 (src + count)) (keystreamByte k nw c0 count)) :
    HoldsStream m0 (memWrite m (dst + count) v) src dst (count + 1) k nw c0 where
  output x hx := by
    rcases Nat.lt_succ_iff_lt_or_eq.1 hx with hlt | rfl
    · rw [memRead_memWrite_other hwf v (by omega), h.output x hlt]
    · rw [memRead_memWrite_same hwf, hv]
  elsewhere a ha := by
    rw [memRead_memWrite_other hwf v (by omega), h.elsewhere a (by omega)]

/-- The input bytes from the count on are as they were: the output range is the input range, or apart from it. -/
theorem ApplyOk.read_input {count x : Nat} (ha : ApplyOk e) (h : StreamAt m0 m e count) (hc : count ≤ x)
    (hx : x < e.len.toNat) : memRead m (e.src.toNat + x) = memRead m0 (e.src.toNat + x) := by
  refine h.elsewhere _ ?_
  rcases ha.apart with heq | hbelow | habove
  · rw [heq]; omega
  · omega
  · omega

/-! ### What the buffer holds of the input -/

/-- The first `c` bytes of the buffer are input bytes of block `eng.j`. -/
def BufferHolds (m0 : Mem) (e : Eng) (c : Nat) : Prop :=
  ∀ q : Fin 64, q.val < c → e.buf[q] = memRead m0 (e.src.toNat + 64 * e.j.toNat + q.val)

/-- Reading the next input byte. -/
theorem BufferHolds.read_next {b : Byte} (h : BufferHolds m0 e e.i.val) (hb : b = memRead m0 (rdAddress e)) :
    BufferHolds m0 { e with buf := e.buf.set e.i b } (e.i.val + 1) := by
  intro q hq
  rw [Fin.getElem_fin, Vector.getElem_set]
  split
  · next heq => rw [hb, rdAddress_eq, ← heq]
  · next hne => exact h q (by omega)

/-! ### Progress by phase -/

theorem bytesWritten_wr (hp : e.phase = .wr) : bytesWritten e = byteIndex e := by simp only [bytesWritten, hp]

theorem bytesWritten_of_ne_wr (hp : e.phase ≠ .wr) : bytesWritten e = 64 * e.j.toNat := by
  unfold bytesWritten
  split
  · next hw => exact absurd hw hp
  · rfl

theorem holdsInput_rd (hp : e.phase = .rd) : HoldsInput m0 e ↔ BufferHolds m0 e e.i.val := by
  simp only [HoldsInput, BufferHolds, hp]

theorem holdsInput_wr (hp : e.phase = .wr) : HoldsInput m0 e ↔ BufferHolds m0 e e.n.val := by
  simp only [HoldsInput, BufferHolds, hp]

theorem Progress.blk (hp : s.eng.phase = .blk) (hs : StreamAt m0 s.mem s.eng (64 * s.eng.j.toNat)) : Progress m0 s where
  running := by rw [hp]; rfl
  stream := by rw [bytesWritten_of_ne_wr (by rw [hp]; decide)]; exact hs
  input q hq := by rw [hp] at hq; exact absurd hq (Nat.not_lt_zero _)

theorem Progress.rd (hp : s.eng.phase = .rd) (hs : StreamAt m0 s.mem s.eng (64 * s.eng.j.toNat))
    (hb : BufferHolds m0 s.eng s.eng.i.val) : Progress m0 s where
  running := by rw [hp]; rfl
  stream := by rw [bytesWritten_of_ne_wr (by rw [hp]; decide)]; exact hs
  input := (holdsInput_rd hp).2 hb

theorem Progress.wr (hp : s.eng.phase = .wr) (hs : StreamAt m0 s.mem s.eng (byteIndex s.eng))
    (hb : BufferHolds m0 s.eng s.eng.n.val) : Progress m0 s where
  running := by rw [hp]; rfl
  stream := by rw [bytesWritten_wr hp]; exact hs
  input := (holdsInput_wr hp).2 hb

theorem Progress.of_ne_wr (h : Progress m0 s) (hp : s.eng.phase ≠ .wr) :
    StreamAt m0 s.mem s.eng (64 * s.eng.j.toNat) := by
  rw [← bytesWritten_of_ne_wr hp]; exact h.stream

theorem Progress.of_rd (h : Progress m0 s) (hp : s.eng.phase = .rd) :
    StreamAt m0 s.mem s.eng (64 * s.eng.j.toNat) ∧ BufferHolds m0 s.eng s.eng.i.val :=
  ⟨h.of_ne_wr (by rw [hp]; decide), (holdsInput_rd hp).1 h.input⟩

theorem Progress.of_wr (h : Progress m0 s) (hp : s.eng.phase = .wr) :
    StreamAt m0 s.mem s.eng (byteIndex s.eng) ∧ BufferHolds m0 s.eng s.eng.n.val := by
  rw [← bytesWritten_wr hp]
  exact ⟨h.stream, (holdsInput_wr hp).1 h.input⟩

theorem Progress.busy (h : Progress m0 s) : s.busy = true := by
  rw [busy_eq_true]
  intro hp
  have hr := h.running
  rw [hp] at hr
  cases hr

/-- Progress speaks of memory and of the engine, and not of its abort request. -/
theorem Progress.congr (h : Progress m0 s) (hm : t.mem = s.mem) {b : Bool}
    (he : t.eng = { s.eng with abortPend := b }) : Progress m0 t where
  running := by rw [he]; exact h.running
  stream := by rw [he, hm]; exact h.stream
  input := by rw [he]; exact h.input

/-- An APPLY starts with nothing written and nothing read. -/
theorem Progress.accepted (s : State) : Progress s.mem (acceptApply s) := .blk rfl (.start ..)

/-! ### Engine steps where no agent has raced -/

/-- The shadows that no engine step changes (10_state.md R44). -/
structure SameShadows (e e' : Eng) : Prop where
  src : e'.src = e.src
  dst : e'.dst = e.dst
  len : e'.len = e.len
  key : e'.key = e.key
  nonce : e'.nonce = e.nonce
  ctr0 : e'.ctr0 = e.ctr0

/-- The state in which an APPLY on memory `m` completes with OK (41_stream_engine.md R164). -/
def streamDone (m : Mem) (s : State) : State :=
  complete .ok (s.eng.ctr0 + BitVec.ofNat 32 (blockCount s.eng.len.toNat)) s.eng.len 0 { s with mem := m }

/-- What an answered engine step of an undisturbed APPLY does: it goes on with its progress, ends with the whole output
written, or ends at the abort test. -/
inductive StreamStep (m0 : Mem) (s : State) : State → Prop where
  | goesOn (m : Mem) (e : Eng) (hs : SameShadows s.eng e) (hab : e.abortPend = s.eng.abortPend)
      (haw : e.awaiting = s.eng.awaiting) (hp : Progress m0 { s with mem := m, eng := e }) :
      StreamStep m0 s { s with mem := m, eng := e }
  | completes (m : Mem) (hm : StreamAt m0 m s.eng s.eng.len.toNat) : StreamStep m0 s (streamDone m s)
  | aborts (hp : s.eng.phase = .blk) (hab : s.eng.abortPend = true) :
      StreamStep m0 s (complete .aborted s.eng.runCtr (blockBase s.eng) 0 s)

/-- The byte an RD step reads is the input byte. -/
theorem Progress.rd_byte (h : Progress m0 s) (hi : Inv s) (hp : s.eng.phase = .rd) :
    memRead s.mem (rdAddress s.eng) = memRead m0 (rdAddress s.eng) := by
  obtain ⟨ha, hb⟩ := hi.eng.of_rd hp
  exact ha.read_input (h.of_rd hp).1 (Nat.le_add_right _ _) (byteIndex_lt ha hb)

/-- The byte a WR step writes is the output byte. -/
theorem Progress.wr_byte (h : Progress m0 s) (hi : Inv s) (hp : s.eng.phase = .wr) :
    wrByte s.eng = bxor (memRead m0 (s.eng.src.toNat + byteIndex s.eng))
      (keystreamByte s.eng.key s.eng.nonce s.eng.ctr0 (byteIndex s.eng)) := by
  obtain ⟨-, hb⟩ := hi.eng.of_wr hp
  rw [wrByte, (h.of_wr hp).2 _ hb.index, hb.stream, byteIndex, keystreamByte_block _ _ _ _ _ s.eng.i.isLt, Nat.add_assoc]
  rfl

/-- A WR step writes one more byte of the stream. -/
theorem Progress.wr_stream (h : Progress m0 s) (hi : Inv s) (hp : s.eng.phase = .wr) :
    StreamAt m0 (memWrite s.mem (wrAddress s.eng) (wrByte s.eng)) s.eng (byteIndex s.eng + 1) :=
  (h.of_wr hp).1.write_next hi.mem (h.wr_byte hi hp)

/-- The running counter after the last block is the counter past all blocks (41_stream_engine.md R155). -/
theorem ApplyOk.last_counter (ha : ApplyOk e) (hl : e.len.toNat ≤ 64 * (e.j.toNat + 1)) :
    e.ctr0 + e.j + 1 = e.ctr0 + BitVec.ofNat 32 (blockCount e.len.toNat) := by
  have hlt := ha.block
  have hcount : blockCount e.len.toNat = e.j.toNat + 1 := by unfold blockCount; omega
  rw [hcount, BitVec.ofNat_add, BitVec.ofNat_toNat, BitVec.setWidth_eq, ← BitVec.add_assoc]
  rfl

theorem Machine.EngineEffect.streamStep (he : EngineEffect s .ok t) (hi : Inv s) (hr : s.env.raced = [])
    (h : Progress m0 s) : StreamStep m0 s t := by
  have hunraced := isRaced_nil hr
  cases he with
  | waiting => exact .goesOn s.mem s.eng ⟨rfl, rfl, rfl, rfl, rfl, rfl⟩ rfl rfl h
  | idle _ hp => exact absurd hp (busy_eq_true.1 h.busy)
  | gen _ hp => have hrun := h.running; rw [hp] at hrun; cases hrun
  | aborted _ hp hab => exact .aborts hp hab
  | blk _ hp =>
    exact .goesOn s.mem _ ⟨rfl, rfl, rfl, rfl, rfl, rfl⟩ rfl rfl
      (.rd rfl (h.of_ne_wr (by rw [hp]; decide)) (fun q hq => absurd hq (Nat.not_lt_zero _)))
  | rdMore _ hp _ i' hi' =>
    obtain ⟨hs, hb⟩ := h.of_rd hp
    rw [dmaRead_unraced (hunraced _)]
    refine .goesOn s.mem (readMore _ i' s.eng) ⟨rfl, rfl, rfl, rfl, rfl, rfl⟩ rfl rfl (.rd hp hs ?_)
    have hnext := hb.read_next (h.rd_byte hi hp)
    rw [← hi'] at hnext
    exact hnext
  | rdLast _ hp _ hn =>
    obtain ⟨hs, hb⟩ := h.of_rd hp
    rw [dmaRead_unraced (hunraced _)]
    refine .goesOn s.mem (readLast _ s.eng) ⟨rfl, rfl, rfl, rfl, rfl, rfl⟩ rfl rfl (.wr rfl hs ?_)
    have hnext := hb.read_next (h.rd_byte hi hp)
    rw [hn] at hnext
    exact hnext
  | wrMore _ hp _ i' hi' =>
    rw [dmaWrite_unraced _ (hunraced _)]
    refine .goesOn _ { s.eng with i := i' } ⟨rfl, rfl, rfl, rfl, rfl, rfl⟩ rfl rfl (.wr hp ?_ (h.of_wr hp).2)
    have hindex : byteIndex { s.eng with i := i' } = byteIndex s.eng + 1 := by
      simp only [byteIndex, hi', Nat.add_assoc]
    rw [hindex]
    exact h.wr_stream hi hp
  | wrNextBlock _ hp _ hn hl =>
    obtain ⟨ha, hb⟩ := hi.eng.of_wr hp
    rw [dmaWrite_unraced _ (hunraced _)]
    refine .goesOn _ { s.eng with j := s.eng.j + 1, i := 0, phase := .blk } ⟨rfl, rfl, rfl, rfl, rfl, rfl⟩ rfl rfl
      (.blk rfl ?_)
    have hindex : 64 * (s.eng.j + 1).toNat = byteIndex s.eng + 1 := by
      rw [block_succ_toNat ha, byteIndex, Nat.add_assoc, hn, hb.length_full hl, Nat.mul_succ]
    rw [hindex]
    exact h.wr_stream hi hp
  | wrDone _ hp _ hn hl =>
    obtain ⟨ha, hb⟩ := hi.eng.of_wr hp
    have hindex : byteIndex s.eng + 1 = s.eng.len.toNat := by
      rw [byteIndex, Nat.add_assoc, hn, hb.last_end ha hl]
    rw [dmaWrite_unraced _ (hunraced _), hb.counter, ha.last_counter hl]
    refine .completes _ ?_
    rw [← hindex]
    exact h.wr_stream hi hp

/-! ### The other agents' steps while an APPLY runs undisturbed -/

/-- No host write changes memory, or the record of races. -/
theorem Machine.WriteEffect.mem_raced {r : Reg} {w : Word} (h : WriteEffect s r w t) :
    t.mem = s.mem ∧ t.env.raced = s.env.raced := by
  cases h with
  | command _ hc =>
    cases hc with
    | genDropped | genStarts | applyDropped | applyCompletes | applyStarts | abortRequests | abortIdle => exact ⟨rfl, rfl⟩
  | reservedDropped | reservedBad | status | irqEn | lockedDropped | lockedSet | ignored => exact ⟨rfl, rfl⟩

theorem Machine.hostRead_mem_raced (r : Reg) (hr : s.env.raced = []) :
    (hostRead r s).mem = s.mem ∧ (hostRead r s).env.raced = [] := by
  unfold hostRead
  split
  · exact ⟨rfl, rfl⟩
  · exact ⟨rfl, hr⟩

/-- An undisturbing event of another agent writes no memory and races on nothing. -/
theorem Machine.EventEffect.mem_raced {ev : Event} (h : EventEffect s ev t) (hu : Undisturbed s ev)
    (he : ∀ ans, ev ≠ .engine ans) (hr : s.env.raced = []) : t.mem = s.mem ∧ t.env.raced = [] := by
  cases h with
  | host ha =>
    cases ha with
    | notSelected | busError => exact ⟨rfl, hr⟩
    | read => exact hostRead_mem_raced _ hr
    | write _ _ _ hw => exact ⟨hw.mem_raced.1, hw.mem_raced.2.trans hr⟩
  | loadRaces _ _ hraces => exact absurd (hraces.symm.trans hu) (by decide)
  | load | sampleLow => exact ⟨rfl, hr⟩
  | sampleHigh => exact ⟨rfl, rfl⟩
  | storeRaces | store | rstInFlight | rst => exact hu.elim
  | engine => exact absurd rfl (he _)

/-- What an undisturbed step of an APPLY does: its engine step, or a step of another agent that leaves its progress. -/
theorem Machine.EventEffect.progress {ev : Event} (h : EventEffect s ev t) (hu : Undisturbed s ev) (hi : Inv s)
    (hr : s.env.raced = []) (hp : Progress m0 s) :
    StreamStep m0 s t ∨ Progress m0 t ∧ t.env.raced = [] ∧ SameShadows s.eng t.eng := by
  by_cases he : ∃ ans, ev = .engine ans
  · obtain ⟨ans, rfl⟩ := he
    obtain rfl : ans = .ok := hu
    cases h with
    | engine hstep => exact .inl (hstep.streamStep hi hr hp)
  · have hne : ∀ ans, ev ≠ .engine ans := not_exists.1 he
    have hnr : ∀ b, ev ≠ .rst b := by rintro b rfl; exact hu
    obtain ⟨hm, hraced⟩ := h.mem_raced hu hne hr
    obtain ⟨b, hb⟩ := h.eng_of_busy hp.busy hne hnr
    exact .inr ⟨hp.congr hm hb, hraced, by rw [hb]; exact ⟨rfl, rfl, rfl, rfl, rfl, rfl⟩⟩

/-! ### The headline invariant -/

theorem Undisturbed.popScript {ev : Event} (h : Undisturbed s ev) : Undisturbed (popScript s) ev := by
  cases ev <;> exact h

/-- The bytes of the blocks before `eng.j` fit a word. -/
theorem ApplyOk.blockBase_toNat (ha : ApplyOk e) : (blockBase e).toNat = 64 * e.j.toNat := by
  have hlt := ha.block
  have hlen := e.len.isLt
  rw [blockBase, BitVec.toNat_ofNat, Nat.mod_eq_of_lt (by omega)]

/-- Settles O34: an accepted APPLY begins with nothing written; taking the event off the script changes nothing that progress
speaks of, and the step goes on, completes, or ends at the abort test. -/
theorem applyProgressKeptUnderAnySchedule : Obligations.ApplyProgressKeptUnderAnySchedule := by
  refine ⟨fun s t hb hl ht => ?_, fun m0 s t hi hr hp hu ht => ?_⟩
  · cases (hl.exec_apply hb).symm.trans ht
    exact .accepted s
  · have hp' : Progress m0 (popScript s) := hp.congr rfl rfl
    rcases (step_effect ht).progress hu.popScript hi.popScript hr hp' with hstep | ⟨hpt, hrt, hs⟩
    · cases hstep with
      | goesOn m e hs _ _ hpt => exact .inl ⟨hpt, hr, hs.src, hs.dst, hs.len, hs.key, hs.nonce, hs.ctr0⟩
      | completes m hm => exact .inr (.inl ⟨rfl, rfl, hm, rfl, rfl, rfl⟩)
      | aborts hph =>
        have ha := (hi.eng.of_blk hph).1
        exact .inr (.inr ⟨rfl, rfl, hp.of_ne_wr (by rw [← popScript_eng, hph]; decide), ha.blockBase_toNat⟩)
    · exact .inl ⟨hpt, hrt, hs.src, hs.dst, hs.len, hs.key, hs.nonce, hs.ctr0⟩

end Sys2Proof
end

section
/-! PROOF. A whole APPLY (41_stream_engine.md R150, R160, R164), its engine steps uninterrupted: an induction on the steps it
has left, each of which goes on with its progress until none is left; and two of them in place (R162, R163). -/

namespace Sys2Proof

open Machine

variable {s t : State} {m0 m : Mem} {rest : List Event}

/-! ### The run of engine steps -/

/-- The state with other events next. -/
def withScript (evs : List Event) (s : State) : State := { s with env := { s.env with script := evs } }

/-- An APPLY that began on `m0` runs; no agent has raced, no abort is pending, and every access has been answered. -/
structure Streaming (m0 : Mem) (s : State) : Prop where
  inv : Inv s
  unraced : s.env.raced = []
  progress : Progress m0 s
  answered : s.eng.awaiting = false
  unaborted : s.eng.abortPend = false

/-- An engine step of such an APPLY takes one of the steps it has left, and goes on or completes. -/
theorem Streaming.engine_step (h : Streaming m0 s) :
    ∃ t, engineStep .ok s = .next t ∧ stepsLeft t.eng + 1 = stepsLeft s.eng ∧
      ((∃ m e, SameShadows s.eng e ∧ t = { s with mem := m, eng := e } ∧ Streaming m0 t) ∨
        ∃ m, StreamAt m0 m s.eng s.eng.len.toNat ∧ t = streamDone m s) := by
  obtain ⟨t, ht⟩ := h.inv.engineStep_next .ok
  have he := engineStep_effect ht
  have hcount := he.stepsLeft h.inv h.progress.busy h.answered (by decide)
  have hleft : stepsLeft t.eng + 1 = stepsLeft s.eng := hcount.resolve_right (by rw [h.unaborted]; simp)
  have hinv : Inv t := he.inv h.inv
  refine ⟨t, ht, hleft, ?_⟩
  cases he.streamStep h.inv h.unraced h.progress with
  | goesOn m e hs hab haw hp =>
    exact .inl ⟨m, e, hs, rfl, hinv, h.unraced, hp, haw.trans h.answered, hab.trans h.unaborted⟩
  | completes m hm => exact .inr ⟨m, hm, rfl⟩
  | aborts _ hab => exact absurd (hab.symm.trans h.unaborted) (by decide)

theorem Machine.popScript_eq {ev : Event} {evs : List Event} (h : s.env.script = ev :: evs) :
    popScript s = withScript evs s := by
  rw [popScript, withScript, h, List.tail_cons]

/-- The step of the script's next event, with the script past it. -/
theorem Machine.step_of_cons {ev : Event} {evs : List Event} (h : s.env.script = ev :: evs) :
    step s = runEvent ev (withScript evs s) := by
  rw [step_of_head (by rw [h]; rfl), popScript_eq h]

theorem Inv.withScript (h : Inv s) (evs : List Event) : Inv (withScript evs s) :=
  h.of_same_eng (h.flags.of_same_eng rfl rfl rfl id) rfl (h.memoryOk.of_frame rfl rfl rfl le_rfl) rfl

theorem Streaming.scripted (h : Streaming m0 s) (evs : List Event) : Streaming m0 (withScript evs s) :=
  ⟨h.inv.withScript evs, h.unraced, h.progress.congr rfl rfl, h.answered, h.unaborted⟩

theorem SameShadows.streamAt {e e' : Eng} {count : Nat} (h : SameShadows e e') :
    StreamAt m0 m e' count ↔ StreamAt m0 m e count := by
  rw [StreamAt, StreamAt, h.src, h.dst, h.key, h.nonce, h.ctr0]

/-- The completion depends on the shadows alone, so it is the same one step later. -/
theorem SameShadows.streamDone_eq {e : Eng} {m' : Mem} (h : SameShadows s.eng e) :
    streamDone m (withScript rest { s with mem := m', eng := e }) = streamDone m (withScript rest s) := by
  simp only [streamDone, withScript, h.ctr0, h.len]
  rfl

/-- The block is busy before each of the next `k` steps. -/
def BusyFor (k : Nat) (s : State) : Prop := ∀ i < k, ∃ u : State, core.run i s = .next u ∧ u.busy = true

theorem BusyFor.zero (s : State) : BusyFor 0 s := fun _ hi => absurd hi (Nat.not_lt_zero _)

theorem BusyFor.succ {k : Nat} (h : BusyFor k t) (hb : s.busy = true) (hstep : step s = .next t) :
    BusyFor (k + 1) s := by
  intro i hi
  cases i with
  | zero => exact ⟨s, rfl, hb⟩
  | succ i => rw [run_succ hstep]; exact h i (Nat.lt_of_succ_lt_succ hi)

/-- An APPLY with `k` steps left is busy until the last of them, with which it completes on the whole output. -/
theorem Streaming.run {k : Nat} (h : Streaming m0 s) (hk : stepsLeft s.eng = k)
    (hscript : s.env.script = List.replicate k (.engine .ok) ++ rest) :
    BusyFor k s ∧
      ∃ m, StreamAt m0 m s.eng s.eng.len.toNat ∧ core.run k s = .next (streamDone m (withScript rest s)) := by
  induction k generalizing s with
  | zero =>
    have hb := h.inv.stepsLeft_eq_zero.1 hk
    exact absurd (h.progress.busy.symm.trans hb) (by decide)
  | succ k ih =>
    rw [List.replicate_succ, List.cons_append] at hscript
    obtain ⟨t, ht, hleft, hnext⟩ := (h.scripted (List.replicate k (.engine .ok) ++ rest)).engine_step
    have hstep : step s = .next t := (step_of_cons hscript).trans ht
    have hkt : stepsLeft t.eng = k := Nat.succ.inj (hleft.trans hk)
    rw [run_succ hstep]
    rcases hnext with ⟨m', e, hs, rfl, hstream⟩ | ⟨m, hm, rfl⟩
    · obtain ⟨hbusy, m, hm, hrun⟩ := ih hstream hkt rfl
      exact ⟨hbusy.succ h.progress.busy hstep, m, hs.streamAt.1 (hs.len ▸ hm), hrun.trans (congrArg _ hs.streamDone_eq)⟩
    · obtain rfl : k = 0 := hkt.symm
      exact ⟨(BusyFor.zero _).succ h.progress.busy hstep, m, hm, rfl⟩

/-! ### The whole APPLY -/

/-- The state after an APPLY written while idle, with the output on memory `m` (41_stream_engine.md R164). -/
def applyDone (m : Mem) (evs : List Event) (s : State) : State :=
  streamDone m (withScript evs (acceptApply (withReply .okay s)))

theorem Streaming.accepted (hi : Inv s) (hb : s.busy = false) (hr : s.env.raced = []) (hl : ApplyLegal s) :
    Streaming s.mem (acceptApply s) where
  inv := (exec_effect (hl.exec_apply hb)).inv hi
  unraced := hr
  progress := .accepted s
  answered := by rw [acceptApply_eng, hi.idle_eng hb]; rfl
  unaborted := rfl

/-- The conditions of acceptance speak of the arguments and the platform alone. -/
theorem ApplyLegal.scripted (hl : ApplyLegal s) (evs : List Event) :
    ApplyLegal (withReply .okay (withScript evs s)) :=
  ⟨hl.lengths, hl.nonzero, hl.src_fits, hl.dst_fits, hl.apart, hl.normal⟩

/-- The step that writes APPLY to CMD where it is accepted. -/
theorem ApplyLegal.step_next {evs : List Event} (hl : ApplyLegal s) (hb : s.busy = false)
    (hscript : s.env.script = .host (regAccess s.env.plat .write .cmd 2) :: evs) :
    step s = .next (acceptApply (withReply .okay (withScript evs s))) := by
  rw [step_regWrite (r := .cmd) (w := 2) (by rw [hscript]; rfl), popScript_eq hscript, writeReg,
    writeCmd_of_instr (i := .apply) (by decide), (hl.scripted evs).exec_apply hb]

/-- The CMD write and the B + 2L engine steps of an APPLY that nothing interrupts. -/
theorem ApplyLegal.run {steps : Nat} (hl : ApplyLegal s) (hi : Inv s) (hb : s.busy = false) (hr : s.env.raced = [])
    (hsteps : steps = blockCount s.regs.srcLen.toNat + 2 * s.regs.srcLen.toNat)
    (hscript : s.env.script =
      .host (regAccess s.env.plat .write .cmd 2) :: (List.replicate steps (.engine .ok) ++ rest)) :
    (∀ k, 1 ≤ k → k ≤ steps → ∃ u : State, core.run k s = .next u ∧ u.busy = true) ∧
      ∃ m, HoldsStream s.mem m s.regs.srcAddr.toNat s.regs.dstAddr.toNat s.regs.srcLen.toNat s.regs.key s.regs.nonce
          s.regs.counter ∧
        core.run (1 + steps) s = .next (applyDone m rest s) := by
  have hstep := hl.step_next hb hscript
  have hi' : Inv (withReply .okay (withScript (List.replicate steps (.engine .ok) ++ rest) s)) :=
    (hi.withScript _).withReply _
  obtain ⟨hbusy, m, hm, hrun⟩ :=
    (Streaming.accepted hi' hb hr (hl.scripted _)).run ((stepsLeft_acceptApply _).trans hsteps.symm) rfl
  refine ⟨fun k h1 hk => ?_, m, hm, ?_⟩
  · obtain ⟨i, rfl⟩ := Nat.exists_eq_add_of_le' h1
    rw [run_succ hstep]
    exact hbusy i hk
  · rw [Nat.add_comm, run_succ hstep]
    exact hrun

/-- Settles O35: the run of the CMD write and of the steps that are left at acceptance. -/
theorem applyComputesCounterModeStream : Obligations.ApplyComputesCounterModeStream := by
  intro s rest hi hb hr hl L steps hscript
  obtain ⟨hbusy, m, hm, hrun⟩ := hl.run hi hb hr rfl hscript
  exact ⟨hbusy, applyDone m rest s, hrun, rfl, hm, rfl, rfl, rfl, rfl⟩

/-! ### Twice in place -/

theorem Inv.run {k : Nat} (h : Inv s) (hrun : core.run k s = .next t) : Inv t :=
  run_keeps (P := Inv) machineInvariantKeptByEveryStep h hrun

/-- In place the second stream meets each byte of the first with the same keystream byte. -/
theorem HoldsStream.inPlace_twice {m1 m2 : Mem} {a count : Nat} {k : KeyWords} {nw : NonceWords} {c0 : Word}
    (h1 : HoldsStream m m1 a a count k nw c0) (h2 : HoldsStream m1 m2 a a count k nw c0) (x : Nat) :
    memRead m2 x = memRead m x := by
  by_cases hx : a ≤ x ∧ x < a + count
  · obtain ⟨q, rfl⟩ := Nat.exists_eq_add_of_le hx.1
    have hq : q < count := by omega
    rw [h2.output q hq, h1.output q hq, bxor_bxor]
  · rw [h2.elsewhere x (by omega), h1.elsewhere x (by omega)]

/-- The state after an APPLY has the arguments of another one like it. -/
theorem ApplyLegal.applyDone (hl : ApplyLegal s) (m : Mem) (evs : List Event) : ApplyLegal (applyDone m evs s) :=
  ⟨hl.lengths, hl.nonzero, hl.src_fits, hl.dst_fits, hl.apart, hl.normal⟩

/-- Settles O36: the first run leaves the arguments as they are for the second, whose stream undoes that of the first; memories
in canonical form that read alike are equal. -/
theorem inPlaceApplyTwiceRestoresMemory : Obligations.InPlaceApplyTwiceRestoresMemory := by
  intro s rest hi hb hr hl hplace L steps once hscript
  obtain ⟨-, m1, hm1, hrun1⟩ := hl.run hi hb hr rfl hscript
  have hi1 : Inv (applyDone m1 (once ++ rest) s) := hi.run hrun1
  obtain ⟨-, m2, hm2, hrun2⟩ := (hl.applyDone m1 (once ++ rest)).run hi1 rfl hr rfl rfl
  have hi2 : Inv (applyDone m2 rest (applyDone m1 (once ++ rest) s)) := hi1.run hrun2
  rw [hplace] at hm1
  have hm2' : HoldsStream m1 m2 s.regs.dstAddr.toNat s.regs.dstAddr.toNat L s.regs.key s.regs.nonce s.regs.counter :=
    hplace ▸ hm2
  refine ⟨_, ?_, rfl, Mem.ext_of_wf hi2.mem hi.mem (hm1.inPlace_twice hm2'), rfl⟩
  rw [Nat.two_mul, run_add hrun1]
  exact hrun2

end Sys2Proof
end

section
/-! PROOF. The commands and the register accesses (42_commands.md R180 to R193): the write of each command to CMD while idle,
the GEN step, what every command leaves unchanged, and the reads and writes of the other registers. -/

namespace Sys2Proof.Machine

variable {s : State}

/-! ### GEN (R181, R182) -/

theorem exec_gen_of_idle (hb : s.busy = false) : exec .gen s = .next (enterPhase .gen (start s)) :=
  if_neg (Bool.not_eq_true _ ▸ hb)

/-- Settles O8: GEN while idle is the common start, and then the phase. -/
theorem genStartsWhenIdle : Obligations.GenStartsWhenIdle := fun _ hb => exec_gen_of_idle hb

/-- Settles O9: in the phase GEN the engine's step is the GEN step, a completion with the block's words in KS. -/
theorem genStepDeliversBlockWords : Obligations.GenStepDeliversBlockWords := fun _ ans hp ha =>
  engineStep_gen ans ha hp

/-! ### APPLY at issue (R183; 60_exceptions.md R221) -/

theorem exec_apply_of_issueResult (hb : s.busy = false) {res : Result} (hr : issueResult s.regs = some res) :
    exec .apply s = .next (complete res s.regs.counter 0 0 s) := by
  simp only [exec, execApply, hb, hr, Bool.false_eq_true, if_false]

section IssueChecks

variable {r : Regs}

theorem issueResult_of_length_ne (h : r.srcLen ≠ r.dstLen) : issueResult r = some .invalidArg := if_pos h

variable (hlen : r.srcLen = r.dstLen)
include hlen

theorem issueResult_of_length_zero (h : r.srcLen.toNat = 0) : issueResult r = some .ok := by
  have hz : r.srcLen = 0 := BitVec.eq_of_toNat_eq h
  rw [issueResult, if_neg (not_not.2 hlen), if_pos hz]

variable (hpos : 1 ≤ r.srcLen.toNat)
include hpos

/-- With lengths that are equal and not 0, the checks of the ranges are left. -/
theorem issueResult_of_length_pos :
    issueResult r =
      if 2 ^ 32 < r.srcAddr.toNat + r.srcLen.toNat ∨ 2 ^ 32 < r.dstAddr.toNat + r.srcLen.toNat then some .range
      else if r.srcAddr ≠ r.dstAddr ∧ r.srcAddr.toNat < r.dstAddr.toNat + r.srcLen.toNat ∧
        r.dstAddr.toNat < r.srcAddr.toNat + r.srcLen.toNat then some .overlap
      else none := by
  have hz : r.srcLen ≠ 0 := fun h => Nat.not_succ_le_zero 0 (by rwa [h] at hpos)
  rw [issueResult, if_neg (not_not.2 hlen), if_neg hz]

theorem issueResult_of_outside
    (h : 2 ^ 32 < r.srcAddr.toNat + r.srcLen.toNat ∨ 2 ^ 32 < r.dstAddr.toNat + r.srcLen.toNat) :
    issueResult r = some .range := by
  rw [issueResult_of_length_pos hlen hpos, if_pos h]

theorem issueResult_of_overlap
    (h : ¬(2 ^ 32 < r.srcAddr.toNat + r.srcLen.toNat ∨ 2 ^ 32 < r.dstAddr.toNat + r.srcLen.toNat))
    (hne : r.srcAddr.toNat ≠ r.dstAddr.toNat) (hs : r.srcAddr.toNat < r.dstAddr.toNat + r.srcLen.toNat)
    (hd : r.dstAddr.toNat < r.srcAddr.toNat + r.srcLen.toNat) : issueResult r = some .overlap := by
  have hne' : r.srcAddr ≠ r.dstAddr := fun he => hne (congrArg BitVec.toNat he)
  rw [issueResult_of_length_pos hlen hpos, if_neg h, if_pos ⟨hne', hs, hd⟩]

end IssueChecks

/-- Settles O11: an APPLY completes at issue with the first check that applies, one clause for each check. -/
theorem applyIssueChecksInOrder : Obligations.ApplyIssueChecksInOrder := by
  intro s hb done L src dst outside
  have hexec : ∀ {res : Result}, issueResult s.regs = some res → exec .apply s = done res :=
    exec_apply_of_issueResult hb
  exact ⟨fun hne => hexec (issueResult_of_length_ne hne),
    fun hlen hz => hexec (issueResult_of_length_zero hlen hz),
    fun hlen hpos hout => hexec (issueResult_of_outside hlen hpos hout),
    fun hlen hpos hin hne hsrc hdst => hexec (issueResult_of_overlap hlen hpos hin hne hsrc hdst)⟩

/-- Settles O12: an APPLY that passes every check on normal memory is accepted, with what acceptance does written out. -/
theorem applyAcceptedStartsEngine : Obligations.ApplyAcceptedStartsEngine := fun _ hb hl => hl.exec_apply hb

/-! ### ABORT (R185) -/

theorem exec_abort_of_idle (hb : s.busy = false) : exec .abort s = .next s := if_neg (Bool.not_eq_true _ ▸ hb)

/-- Settles O14: ABORT in its two cases. -/
theorem abortSetsRequestOnlyWhileBusy : Obligations.AbortSetsRequestOnlyWhileBusy := fun _ =>
  ⟨exec_abort_of_busy, exec_abort_of_idle⟩

/-! ### The frame of a command -/

/-- Settles O16: of the effects of a command, only an APPLY that completes at issue writes the register file, there the results
alone, and it leaves the block idle; no effect clears OVR. -/
theorem commandWriteFrame : Obligations.CommandWriteFrame := by
  intro i s t h
  cases exec_effect h with
  | genDropped | applyDropped =>
    exact ⟨.of_eq rfl, rfl, rfl, fun _ => rfl, rfl, rfl, rfl, fun _ => rfl, fun _ => .of_eq rfl⟩
  | genStarts | applyStarts | abortRequests | abortIdle =>
    exact ⟨.of_eq rfl, rfl, rfl, fun _ => rfl, rfl, rfl, rfl, id, fun _ => .of_eq rfl⟩
  | applyCompletes _ res =>
    have hnot : ¬(Instr.apply ≠ .apply ∨ (complete res s.regs.counter 0 0 s).busy = true) := by simp
    exact ⟨complete_sameArguments (.of_eq rfl), rfl, rfl, fun _ => rfl, rfl, rfl, rfl, id, fun hc => absurd hc hnot⟩

/-! ### Register reads (R192) -/

theorem hostRead_reply (r : Reg) (s : State) : (hostRead r s).env.reply = .data (readReg r s) := rfl

theorem hostRead_regs (r : Reg) (s : State) : (hostRead r s).regs = s.regs := by
  unfold hostRead; split <;> rfl

theorem hostRead_doneIe (r : Reg) (s : State) : (hostRead r s).doneIe = s.doneIe := by
  unfold hostRead; split <;> rfl

theorem hostRead_mem (r : Reg) (s : State) : (hostRead r s).mem = s.mem := by
  unfold hostRead; split <;> rfl

/-- A flag at place `n` of a word. -/
theorem flagWord_shiftLeft (b : Bool) (n : Nat) : flagWord b <<< n = if b then (1 : Word) <<< n else 0 := by
  cases b
  · exact BitVec.zero_shiftLeft n
  · rfl

/-- The STATUS word, each flag written as the number of its place. -/
theorem statusWord_eq (s : State) :
    s.statusWord =
      (if s.busy then 0x1 else 0) ||| (if s.status.done then 0x2 else 0) ||| (if s.status.err then 0x4 else 0) |||
        (if s.status.ovr then 0x8 else 0) ||| (s.status.result.code.setWidth 32 <<< 4) |||
        (if s.abortPending then 0x100 else 0) := by
  simp only [State.statusWord, flagWord_shiftLeft, Nat.cast_ite]
  rfl

/-- Settles O45: the step is the read, which leaves the block and memory and answers with the register's value. -/
theorem registerReadsReturnValuesWithoutSideEffect : Obligations.RegisterReadsReturnValuesWithoutSideEffect := by
  intro s r w h
  refine ⟨_, step_regRead h, hostRead_regs _ _, hostRead_status _ _, hostRead_doneIe _ _, hostRead_eng _ _,
    hostRead_mem _ _, ?_⟩
  rw [hostRead_reply]
  cases r with
  | status => exact congrArg Reply.data (statusWord_eq s)
  | _ => rfl

/-! ### Writes of STATUS and IRQ_EN (R187, R190) -/

/-- What a STATUS write makes of the flags, by the two bits that it looks at. -/
theorem Status.written_eq (w : Word) (st : Status) :
    st.written w = { st with done := if w.getLsbD 1 then false else st.done,
                             ovr := if w.getLsbD 3 then false else st.ovr } := by
  simp [Status.written, Bool.and_comm]

/-- Settles O48: the step is the acknowledge. -/
theorem statusWriteClearsNamedFlags : Obligations.StatusWriteClearsNamedFlags := fun s w h =>
  ⟨_, step_regWrite h, Status.written_eq w s.status, rfl, rfl, rfl, rfl, rfl⟩

/-- Settles O49: the step writes DONE_IE alone, and `irq` is DONE AND DONE_IE in the state it leaves. -/
theorem interruptEnableWrite : Obligations.InterruptEnableWrite := fun _ _ h =>
  ⟨_, step_regWrite h, rfl, rfl, rfl, rfl, rfl, rfl, rfl⟩

/-! ### Writes of the argument registers (R188, R189) -/

theorem writeLocked_of_idle (hb : s.busy = false) (regs' : Regs) : writeLocked regs' s = { s with regs := regs' } :=
  if_neg (Bool.not_eq_true _ ▸ hb)

theorem writeLocked_of_busy (hb : s.busy = true) (regs' : Regs) : writeLocked regs' s = dropWrite s := if_pos hb

theorem writeReg_of_lockedWrite {r : Reg} {w : Word} {regs' : Regs} (hl : LockedWrite s.regs w r regs') :
    writeReg r w s = .next (writeLocked regs' s) := by
  cases hl <;> rfl

/-- The converse of `LockedWrite.reg`: each argument register is busy-locked. -/
theorem exists_lockedWrite {r : Reg} (regs : Regs) (w : Word)
    (h : r = .counter ∨ r = .srcAddr ∨ r = .dstAddr ∨ r = .srcLen ∨ r = .dstLen ∨ (∃ k, r = .key k) ∨
      (∃ k, r = .nonce k)) :
    ∃ regs', LockedWrite regs w r regs' := by
  rcases h with rfl | rfl | rfl | rfl | rfl | ⟨k, rfl⟩ | ⟨k, rfl⟩
  exacts [⟨_, .counter⟩, ⟨_, .srcAddr⟩, ⟨_, .dstAddr⟩, ⟨_, .srcLen⟩, ⟨_, .dstLen⟩, ⟨_, .key k⟩, ⟨_, .nonce k⟩]

/-- The step that writes an argument register at its address. -/
theorem step_lockedWrite {r : Reg} {w : Word} {regs' : Regs}
    (h : s.env.script.head? = some (.host (regAccess s.env.plat .write r w))) (hl : LockedWrite s.regs w r regs') :
    step s = .next (writeLocked regs' (withReply .okay (popScript s))) :=
  (step_regWrite h).trans (writeReg_of_lockedWrite (s := withReply .okay (popScript s)) hl)

/-- Settles O50: the write is that of a busy-locked register, which while idle is set. -/
theorem argumentWriteWhileIdleSetsRegister : Obligations.ArgumentWriteWhileIdleSetsRegister := by
  intro s r w regs' hb h hr
  have hl : LockedWrite s.regs w r regs' := by
    cases r with
    | counter | srcAddr | dstAddr | srcLen | dstLen | key | nonce => cases hr; constructor
    | _ => exact hr.elim
  rw [step_lockedWrite h hl, writeLocked_of_idle (s := withReply .okay (popScript s)) hb]
  exact ⟨_, rfl, rfl, rfl, rfl, rfl, rfl, rfl⟩

/-- Settles O51: the write is that of a busy-locked register, which while busy is dropped. -/
theorem argumentWriteWhileBusyIsDropped : Obligations.ArgumentWriteWhileBusyIsDropped := by
  intro s r w hb h hr
  obtain ⟨regs', hl⟩ := exists_lockedWrite s.regs w hr
  rw [step_lockedWrite h hl, writeLocked_of_busy (s := withReply .okay (popScript s)) hb]
  exact ⟨_, rfl, rfl, rfl, rfl, rfl, rfl, rfl⟩

end Sys2Proof.Machine
end

section
/-! PROOF. Results, aborts, bus errors and the interrupt (60_exceptions.md R211 to R217, R226): how each completion is recorded,
that no GEN is aborted, and that no step from the invariant faults. -/

namespace Sys2Proof

open Machine

variable {s u : State}

/-! ### A GEN from its start to its completion (R217) -/

/-- The state `u` is inside the GEN that was written to CMD in the state `s`: the GEN runs on the arguments of `s`, with an abort
requested or not, and has changed nothing of the block that the host sees but the flags of a start. -/
structure GenRunning (s u : State) : Prop where
  phase : u.eng.phase = .gen
  answered : u.eng.awaiting = false
  key : u.eng.key = s.regs.key
  nonce : u.eng.nonce = s.regs.nonce
  counter : u.eng.ctr0 = s.regs.counter
  regs : u.regs = s.regs
  status : u.status = s.status.started
  doneIe : u.doneIe = s.doneIe
  mem : u.mem = s.mem
  plat : u.env.plat = s.env.plat

theorem GenRunning.busy (h : GenRunning s u) : u.busy = true := by
  rw [busy_eq_true, h.phase]
  decide

/-- The step that writes a command's word to CMD at its address. -/
theorem Machine.step_cmdWrite {w : Word} {i : Instr} (hd : decode w = .instr i)
    (h : s.env.script.head? = some (.host (regAccess s.env.plat .write .cmd w))) :
    step s = exec i (withReply .okay (popScript s)) :=
  (step_regWrite h).trans (writeCmd_of_instr hd _)

/-- The step that writes GEN to CMD while idle. -/
theorem GenRunning.of_write {evs : List Event} (hi : Inv s) (hb : s.busy = false)
    (hscript : s.env.script = .host (regAccess s.env.plat .write .cmd 1) :: evs) :
    ∃ u, step s = .next u ∧ u.env.script = evs ∧ GenRunning s u := by
  have hstep : step s = exec .gen (withReply .okay (popScript s)) :=
    step_cmdWrite (w := 1) (by decide) (by rw [hscript, List.head?_cons])
  have hanswered : s.eng.awaiting = false := by rw [hi.idle_eng hb, Eng.zero_awaiting]
  exact ⟨_, hstep.trans (exec_gen_of_idle hb), by simp [hscript], rfl, hanswered, rfl, rfl, rfl, rfl, rfl, rfl, rfl, rfl⟩

/-- The step that writes ABORT to CMD while a GEN runs: the GEN goes on. -/
theorem GenRunning.abort {evs : List Event} (h : GenRunning s u)
    (hscript : u.env.script = .host (regAccess s.env.plat .write .cmd 3) :: evs) :
    ∃ v, step u = .next v ∧ v.env.script = evs ∧ GenRunning s v := by
  have hstep : step u = exec .abort (withReply .okay (popScript u)) :=
    step_cmdWrite (w := 3) (by decide) (by rw [hscript, h.plat, List.head?_cons])
  exact ⟨_, hstep.trans (exec_abort_of_busy h.busy), by simp [hscript], { h with }⟩

/-- Any number of ABORTs written while a GEN runs: the GEN goes on. -/
theorem GenRunning.aborts {n : Nat} {evs : List Event} (h : GenRunning s u)
    (hscript : u.env.script = List.replicate n (.host (regAccess s.env.plat .write .cmd 3)) ++ evs) :
    ∃ v : State, core.run n u = .next v ∧ v.env.script = evs ∧ GenRunning s v := by
  induction n generalizing u with
  | zero => exact ⟨u, rfl, hscript, h⟩
  | succ n ih =>
    obtain ⟨v, hstep, hv, hgen⟩ := h.abort hscript
    obtain ⟨w, hrun, hw⟩ := ih hgen hv
    exact ⟨w, (run_succ hstep).trans hrun, hw⟩

/-- The engine's step while a GEN runs. -/
theorem GenRunning.step_engine {ans : MemAnswer} {evs : List Event} (h : GenRunning s u)
    (hscript : u.env.script = .engine ans :: evs) : step u = genStep (popScript u) :=
  (step_of_head (ev := .engine ans) (by rw [hscript, List.head?_cons])).trans
    (engineStep_gen (s := popScript u) ans h.answered h.phase)

/-- Settles O10: the write of GEN starts it, each ABORT leaves it running, and the engine's step completes it. -/
theorem genIsNeverAborted : Obligations.GenIsNeverAborted := by
  intro s n ans rest hi hb hscript
  obtain ⟨u, hstart, hu, hgen⟩ := GenRunning.of_write hi hb hscript
  obtain ⟨v, haborts, hv, hgen⟩ := hgen.aborts hu
  have hrun : core.run (n + 2) s = core.run 1 v := (run_succ hstart).trans (run_add haborts)
  refine ⟨_, hrun.trans (run_succ (hgen.step_engine hv)), by simp [hv], rfl, ?regs, ?status, hgen.mem, hgen.doneIe⟩
  case regs => simp [hgen.regs, hgen.key, hgen.nonce, hgen.counter, add32]
  case status => simp [hgen.status, Status.completed]

/-! ### The words that a completion in mid-APPLY records (R216, R217) -/

theorem Machine.blockBase_eq (e : Eng) : blockBase e = 64 * e.j := by
  rw [blockBase, BitVec.ofNat_mul, BitVec.ofNat_toNat, BitVec.setWidth_eq]
  rfl

theorem Machine.ofNat_byteIndex (e : Eng) : BitVec.ofNat 32 (byteIndex e) = 64 * e.j + BitVec.ofNat 32 e.i.val := by
  rw [byteIndex, BitVec.ofNat_add, ← blockBase, blockBase_eq]

theorem Machine.ofNat_rdAddress (e : Eng) :
    BitVec.ofNat 32 (rdAddress e) = e.src + 64 * e.j + BitVec.ofNat 32 e.i.val := by
  rw [rdAddress, BitVec.ofNat_add, ofNat_byteIndex, BitVec.ofNat_toNat, BitVec.setWidth_eq, BitVec.add_assoc]

theorem Machine.ofNat_wrAddress (e : Eng) :
    BitVec.ofNat 32 (wrAddress e) = e.dst + 64 * e.j + BitVec.ofNat 32 e.i.val := by
  rw [wrAddress, BitVec.ofNat_add, ofNat_byteIndex, BitVec.ofNat_toNat, BitVec.setWidth_eq, BitVec.add_assoc]

/-- Settles O15: the abort test completes with the running counter, which before block j is the initial one plus j. -/
theorem abortEndsApplyBeforeNextBlock : Obligations.AbortEndsApplyBeforeNextBlock := by
  intro s ans h hp hab
  obtain ⟨-, haw, hctr⟩ := h.eng.of_blk hp
  rw [engineStep_blk ans haw hp, blkStep_of_abort hab, hctr, blockBase_eq]
  rfl

/-- Settles O20: an error response completes with the running counter, which inside block j already counts it, and a write leaves
a free byte at its address. -/
theorem busErrorEndsApply : Obligations.BusErrorEndsApply := by
  intro s h haw
  refine ⟨fun hp => ?rd, fun hp => ?wr⟩
  case rd =>
    obtain ⟨hap, hib⟩ := h.eng.of_rd hp
    rw [engineStep_rd _ haw hp, rdStep_busError (rdAddress_lt hap hib), hib.counter, blockBase_eq, ofNat_rdAddress]
    exact ⟨_, rfl, rfl, rfl, rfl, rfl⟩
  case wr =>
    obtain ⟨hap, hib⟩ := h.eng.of_wr hp
    rw [engineStep_wr _ haw hp, wrStep_busError (wrAddress_lt hap hib), hib.counter, ofNat_byteIndex, ofNat_wrAddress]
    exact ⟨_, rfl, rfl, rfl, rfl, memRead_memWrite_same h.mem _ _, fun x hx => memRead_memWrite_other h.mem _ hx⟩

/-! ### No fault (R214) -/

theorem Machine.writeReg_ne_fault (r : Reg) (w : Word) (s : State) (f : Fault) : writeReg r w s ≠ .fault f := by
  cases r with
  | cmd =>
    cases hd : decode w with
    | instr i => rw [writeReg, writeCmd_of_instr hd]; exact exec_ne_fault i s f
    | reserved why => rw [writeReg, writeCmd_of_reserved hd]; nofun
  | _ => nofun

theorem Machine.hostAccess_ne_fault (a : Access) (s : State) (f : Fault) : hostAccess a s ≠ .fault f := by
  unfold hostAccess
  split
  · split
    · nofun
    · split
      · nofun
      · exact writeReg_ne_fault _ _ _ f
  · nofun

theorem Machine.hostLoad_ne_fault (a : Word) (s : State) (f : Fault) : hostLoad a s ≠ .fault f := by
  unfold hostLoad
  split
  · split <;> nofun
  · nofun

theorem Machine.hostStore_ne_fault (a : Word) (v : Byte) (s : State) (f : Fault) : hostStore a v s ≠ .fault f := by
  unfold hostStore
  split
  · split <;> nofun
  · nofun

/-- Only an engine step could fault, and from the invariant it answers. -/
theorem Inv.runEvent_ne_fault (h : Inv s) (ev : Event) (f : Fault) : runEvent ev s ≠ .fault f := by
  cases ev with
  | host a => exact hostAccess_ne_fault a s f
  | memLoad a => exact hostLoad_ne_fault a s f
  | memStore a v => exact hostStore_ne_fault a v s f
  | engine ans =>
    obtain ⟨t, ht⟩ := h.engineStep_next ans
    rw [runEvent, ht]
    nofun
  | sampleIrq | rst => nofun

/-- Settles O27: taking the event off the script keeps the invariant, from which no event faults. -/
theorem noFaultFromInvariant : Obligations.NoFaultFromInvariant := fun s f h =>
  h.popScript.runEvent_ne_fault (nextEvent s) f

/-! ### Reserved words and result codes (R211, R212) -/

theorem Machine.reservedCommand_of_idle (hb : s.busy = false) : reservedCommand s = completeStatus .badcmd s :=
  if_neg (Bool.not_eq_true _ ▸ hb)

/-- Settles O6: the step is the write of a reserved word, which while idle is a completion with BADCMD and no result registers. -/
theorem reservedWordWhileIdleIsBadCommand : Obligations.ReservedWordWhileIdleIsBadCommand := by
  intro s w why hscript hd hb
  rw [step_regWrite hscript, writeReg, writeCmd_of_reserved hd,
    reservedCommand_of_idle (s := withReply .okay (popScript s)) hb]
  exact ⟨_, rfl, rfl, rfl, rfl, rfl, rfl, rfl, rfl⟩

theorem Machine.Result.code_lt (res : Result) : res.code < 7 := by cases res <;> decide

theorem Machine.Result.code_eq_zero {res : Result} : res.code = 0 ↔ res = .ok := by cases res <;> decide

/-- Settles O47: the table of the codes, of which OK alone is 0, and ERR is set where the result is not OK. -/
theorem resultCodesOfCompletions : Obligations.ResultCodesOfCompletions := by
  refine ⟨⟨rfl, rfl, rfl, rfl, rfl, rfl, rfl, Result.code_lt⟩, fun res s => ⟨rfl, rfl, ?_⟩⟩
  rw [completeStatus_status, Status.completed_err, bne_iff_ne, Ne, Ne, Result.code_eq_zero]

/-! ### The interrupt (R224, R226) -/

theorem Machine.hostSampleIrq_reply (s : State) : (hostSampleIrq s).env.reply = .level (s.status.done && s.doneIe) := rfl

theorem Machine.hostSampleIrq_regs (s : State) : (hostSampleIrq s).regs = s.regs := by
  unfold hostSampleIrq; split <;> rfl

theorem Machine.hostSampleIrq_status (s : State) : (hostSampleIrq s).status = s.status := by
  unfold hostSampleIrq; split <;> rfl

theorem Machine.hostSampleIrq_eng (s : State) : (hostSampleIrq s).eng = s.eng := by
  unfold hostSampleIrq; split <;> rfl

theorem Machine.hostSampleIrq_mem (s : State) : (hostSampleIrq s).mem = s.mem := by
  unfold hostSampleIrq; split <;> rfl

theorem Machine.complete_irq (res : Result) (nc db ea : Word) (s : State) : (complete res nc db ea s).irq = s.doneIe :=
  Bool.true_and _

/-- An acknowledge of DONE leaves the `irq` line at 0. -/
theorem Machine.acknowledge_irq {w : Word} (hw : w.getLsbD 1 = true) (s : State) : (acknowledge w s).irq = false := by
  simp [State.irq, hw]

/-- Settles O56: a sample answers with the level, a completion sets DONE, and an acknowledge clears it. -/
theorem interruptFollowsDoneAndEnable : Obligations.InterruptFollowsDoneAndEnable := by
  refine ⟨fun s hs => ?sample, complete_irq, fun s w hw hs => ⟨_, step_regWrite hs, acknowledge_irq hw _⟩⟩
  case sample =>
    exact ⟨_, step_of_head hs, hostSampleIrq_reply _, hostSampleIrq_regs _, hostSampleIrq_status _, hostSampleIrq_eng _,
      hostSampleIrq_mem _⟩

end Sys2Proof
end

section
/-! PROOF. Reset and hazards (70_reset_and_hazards.md R240, R241, R246, R252): an engine that waits for a response, what a reset
leaves, and the bytes of a race. Each operation has its equation, and each statement follows from these. -/

namespace Sys2Proof

open Machine

variable {s t : State}

/-! ### Reset (R240, R241) -/

theorem Machine.writeInFlight_iff {inFlight : Bool} :
    writeInFlight inFlight s = true ↔ s.eng.phase = .wr ∧ (inFlight = true ∨ s.eng.awaiting = true) := by
  rw [writeInFlight, Bool.and_eq_true, beq_iff_eq, Bool.or_eq_true]

/-- A reset is the block's reset, on memory where a write in flight has left a free byte. -/
theorem Machine.assertReset_eq (inFlight : Bool) (s : State) :
    assertReset inFlight s =
      resetBlock (if writeInFlight inFlight s = true then storeFree (wrAddress s.eng) s else s) :=
  (apply_ite resetBlock _ _ _).symm

/-- Memory after a reset: a free byte where a write is in flight, and every other byte as before. -/
theorem Machine.memRead_assertReset {inFlight : Bool} (hwf : Mem.wf s.mem) (x : Nat) :
    memRead (assertReset inFlight s).mem x =
      if writeInFlight inFlight s = true ∧ x = wrAddress s.eng then freshByte s else memRead s.mem x := by
  rw [assertReset_eq, resetBlock_mem]
  by_cases hf : writeInFlight inFlight s = true
  · rw [if_pos hf, storeFree_mem, memRead_memWrite hwf]
    exact if_congr (and_iff_right hf).symm rfl rfl
  · rw [if_neg hf, if_neg fun h => hf h.1]

/-- The step of a reset event. -/
theorem Machine.step_rst {inFlight : Bool} (h : s.env.script.head? = some (.rst inFlight)) :
    step s = .next (assertReset inFlight (popScript s)) := step_of_head h

/-- Settles O57: the block is the reset block, and a byte of memory changes only where a write is in flight. -/
theorem resetAbandonsCommandAndKeepsMemory : Obligations.ResetAbandonsCommandAndKeepsMemory := by
  intro s inFlight hwf hs
  have hmem := memRead_assertReset (s := popScript s) (inFlight := inFlight) hwf
  refine ⟨_, step_rst hs, ?_⟩
  simp only [assertReset_eq] at hmem ⊢
  refine ⟨rfl, rfl, rfl, rfl, rfl, rfl, fun x hx => ?frame, fun hp hw => ?inFlight⟩
  case frame =>
    refine (hmem x).trans (if_neg fun ⟨hf, hxa⟩ => ?_)
    obtain ⟨hp, hw⟩ := writeInFlight_iff.1 hf
    rcases hx with hp' | ⟨hb, ha⟩ | hx
    · exact hp' hp
    · exact hw.elim (by simp [hb]) (by simp [ha])
    · exact hx hxa
  case inFlight =>
    exact (hmem _).trans (if_pos ⟨writeInFlight_iff.2 ⟨hp, hw⟩, rfl⟩)

/-! ### A DMA access without a response (R252) -/

theorem Machine.engineStep_of_awaiting (ans : MemAnswer) (haw : s.eng.awaiting = true) : engineStep ans s = .next s :=
  if_pos haw

/-- While the engine waits no agent but a reset changes it, but for the abort request. -/
theorem Machine.eng_of_awaiting {ev : Event} (h : runEvent ev s = .next t) (hb : s.busy = true)
    (haw : s.eng.awaiting = true) (hr : ∀ b, ev ≠ .rst b) : ∃ b, t.eng = { s.eng with abortPend := b } := by
  by_cases he : ∃ ans, ev = .engine ans
  · obtain ⟨ans, rfl⟩ := he
    rw [runEvent, engineStep_of_awaiting ans haw] at h
    cases h
    exact ⟨s.eng.abortPend, rfl⟩
  · exact (runEvent_effect h).eng_of_busy hb (fun ans hans => he ⟨ans, hans⟩) hr

/-- Settles O21: an access without a response sets the wait, which no step but a reset's ends. -/
theorem noResponseLeavesEngineStuck : Obligations.NoResponseLeavesEngineStuck := by
  refine ⟨fun s hp haw hlt => ?rd, fun s hp haw hlt => ?wr, fun s ans => engineStep_of_awaiting ans,
    fun s t ev hb haw hs hr h => ?waits, fun s b hs => ⟨_, step_rst hs, ?reset⟩⟩
  case rd => exact (engineStep_rd _ haw hp).trans (rdStep_noResponse hlt)
  case wr => exact (engineStep_wr _ haw hp).trans (wrStep_noResponse hlt)
  case waits =>
    rw [step_of_head hs] at h
    obtain ⟨b, he⟩ := eng_of_awaiting (s := popScript s) h hb haw hr
    rw [State.busy, he]
    exact ⟨hb, haw, rfl⟩
  case reset => rw [assertReset_eq, resetBlock_busy]

/-! ### Loads and stores that race (R246) -/

theorem Machine.hostLoad_of_races {a : Word} (hn : normalRange s.env.plat a.toNat 1 = true)
    (hr : racesLoad s a.toNat = true) :
    hostLoad a s = .next (withReply (.byte (freshByte s)) (raceOn (loadRegions s a.toNat) (drawn s))) := by
  rw [hostLoad, if_pos hn, if_pos hr]

theorem Machine.hostStore_of_races {a : Word} (v : Byte) (hn : normalRange s.env.plat a.toNat 1 = true)
    (hr : racesStore s a.toNat = true) :
    hostStore a v s = .next (withReply .okay (raceOn (storeRegions s a.toNat) s)) := by
  rw [hostStore, if_pos hn, if_pos hr]

section RaceOn

variable {rs : List Region} {x : Nat}

/-- A race on ranges in the DMA space makes each of their bytes the free byte of its address, and raced on. -/
theorem Machine.raceOn_involved (hfits : ∀ r ∈ rs, r.start + r.size ≤ 2 ^ 32) (hwf : Mem.wf s.mem)
    (hx : (rs.any fun r => inRegion r x) = true) :
    memRead (raceOn rs s).mem x = Config.freeByte (s.env.freeCtr + x) ∧ isRaced (raceOn rs s) x = true :=
  ⟨by rw [raceOn_mem, memRead_memFreeAll hfits hwf, if_pos hx], isRaced_raceOn.2 (.inl hx)⟩

/-- A race leaves every byte outside its ranges, and whether it is raced on. -/
theorem Machine.raceOn_not_involved (hfits : ∀ r ∈ rs, r.start + r.size ≤ 2 ^ 32) (hwf : Mem.wf s.mem)
    (hx : ¬(rs.any fun r => inRegion r x) = true) :
    memRead (raceOn rs s).mem x = memRead s.mem x ∧ isRaced (raceOn rs s) x = isRaced s x :=
  ⟨by rw [raceOn_mem, memRead_memFreeAll hfits hwf, if_neg hx],
    Bool.eq_iff_iff.2 (isRaced_raceOn.trans (or_iff_right hx))⟩

end RaceOn

/-! ### Engine steps on a range raced on (R246) -/

/-- Where an agent raced, a successful RD step goes on with a free byte. -/
theorem Machine.rdStep_ok_raced (hlt : rdAddress s.eng < 2 ^ 32) (hr : isRaced s (rdAddress s.eng) = true) :
    rdStep .ok s = afterRead (freshByte s) (drawn s) := by
  rw [rdStep_ok hlt, dmaRead_isRaced hr]

/-- Where an agent raced, a successful WR step goes on from memory with a free byte. -/
theorem Machine.wrStep_ok_raced (hlt : wrAddress s.eng < 2 ^ 32) (hr : isRaced s (wrAddress s.eng) = true) :
    wrStep .ok s = afterWrite (storeFree (wrAddress s.eng) s) := by
  rw [wrStep_ok hlt, dmaWrite_isRaced _ hr]

/-- The state with other memory and other agents around the block. -/
def withSurroundings (m : Mem) (env : Env) (s : State) : State := { s with mem := m, env := env }

/-- What follows a write reads neither memory nor the agents around the block. -/
theorem afterWrite_withSurroundings (m : Mem) (env : Env) (s : State) :
    afterWrite (withSurroundings m env s) = mapNext (withSurroundings m env) (afterWrite s) := by
  simp only [afterWrite, apply_ite (mapNext _), apply_dite (mapNext _)]
  rfl

/-- The state with no range raced on. -/
def withoutRaces (s : State) : State := { s with env := { s.env with raced := [] } }

theorem isRaced_withoutRaces (s : State) (a : Nat) : isRaced (withoutRaces s) a = false := isRaced_nil rfl a

/-- An RD step at an address raced on is the step without the race, but for a free byte in the buffer and its draw. -/
theorem engineStep_rd_raced (hp : s.eng.phase = .rd) (haw : s.eng.awaiting = false) (hi : s.eng.i.val < s.eng.n.val)
    (hlt : rdAddress s.eng < 2 ^ 32) (hr : isRaced s (rdAddress s.eng) = true) :
    ∃ t u, engineStep .ok s = .next t ∧ engineStep .ok (withoutRaces s) = .next u ∧
      t.eng = { u.eng with buf := s.eng.buf.set s.eng.i (Config.freeByte s.env.freeCtr) } ∧
      t.regs = u.regs ∧ t.status = u.status ∧ t.doneIe = u.doneIe ∧ t.mem = s.mem ∧
      t.env = { s.env with freeCtr := s.env.freeCtr + 1 } := by
  rw [engineStep_rd _ haw hp, engineStep_rd (s := withoutRaces s) _ haw hp, rdStep_ok_raced hlt hr,
    rdStep_ok_unraced (s := withoutRaces s) hlt (isRaced_withoutRaces s _)]
  by_cases hn : s.eng.i.val + 1 = s.eng.n.val
  · exact ⟨_, _, afterRead_last (s := drawn s) hn, afterRead_last (s := withoutRaces s) hn, rfl, rfl, rfl, rfl, rfl, rfl⟩
  · have hi' := byteIndex_succ_lt hi hn
    exact ⟨_, _, afterRead_more (s := drawn s) hn hi', afterRead_more (s := withoutRaces s) hn hi',
      rfl, rfl, rfl, rfl, rfl, rfl⟩

/-- A WR step at an address raced on is the step without the race, but for a free byte in memory and its draw. -/
theorem engineStep_wr_raced (hp : s.eng.phase = .wr) (haw : s.eng.awaiting = false) (hi : s.eng.i.val < s.eng.n.val)
    (hlt : wrAddress s.eng < 2 ^ 32) (hr : isRaced s (wrAddress s.eng) = true) :
    ∃ t u, engineStep .ok s = .next t ∧ engineStep .ok (withoutRaces s) = .next u ∧
      t.mem = memWrite s.mem (wrAddress s.eng) (freshByte s) ∧
      t.eng = u.eng ∧ t.regs = u.regs ∧ t.status = u.status ∧ t.doneIe = u.doneIe ∧
      t.env = { s.env with freeCtr := s.env.freeCtr + 1 } := by
  obtain ⟨v, hv⟩ := afterWrite_next hi
  have hsame (m : Mem) (env : Env) : afterWrite (withSurroundings m env s) = .next (withSurroundings m env v) := by
    rw [afterWrite_withSurroundings, hv, mapNext]
  rw [engineStep_wr _ haw hp, engineStep_wr (s := withoutRaces s) _ haw hp, wrStep_ok_raced hlt hr,
    wrStep_ok_unraced (s := withoutRaces s) hlt (isRaced_withoutRaces s _)]
  exact ⟨_, _, hsame _ _, hsame _ _, rfl, rfl, rfl, rfl, rfl, rfl⟩

/-- Settles O59: a racing access is a race on the ranges it involves, and an engine step at an address raced on draws a free
byte. -/
theorem racingAccessesYieldFreeBytes : Obligations.RacingAccessesYieldFreeBytes := by
  refine ⟨fun s a hs hn hraces hwf ha => ?load, fun s a v hs hn hraces hwf ha => ?store,
    fun s => engineStep_rd_raced, fun s hp haw hi hlt hr hwf => ?wr⟩
  case load =>
    have hfits : ∀ r ∈ loadRegions s a.toNat, r.start + r.size ≤ 2 ^ 32 := fun _ hr =>
      hraces.range_fits (mem_loadRegions hr)
    have hload : racesLoad s a.toNat = true := racesLoad_iff.2 (ha.imp fun _ ⟨hb, hin, _⟩ => ⟨hb, hin⟩)
    refine ⟨_, (step_of_head hs).trans (hostLoad_of_races (s := popScript s) hn hload), rfl, fun x hx => ?_, fun x hx => ?_,
      rfl, rfl, rfl, rfl, rfl, rfl⟩
    · exact raceOn_involved (s := drawn (popScript s)) hfits hwf (any_loadRegions.2 hx)
    · exact raceOn_not_involved (s := drawn (popScript s)) hfits hwf (mt any_loadRegions.1 hx)
  case store =>
    have hfits : ∀ r ∈ storeRegions s a.toNat, r.start + r.size ≤ 2 ^ 32 := fun _ hr =>
      hraces.range_fits (mem_storeRegions hr)
    have hstore : racesStore s a.toNat = true :=
      racesStore_iff.2 (ha.imp fun _ ⟨hb, h⟩ => ⟨hb, h.imp And.left And.left⟩)
    refine ⟨_, (step_of_head hs).trans (hostStore_of_races (s := popScript s) v hn hstore), rfl, fun x hx => ?_,
      fun x hx => ?_, rfl, rfl, rfl, rfl, rfl, rfl⟩
    · exact raceOn_involved (s := popScript s) hfits hwf (any_storeRegions.2 hx)
    · exact raceOn_not_involved (s := popScript s) hfits hwf (mt any_storeRegions.1 hx)
  case wr =>
    obtain ⟨t, u, ht, hu, hmem, hframe⟩ := engineStep_wr_raced hp haw hi hlt hr
    refine ⟨t, u, ht, hu, ?_, fun x hx => ?_, hframe⟩
    · rw [hmem, memRead_memWrite_same hwf]; rfl
    · rw [hmem, memRead_memWrite_other hwf _ hx]

end Sys2Proof
end
